-- ==== Sys2Proof/Word.lean ====
section
/-! DEFINITION. The value domains of the Choir core: bytes, symbols, characters, texts, binary64 data, stack values,
and the records that the codec and the splitter pass around (spec/00_scope.md R8, R9, R11; spec/10_state.md R21, R22;
spec/30_encoding.md R70, R74; spec/40_codec_encode.md R114). Types only: what is computed on them stands in Machine/. -/

namespace Sys2Proof

/-- A program byte (R70): bit 7 is the section-kind flag `K`, bits 6:0 the symbol index `S`. -/
abbrev Byte := BitVec 8

/-- A symbol inside the machine is its 7-bit index into the code page (R70, R71). -/
abbrev Sym := BitVec 7

/-- A Text is a finite sequence of Unicode scalar values, possibly empty (R8). Lean's `Char` is exactly R8's Char. -/
abbrev Text := List Char

/-- One decimal digit of a `NUM` token (R76). -/
abbrev Digit := Fin 10

/-- An IEEE 754 binary64 datum with ONE not-a-number (R9, R11, R192). `fin neg e f` is the finite datum with sign
`neg`, biased exponent `e` (0 to 2046; 0 for zeros and subnormals) and trailing significand `f`: every term is a
datum, and two terms are equal exactly when the data are, signed zeros included. -/
inductive F64 where
  | nan
  | inf (neg : Bool)
  | fin (neg : Bool) (e : Fin 2047) (f : BitVec 52)
deriving DecidableEq, Repr

mutual
/-- A stack Value (R9): a number, a text, or a finite sequence of Values. The no-result sentinel `NORES` is not one
(R167): it is `none` of `Option Value`. -/
inductive Value where
  | num (x : F64)
  | text (t : Text)
  | seq (vs : Values)
deriving DecidableEq, Repr

/-- The elements of a `Seq`, in order. It is a list of Values, spelled as a type of its own so that equality of
Values is derived; `Values.toList` and `Values.ofList` go to and from `List Value`. -/
inductive Values where
  | nil
  | cons (v : Value) (vs : Values)
deriving DecidableEq, Repr
end

/-- The elements as a list. -/
def Values.toList : Values → List Value
  | .nil => []
  | .cons v vs => v :: vs.toList

/-- The list as the elements of a `Seq`. -/
def Values.ofList : List Value → Values
  | [] => .nil
  | v :: vs => .cons v (Values.ofList vs)

/-- `Seq(xs)` of R9, from a list. -/
def Value.ofList (xs : List Value) : Value := .seq (Values.ofList xs)

/-- The two section kinds (R70, R74). -/
inductive Kind where
  | instruction
  | literal
deriving DecidableEq, Repr

/-- A section: its kind and its symbols (R74). -/
structure Section where
  kind : Kind
  text : List Sym
deriving DecidableEq, Repr

/-- The two prefix symbols that take a second symbol (R73, R83): the string escape and the extension prefix. -/
inductive Pfx where
  | sesc
  | ext
deriving DecidableEq, Repr

/-- The three named registers `¬`, `⁼`, `ⁿ` (R21). -/
inductive Reg where
  | not
  | eq
  | n
deriving DecidableEq, Repr

/-- The two dictionaries (R6, R53). -/
inductive Dict where
  | short
  | long
deriving DecidableEq, Repr

/-- The program counter: section index and token index (R22). -/
structure PC where
  si : Nat
  ti : Nat
deriving DecidableEq, Repr

/-- A part of the encoder's parse (R114): one character, or one dictionary word with its index, its dictionary,
whether the match was in the case-swapped suffix, whether no part precedes it, and whether one space was skipped
just before it. -/
inductive Part where
  | chr (ch : Char)
  | word (idx : Nat) (sel : Dict) (sw first sp : Bool)
deriving DecidableEq, Repr

/-- A dictionary prefix index (R29, R111) in first-child, next-sibling form: `node c w child sibling` is the edge
labelled `c`, the index `w` of the word that ends there if one does, the nodes one character deeper, and the other
edges at the same depth. -/
inductive Trie where
  | leaf
  | node (c : Char) (word : Option Nat) (child sibling : Trie)
deriving DecidableEq, Repr

end Sys2Proof
end

