-- ==== Sys2Proof/Config.lean ====
section
/-! DEFINITION. The configuration record `CFG` (spec/00_scope.md R6): what the source leaves to configuration, as one
structure of plain data, the fixed lists that R6 and R249 give, and the one open FUNCTION of R6, `NUMTEXT_OTHER`,
as an opaque constant of which nothing can be proved but that it depends on its argument alone (R191). -/

namespace Sys2Proof

/-- `CFG` (R6). `SYM_QUOTE`, `SYM_EXT`, `LEN_S` and `LEN_L` are computed from these fields (Machine/CodePage.lean), as
R6 says they are; a capacity of `none` is the default, infinity. -/
structure Config where
  /-- `CP.glyph`, the glyph of each index, index 0 first. -/
  glyphs : List Char
  /-- `CP.ws`, the whitespace slots. -/
  ws : List Sym
  /-- `SYM_SEP`, the literate-text separator. -/
  symSep : Sym
  /-- `SYM_LESC`, the literate-text escape. -/
  symLesc : Sym
  /-- `SYM_SESC`, the string-literal escape of the tokenizer. -/
  symSesc : Sym
  /-- `CP_FALLBACK`, the index for a character outside the code page. -/
  fallback : Sym
  /-- `DICT_S`, the short dictionary. -/
  dictS : List Text
  /-- `DICT_L`, the long dictionary. -/
  dictL : List Text
  /-- `MAX_STACK`, in values. -/
  maxStack : Option Nat
  /-- `MAX_NBITS`, in bits of the codec integer. -/
  maxNbits : Option Nat
  /-- `MAX_TEXT`, in characters of one Text. -/
  maxText : Option Nat
deriving DecidableEq, Repr

/-- `NUMTEXT_OTHER` (R6, R191): the text of a finite number that is not an integer of magnitude at most 2^53. OPEN in
the spec (D15, U6), so a free value with no body: assumption 1. -/
opaque Config.numTextOther : F64 → Text

/-- The command glyphs that R6 requires to be in the code page, in R6's order. -/
def Config.commandGlyphs : List Char :=
  ['⁺', '⁻', 'I', 'J', '+', '-', '*', '/', ':', '~', '$', 'c', 'b', '@', 'H', 'T', 'C', 't', '⌂', 'i', 'j', 'r', 'R',
   'A', 'a', 'Z', 'S', '"', '#', 'd', '¬', '⁼', 'ⁿ', '…', 'D']

/-- The ten digit glyphs (R6). -/
def Config.digitGlyphs : List Char := ['0', '1', '2', '3', '4', '5', '6', '7', '8', '9']

/-- `APA_MINOR` (R6, R249): the 22 minor words of `⌂t`. -/
def Config.apaMinor : List Text :=
  [['a'], ['a', 'n'], ['a', 'n', 'd'], ['a', 's'], ['a', 't'], ['b', 'u', 't'], ['b', 'y'], ['f', 'o', 'r'], ['i', 'f'],
   ['i', 'n'], ['n', 'o', 'r'], ['o', 'f'], ['o', 'f', 'f'], ['o', 'n'], ['o', 'r'], ['p', 'e', 'r'], ['s', 'o'],
   ['t', 'h', 'e'], ['t', 'o'], ['u', 'p'], ['v', 'i', 'a'], ['y', 'e', 't']]

/-- `APA_PUNCT` (R6, R249): the punctuation after which `⌂t` capitalises. -/
def Config.apaPunct : List Char := ['.', ':', '?', '!']

end Sys2Proof
end

