-- ==== Sys2Proof/Machine/CodePage.lean ====
section
/-! DEFINITION. The byte's fields and the code page contract (spec/30_encoding.md R70 to R73, R89; spec/00_scope.md R6,
R15, R16): `indexToSymbol`, `symbolIndex`, `LitChar`, `normalizeOutput`, the indices `OP(g)` and `DIG(k)`, ASCII case
mapping, and the reference configuration `REFCFG`. -/

namespace Sys2Proof

/-- `b[7]`, as the section kind it stands for: 1 is Instruction (R70). -/
def kindOf (b : Byte) : Kind := if b.msb then .instruction else .literal

/-- `b[6:0]`, the symbol index (R70, R12). -/
def symOf (b : Byte) : Sym := b.setWidth 7

/-- The byte of kind `k` that carries symbol `s` (R70): `0x80 + s` or `s`. -/
def byteOf (k : Kind) (s : Sym) : Byte :=
  match k with
  | .instruction => BitVec.ofNat 8 (0x80 + s.toNat)
  | .literal => BitVec.ofNat 8 s.toNat

/-- `indexToSymbol(i) = CP.glyph(i)` (R71). The default is never read: a well-formed code page has 128 entries. -/
def Config.glyph (c : Config) (s : Sym) : Char := c.glyphs.getD s.toNat ' '

/-- The native character of slot `w`: the character whose code is the slot's index (R72). -/
def nativeChar (w : Sym) : Char := Char.ofNat w.toNat

/-- `symbolIndex(ch)` (R71): a native whitespace character maps to its code, every other character to its place in
the code page, and a character in neither has none. -/
def Config.symbolIndex (c : Config) (ch : Char) : Option Sym :=
  match c.ws.find? (fun w => nativeChar w == ch) with
  | some w => some w
  | none => (c.glyphs.findIdx? (· == ch)).map (BitVec.ofNat 7)

/-- `OP(g)` and `DIG(k)` (R6, R73): the index of a command glyph or digit, which a well-formed code page has. -/
def Config.op (c : Config) (g : Char) : Sym := (c.symbolIndex g).getD 0

/-- `SYM_EXT`, always the index of `⌂` (R6, R80). -/
def Config.symExt (c : Config) : Sym := c.op '⌂'

/-- `SYM_QUOTE`, always the index of `"` (R6). -/
def Config.symQuote (c : Config) : Sym := c.op '"'

/-- `LitChar(i)` (R72): the native character of a whitespace slot, the glyph of every other symbol. -/
def Config.litChar (c : Config) (s : Sym) : Char := if s ∈ c.ws then nativeChar s else c.glyph s

/-- One character of `normalizeOutput` (R89): a whitespace slot's stand-in glyph becomes the native character. -/
def Config.normalizeChar (c : Config) (ch : Char) : Char :=
  match c.ws.find? (fun w => c.glyph w == ch) with
  | some w => nativeChar w
  | none => ch

/-- `normalizeOutput(text)` (R89). -/
def Config.normalizeOutput (c : Config) (t : Text) : Text := t.map c.normalizeChar

/-- The words of one dictionary (R53). -/
def Config.dict (c : Config) : Dict → List Text
  | .short => c.dictS
  | .long => c.dictL

/-- `LEN_S`, `LEN_L` (R6): the dictionary's length, the radix of the word-index digit (R117). -/
def Config.dictLen (c : Config) (d : Dict) : Nat := (c.dict d).length

/-- `MemRead(DICT, idx, 1)` (R53): word `idx` of a dictionary; the empty Text past its end, which the decoder never
reads. -/
def Config.word (c : Config) (d : Dict) (idx : Nat) : Text := (c.dict d).getD idx []

/-- `upper(c)` (R16), ASCII only. -/
def upperChar (ch : Char) : Char := if 97 ≤ ch.toNat ∧ ch.toNat ≤ 122 then Char.ofNat (ch.toNat - 32) else ch

/-- `lower(c)` (R16), ASCII only. -/
def lowerChar (ch : Char) : Char := if 65 ≤ ch.toNat ∧ ch.toNat ≤ 90 then Char.ofNat (ch.toNat + 32) else ch

/-- `swapcase(c)` (R16), ASCII only. -/
def swapChar (ch : Char) : Char :=
  if 97 ≤ ch.toNat ∧ ch.toNat ≤ 122 then upperChar ch
  else if 65 ≤ ch.toNat ∧ ch.toNat ≤ 90 then lowerChar ch
  else ch

/-- `lower` of a Text (R16). -/
def lowerText (t : Text) : Text := t.map lowerChar

/-- `swapcase` of a Text (R16). -/
def swapText (t : Text) : Text := t.map swapChar

/-- `REFCFG.CP.glyph` (R15): ASCII at 32 to 126, the eight glyphs of R15 at 1 to 8, U+2421 at 127, and U+2400 + i at
every other i below 32. -/
def refGlyphs : List Char :=
  (List.range 128).map fun i =>
    if 1 ≤ i ∧ i ≤ 8 then ['⁺', '⁻', '¬', '⁼', 'ⁿ', '…', '⌂', '¶'].getD (i - 1) ' '
    else if i < 32 then Char.ofNat (0x2400 + i)
    else if i = 127 then Char.ofNat 0x2421
    else Char.ofNat i

/-- `REFCFG` (R15), the spec's own reference configuration: assumption 3. Its capacities are the default, infinity. -/
def refcfg : Config where
  glyphs := refGlyphs
  ws := [9, 10, 13, 32]
  symSep := 8
  symLesc := 92
  symSesc := 39
  fallback := 32
  dictS := [['a'], ['i'], ['t', 'h', 'e'], ['c', 'a', 't'], ['o', 'f']]
  dictL := [['c', 'h', 'o', 'i', 'r'], ['t', 'h', 'e', 'o', 'r', 'y'], ['c', 'a', 't', 'e', 'g', 'o', 'r', 'y'],
    ['h', 'e', 'l', 'l', 'o'], ['w', 'o', 'r', 'l', 'd'], ['c', 'o', 'm', 'p', 'r', 'e', 's', 's']]
  maxStack := none
  maxNbits := none
  maxText := none

end Sys2Proof
end

