-- ==== Sys2Proof/Syntax.lean ====
section
/-! DEFINITION. The instructions: one constructor per row of spec/opcode_table.json (spec/30_encoding.md R76, R81, R82,
R83, R84, R70). A command has no operand of its own: every operand comes from the stack (R86). -/

namespace Sys2Proof

/-- The instructions of the Choir core. -/
inductive Instr where
  /-- NUM: push the decimal value of the digits, most significant first (R78, R210). -/
  | num (ds : List Digit)
  /-- STR: push the one-character Text of symbol `q` (R79, R211). -/
  | str (q : Sym)
  /-- `⁺` (table ROW): number + 1 (R193). -/
  | inc
  /-- `⁻` (table ROW_2): number − 1 (R194). -/
  | dec
  /-- `I`: number + 2 (R195). -/
  | addTwo
  /-- `J`: number − 2 (R196). -/
  | subTwo
  /-- `+`: add (R197). -/
  | add
  /-- `-`: subtract (R198). -/
  | sub
  /-- `*`: multiply (R199). -/
  | mul
  /-- `/` (table ROW_3): divide (R200). -/
  | div
  /-- `:`: duplicate, push `peek()` (R213). -/
  | dup
  /-- `~`: swap the top two (R214). -/
  | swap
  /-- `$`: drop (R215). -/
  | drop
  /-- `"` (table ROW_4): arm push-next-literal (R216). -/
  | armPush
  /-- `#`: clear the accumulator (R217). -/
  | clearAcc
  /-- `d`: arm compression mode (R218). -/
  | armCompress
  /-- `¬` (table ROW_5): store into register `NOT` (R219). -/
  | storeNot
  /-- `⁼` (table ROW_6): store into register `EQ` (R220). -/
  | storeEq
  /-- `ⁿ` (table ROW_7): store into register `N` (R221). -/
  | storeN
  /-- `…` (table ROW_8): drain the accumulator and push its characters (R222). -/
  | explode
  /-- `A`: push the uppercase alphabet (R224). -/
  | upperAlpha
  /-- `a`: push the lowercase alphabet (R225). -/
  | lowerAlpha
  /-- `Z`: push the printable set (R226). -/
  | printable
  /-- `S`: push one space (R227). -/
  | space
  /-- `c`: concatenate `p1 ++ p2` (R242). -/
  | concat
  /-- `b`: concatenate `p2 ++ p1` (R243). -/
  | revConcat
  /-- `@`: index (R244). -/
  | index
  /-- `H`: first N (R245). -/
  | head
  /-- `T`: last N (R246). -/
  | tail
  /-- `C`: centred N (R247). -/
  | centre
  /-- `t`: simple title case (R248). -/
  | titleCase
  /-- `i`: capitalise first, lowercase rest (R250). -/
  | capitalise
  /-- `j`: join a sequence by a separator (R251). -/
  | join
  /-- `r`: inclusive range (R252). -/
  | range
  /-- `R`: range 0 to n−1 (R253). -/
  | zeroRange
  /-- `⌂D` (table D): diagnostic dump (R223, R295). -/
  | dump
  /-- `⌂t` (table t_2): APA-style title case (R249). -/
  | apaTitle
  /-- UNIMPLEMENTED.CMD: a one-symbol token that names no command (R82, R212). -/
  | unimplCmd (s : Sym)
  /-- UNIMPLEMENTED.EXT: `⌂` and a symbol that names no extended command (R82, R212). -/
  | unimplExt (e : Sym)
  /-- BAD: a prefix symbol that is the last of its section (R83). -/
  | bad (p : Pfx)
  /-- LITERAL: one whole Literal section (R84, R162, R163). -/
  | literal (syms : List Sym)
  /-- INSTRUCTION-BYTE: an Instruction byte taken by itself, whatever symbol it carries; the configuration says which
  of the rows above it is (R70, R76). No bytes decode to it: they decode to that row. -/
  | instructionByte (s : Sym)
deriving DecidableEq, Repr

end Sys2Proof
end

