-- ==== Sys2Proof/WellFormed.lean ====
section
/-! DEFINITION. What is well formed: a configuration (spec/00_scope.md R13) and an instruction under a configuration
(spec/30_encoding.md R76 to R83). A State holds a configuration together with the proof that it is well formed, so the
machine cannot be built on any other (spec/60_exceptions.md R294: "a model takes a well-formedness proof (or check) as
a precondition of every operation"). -/

namespace Sys2Proof

/-- R13(a), and R71's 128 entries: the code page is total and injective. -/
def Config.codePageWf (c : Config) : Bool := decide (c.glyphs.length = 128) && decide c.glyphs.Nodup

/-- R6: exactly four whitespace slots. R13(b), in the form D5 gives it ("no other slot may use a native whitespace
character as glyph"): no slot but `w` itself has the native character of `w` as its glyph. Assumption 4. -/
def Config.whitespaceWf (c : Config) : Bool :=
  decide (c.ws.length = 4) && decide c.ws.Nodup &&
  c.ws.all fun w => (List.range 128).all fun i =>
    decide (i = w.toNat) || !(c.glyphs.getD i ' ' == nativeChar w)

/-- R13(c), (d) for one dictionary: non-empty, no empty word, no word twice, no character in `A`..`Z`. -/
def Config.dictWf (d : List Text) : Bool :=
  !d.isEmpty && d.all (fun w => !w.isEmpty) && decide d.Nodup &&
  d.all fun w => w.all fun ch => !(decide (65 ≤ ch.toNat) && decide (ch.toNat ≤ 90))

/-- R13(e): every command glyph and digit is in the code page. -/
def Config.glyphsPresent (c : Config) : Bool :=
  (Config.commandGlyphs ++ Config.digitGlyphs).all fun g => c.glyphs.contains g

/-- R13(f): the three special symbols are no command glyph or digit; the separator differs from the literate escape
and from the quote. As R13 does, it admits a separator that is `SYM_SESC`, and nothing here keeps a whitespace slot from
being `SYM_SESC` or having a command's or a digit's glyph, although R82 calls these symbols unimplemented under any
configuration: the model's choice, assumption 15. -/
def Config.specialsWf (c : Config) : Bool :=
  ([c.symSep, c.symLesc, c.symSesc].all fun s =>
    !(Config.commandGlyphs ++ Config.digitGlyphs).contains (c.glyph s)) &&
  decide (c.symSep ≠ c.symLesc) && decide (c.symSep ≠ c.symQuote)

/-- R13: the configuration is well formed. -/
def Config.wf (c : Config) : Bool :=
  c.codePageWf && c.whitespaceWf && Config.dictWf c.dictS && Config.dictWf c.dictL && c.glyphsPresent && c.specialsWf

/-- A well-formed configuration (R13, R294). -/
abbrev WfConfig := { c : Config // c.wf = true }

/-- `REFCFG` is well formed (R13, R15). -/
theorem refcfg_wf : refcfg.wf = true := by decide +kernel

/-- `REFCFG` with its proof (R15). -/
def refWfConfig : WfConfig := ⟨refcfg, refcfg_wf⟩

/-- The instruction is one that a token or a Literal section can be under `c`: a `NUM` has a digit (R76), an
unimplemented symbol names nothing (R82), a Literal section that is fetched has a symbol (R75(c)). -/
def Instr.wf (c : Config) (i : Instr) : Bool :=
  match i with
  | .num ds => !ds.isEmpty
  | .unimplCmd s =>
      decide (s ≠ c.symSesc) && !(Config.digitGlyphs.contains (c.glyph s)) &&
      !((Config.commandGlyphs.filter fun g => g ≠ 'D').contains (c.glyph s))
  | .unimplExt e => decide (c.glyph e ≠ 't') && decide (c.glyph e ≠ 'D')
  | .literal syms => !syms.isEmpty
  | .str _ | .inc | .dec | .addTwo | .subTwo | .add | .sub | .mul | .div | .dup | .swap | .drop | .armPush | .clearAcc
  | .armCompress | .storeNot | .storeEq | .storeN | .explode | .upperAlpha | .lowerAlpha | .printable | .space
  | .concat | .revConcat | .index | .head | .tail | .centre | .titleCase | .capitalise | .join | .range | .zeroRange
  | .dump | .apaTitle | .bad _ | .instructionByte _ => true

end Sys2Proof
end

