-- ==== Sys2Proof/Decode.lean ====
section
/-! DEFINITION. The decoder and the encoder (spec/30_encoding.md R74 to R84): `SPLIT`, `TOKENS`, the opcode map, one
instruction read from bytes, and the bytes of an instruction. Every byte sequence but the empty one decodes: no
encoding is illegal (R82), and the decoder's one rejection is that there is no byte. -/

namespace Sys2Proof

/-! ## Sections (R74) -/

/-- `SPLIT`'s loop from an open section of kind `k` with symbols `text`. The kind test comes before the append
(conflict C4); the open section is closed even if it is empty, and dropped only at the very end if it is empty. -/
def splitAux (k : Kind) (text : List Sym) : List Byte → List Section
  | [] => if text.isEmpty then [] else [⟨k, text⟩]
  | b :: bs =>
    if kindOf b = k then splitAux k (text ++ [symOf b]) bs
    else ⟨k, text⟩ :: splitAux (kindOf b) [symOf b] bs

/-- `SPLIT(bytes)` (R74): Instruction first. -/
def split (bytes : List Byte) : List Section := splitAux .instruction [] bytes

/-- A section's symbols written back as bytes (R75(e)). -/
def Section.bytes (sec : Section) : List Byte := sec.text.map (byteOf sec.kind)

/-! ## Tokens (R76, R77) -/

/-- A token of an Instruction section, before the opcode map names its command (R76). -/
inductive Token where
  | num (ds : List Digit)
  | str (q : Sym)
  | ext (e : Sym)
  | cmd (s : Sym)
  | bad (p : Pfx)
deriving DecidableEq, Repr

/-- The digit that a digit symbol stands for: `s = DIG(k)` exactly when the glyph of `s` is the digit `k`. -/
def Config.digitOf (c : Config) (s : Sym) : Option Digit :=
  (Config.digitGlyphs.findIdx? (· == c.glyph s)).map (Fin.ofNat 10)

/-- The maximal run of digit symbols at the front, and what follows it (R77's inner loop). -/
def takeDigits (c : Config) : List Sym → List Digit × List Sym
  | [] => ([], [])
  | s :: rest =>
    match c.digitOf s with
    | some d => (d :: (takeDigits c rest).1, (takeDigits c rest).2)
    | none => ([], s :: rest)

/-- One turn of `TOKENS`' loop (R77): the token at the front and the symbols after it. The tests are on the symbol alone
and in R77's order, also where R82 counts the symbol among the unimplemented ones (a whitespace slot that is a digit or
`SYM_SESC`, a separator that is `SYM_SESC`): the model's choice, assumption 15. -/
def nextToken (c : Config) : List Sym → Option (Token × List Sym)
  | [] => none
  | s :: rest =>
    match c.digitOf s with
    | some d => some (.num (d :: (takeDigits c rest).1), (takeDigits c rest).2)
    | none =>
      if s = c.symSesc then
        match rest with
        | q :: rest' => some (.str q, rest')
        | [] => some (.bad .sesc, [])
      else if c.glyph s = '⌂' then
        match rest with
        | e :: rest' => some (.ext e, rest')
        | [] => some (.bad .ext, [])
      else some (.cmd s, rest)

/-- `TOKENS`' loop, at most `fuel` turns; each turn takes at least one symbol. -/
def tokensAux (c : Config) : Nat → List Sym → List Token
  | 0, _ => []
  | fuel + 1, text =>
    match nextToken c text with
    | none => []
    | some (t, rest) => t :: tokensAux c fuel rest

/-- `TOKENS(text)` (R77). -/
def tokens (c : Config) (text : List Sym) : List Token := tokensAux c text.length text

/-! ## The opcode map (R81) -/

/-- The 33 one-byte commands of R81 by glyph. Anything else, `D` alone among it, names no command (R82). -/
def commandOf (g : Char) : Option Instr :=
  match g with
  | '⁺' => some .inc
  | '⁻' => some .dec
  | 'I' => some .addTwo
  | 'J' => some .subTwo
  | '+' => some .add
  | '-' => some .sub
  | '*' => some .mul
  | '/' => some .div
  | ':' => some .dup
  | '~' => some .swap
  | '$' => some .drop
  | '"' => some .armPush
  | '#' => some .clearAcc
  | 'd' => some .armCompress
  | '¬' => some .storeNot
  | '⁼' => some .storeEq
  | 'ⁿ' => some .storeN
  | '…' => some .explode
  | 'A' => some .upperAlpha
  | 'a' => some .lowerAlpha
  | 'Z' => some .printable
  | 'S' => some .space
  | 'c' => some .concat
  | 'b' => some .revConcat
  | '@' => some .index
  | 'H' => some .head
  | 'T' => some .tail
  | 'C' => some .centre
  | 't' => some .titleCase
  | 'i' => some .capitalise
  | 'j' => some .join
  | 'r' => some .range
  | 'R' => some .zeroRange
  | _ => none

/-- The two extended commands by glyph (R80). -/
def extCommandOf (g : Char) : Option Instr :=
  match g with
  | 't' => some .apaTitle
  | 'D' => some .dump
  | _ => none

/-- The instruction that a token is (R165): a symbol names the command whose glyph it has, since `OP` is the inverse
of the code page (R71); a symbol that names none is an unimplemented command (R82). A whitespace slot whose glyph is a
command's is that command (R81), not unimplemented as R82 says of every slot: the model's choice, assumption 15. -/
def Token.instr (c : Config) : Token → Instr
  | .num ds => .num ds
  | .str q => .str q
  | .ext e => (extCommandOf (c.glyph e)).getD (.unimplExt e)
  | .cmd s => (commandOf (c.glyph s)).getD (.unimplCmd s)
  | .bad p => .bad p

/-- The instructions of an Instruction section (R77, R165). -/
def sectionInstrs (c : Config) (text : List Sym) : List Instr := (tokens c text).map (Token.instr c)

/-! ## One instruction from bytes -/

/-- The decoder's one rejection. -/
inductive DecodeReject where
  /-- There is no byte to decode. -/
  | noByte
deriving DecidableEq, Repr

/-- The front run of bytes of kind `k`. -/
def runOf (k : Kind) (bytes : List Byte) : List Byte := bytes.takeWhile fun b => kindOf b = k

/-- What follows the front run of bytes of kind `k`. -/
def afterRun (k : Kind) (bytes : List Byte) : List Byte := bytes.dropWhile fun b => kindOf b = k

/-- The instruction at the front of a byte sequence, and the bytes after it. A Literal byte starts a whole Literal
section (R84); an Instruction byte starts a token, which does not cross the end of its section (R77). -/
def decode (c : Config) : List Byte → Except DecodeReject (Instr × List Byte)
  | [] => .error .noByte
  | b :: bs =>
    match kindOf b with
    | .literal => .ok (.literal ((runOf .literal (b :: bs)).map symOf), afterRun .literal (b :: bs))
    | .instruction =>
      match nextToken c ((runOf .instruction (b :: bs)).map symOf) with
      | none => .error .noByte
      | some (t, rest) => .ok (t.instr c, rest.map (byteOf .instruction) ++ afterRun .instruction (b :: bs))

/-! ## The encoder (R76, R81) -/

/-- The symbol of a prefix (R73). -/
def Config.pfxSym (c : Config) : Pfx → Sym
  | .sesc => c.symSesc
  | .ext => c.symExt

/-- The glyph of digit `d`. -/
def digitGlyph (d : Digit) : Char := Char.ofNat (48 + d.val)

/-- One Instruction byte. -/
def instrByte (s : Sym) : Byte := byteOf .instruction s

/-- The bytes of an instruction (R76, R81): `0x80 + OP(g)` for a one-byte command, both bytes for an extended one,
one byte a digit, one Literal byte a symbol. -/
def encode (c : Config) : Instr → List Byte
  | .num ds => ds.map fun d => instrByte (c.op (digitGlyph d))
  | .str q => [instrByte c.symSesc, instrByte q]
  | .inc => [instrByte (c.op '⁺')]
  | .dec => [instrByte (c.op '⁻')]
  | .addTwo => [instrByte (c.op 'I')]
  | .subTwo => [instrByte (c.op 'J')]
  | .add => [instrByte (c.op '+')]
  | .sub => [instrByte (c.op '-')]
  | .mul => [instrByte (c.op '*')]
  | .div => [instrByte (c.op '/')]
  | .dup => [instrByte (c.op ':')]
  | .swap => [instrByte (c.op '~')]
  | .drop => [instrByte (c.op '$')]
  | .armPush => [instrByte (c.op '"')]
  | .clearAcc => [instrByte (c.op '#')]
  | .armCompress => [instrByte (c.op 'd')]
  | .storeNot => [instrByte (c.op '¬')]
  | .storeEq => [instrByte (c.op '⁼')]
  | .storeN => [instrByte (c.op 'ⁿ')]
  | .explode => [instrByte (c.op '…')]
  | .upperAlpha => [instrByte (c.op 'A')]
  | .lowerAlpha => [instrByte (c.op 'a')]
  | .printable => [instrByte (c.op 'Z')]
  | .space => [instrByte (c.op 'S')]
  | .concat => [instrByte (c.op 'c')]
  | .revConcat => [instrByte (c.op 'b')]
  | .index => [instrByte (c.op '@')]
  | .head => [instrByte (c.op 'H')]
  | .tail => [instrByte (c.op 'T')]
  | .centre => [instrByte (c.op 'C')]
  | .titleCase => [instrByte (c.op 't')]
  | .capitalise => [instrByte (c.op 'i')]
  | .join => [instrByte (c.op 'j')]
  | .range => [instrByte (c.op 'r')]
  | .zeroRange => [instrByte (c.op 'R')]
  | .dump => [instrByte c.symExt, instrByte (c.op 'D')]
  | .apaTitle => [instrByte c.symExt, instrByte (c.op 't')]
  | .unimplCmd s => [instrByte s]
  | .unimplExt e => [instrByte c.symExt, instrByte e]
  | .bad p => [instrByte (c.pfxSym p)]
  | .literal syms => syms.map (byteOf .literal)
  | .instructionByte s => [instrByte s]

/-- `rest` may stand after instruction `i` without changing how `i` is read: a `NUM` run and a Literal section are
maximal (R76, R74), and a BAD token is the last of its section (R83). -/
def mayFollow (c : Config) (i : Instr) (rest : List Byte) : Bool :=
  match rest with
  | [] => true
  | b :: _ =>
    match i with
    | .num _ => !(kindOf b == .instruction && (c.digitOf (symOf b)).isSome)
    | .bad _ => kindOf b == .literal
    | .literal _ => kindOf b == .instruction
    | .str _ | .inc | .dec | .addTwo | .subTwo | .add | .sub | .mul | .div | .dup | .swap | .drop | .armPush
    | .clearAcc | .armCompress | .storeNot | .storeEq | .storeN | .explode | .upperAlpha | .lowerAlpha | .printable
    | .space | .concat | .revConcat | .index | .head | .tail | .centre | .titleCase | .capitalise | .join | .range
    | .zeroRange | .dump | .apaTitle | .unimplCmd _ | .unimplExt _ | .instructionByte _ => true

/-! ## Table words -/

/-- The bytes of a table row's word: spec/opcode_table.json numbers a two-byte row with its FIRST byte in bits 15:8
("Two bytes, first byte in bits 15:8"), so the first byte is the most significant of the word's `nbits / 8` bytes.
Assumption 8. -/
def tableBytes (nbits w : Nat) : List Byte :=
  (List.range (nbits / 8)).reverse.map fun i => BitVec.ofNat 8 (w / 256 ^ i)

/-- The instruction the decoder reads from a table word under `REFCFG`, which the table's bytes are written for. -/
def decodeTableWord (nbits w : Nat) : Option Instr :=
  match decode refcfg (tableBytes nbits w) with
  | .ok (i, _) => some i
  | .error _ => none

end Sys2Proof
end

