-- ==== Sys2Proof/Machine/Codec.lean ====
section
/-! DEFINITION. The compression engine as pure functions: `LM`, `BEST`, `PARSE`, `BUILD`, `ENCODE`, `PACK`
(spec/40_codec_encode.md R110 to R121), `UNPACK`, `DECODE` (spec/41_codec_decode.md R140 to R144), and the dictionary
trie that implements `LM` (spec/10_state.md R29, R111). -/

namespace Sys2Proof.Machine

/-! ## Longest match (R111, R112) -/

/-- The longest word so far against the words from index `i` on. -/
def longestFrom (t : Text) : Nat → List Text → Nat × Option Nat → Nat × Option Nat
  | _, [], best => best
  | i, w :: ws, best =>
    longestFrom t (i + 1) ws (if w.isPrefixOf t = true ∧ best.1 < w.length then (w.length, some i) else best)

/-- `LM(D, t)` (R111): the length of the longest word of `D` that is a prefix of `t`, and its index; `(0, none)` if
there is none. -/
def longestMatch (d : List Text) (t : Text) : Nat × Option Nat := longestFrom t 0 d (0, none)

/-- The best match at a suffix (R112). -/
structure Match where
  len : Nat
  idx : Nat
  sel : Dict
  sw : Bool
deriving DecidableEq, Repr

/-- One turn of `BEST`'s loop: the candidate replaces the best so far only when it is strictly longer. -/
def bestStep (c : Config) (t : Text) (best : Option Match) (sw : Bool) (sel : Dict) : Option Match :=
  match longestMatch (c.dict sel) (if sw then swapText t else t) with
  | (_, none) => best
  | (len, some idx) => if (best.elim 0 Match.len) < len then some ⟨len, idx, sel, sw⟩ else best

/-- `BEST(t)` (R112), in the fixed order original case before swapped case, short before long; `none` is length 0. -/
def bestMatch (c : Config) (t : Text) : Option Match :=
  bestStep c t (bestStep c t (bestStep c t (bestStep c t none false .short) false .long) true .short) true .long

/-! ## Parse (R113) -/

/-- `PARSE`'s loop on the rest of the text, at most `fuel` turns; `first` says that no part has been recorded. -/
def parseAux (c : Config) : Nat → Bool → Text → List Part
  | 0, _, _ => []
  | _ + 1, _, [] => []
  | fuel + 1, first, ch :: rest =>
    let sp := decide (ch = ' ')
    let body := if sp then rest else ch :: rest
    match bestMatch c body with
    | some m => .word m.idx m.sel m.sw first sp :: parseAux c fuel false (body.drop m.len)
    | none => .chr ch :: parseAux c fuel false rest

/-- `PARSE(s)` (R113): each turn takes at least one character, so `|s|` turns are enough. -/
def parse (c : Config) (s : Text) : List Part := parseAux c s.length true s

/-! ## Digits and the integer (R115 to R119) -/

/-- The character's code is in 32..126 (R115). -/
def encodable (ch : Char) : Bool := decide (32 ≤ ch.toNat) && decide (ch.toNat ≤ 126)

/-- The character that a `Chr` part is encoded as (R115): itself, or the space. -/
def substituted (ch : Char) : Char := if encodable ch then ch else ' '

/-- The payload digit of a `Chr` part (R116). -/
def chrDigit (ch : Char) : Nat := (substituted ch).toNat - 32 + 1

/-- The dictionary-select digit (R117). -/
def selDigit : Dict → Nat
  | .short => 0
  | .long => 1

/-- The flag trit of a `Word` part, `none` for a default one, which is mode 1 (R117, R118). -/
def wordFlag (sw first sp : Bool) : Option Nat :=
  let dev := sp != !first
  match sw, dev with
  | false, false => none
  | true, false => some 0
  | false, true => some 1
  | true, true => some 2

/-- One turn of `BUILD`'s loop (R119). -/
def pushPart (c : Config) (p : Part) (n : Nat) : Nat :=
  match p with
  | .chr ch => (n * 96 + chrDigit ch) * 3 + 0
  | .word idx sel sw first sp =>
    let n := (n * c.dictLen sel + idx) * 2 + selDigit sel
    match wordFlag sw first sp with
    | none => n * 3 + 1
    | some f => (n * 3 + f) * 3 + 2

/-- `BUILD(parts)` (R119): from the last part to the first. -/
def build (c : Config) (parts : List Part) : Nat := parts.foldr (pushPart c) 0

/-- `ENCODE(s)` (R110), its number. -/
def encodeText (c : Config) (s : Text) : Nat := build c (parse c s)

/-- The `UNENCODABLE` characters of a part list, in order (R115, R289). -/
def unencodables (parts : List Part) : List Char :=
  parts.filterMap fun p =>
    match p with
    | .chr ch => if encodable ch then none else some ch
    | .word _ _ _ _ _ => none

/-- The text a part stands for once encoded (R114, R115). -/
def partText (c : Config) (p : Part) : Text :=
  match p with
  | .chr ch => [substituted ch]
  | .word idx sel sw _ sp =>
    (if sp then [' '] else []) ++ (if sw then swapText (c.word sel idx) else c.word sel idx)

/-! ## Pack (R121) -/

/-- The binary digits of `n` put before `acc`, most significant first, no leading zero, at most `fuel` of them. -/
def binaryAux : Nat → Nat → List Bool → List Bool
  | 0, _, acc => acc
  | fuel + 1, n, acc => if n = 0 then acc else binaryAux fuel (n / 2) (decide (n % 2 = 1) :: acc)

/-- The binary digits of `n`; the single digit 0 if `n = 0` (R121). -/
def binaryDigits (n : Nat) : List Bool := if n = 0 then [false] else binaryAux n n []

/-- A digit string read as a number. -/
def bitsValue (bs : List Bool) : Nat := bs.foldl (fun v b => v * 2 + b.toNat) 0

/-- The groups of seven digits, as symbols. -/
def sevens : List Bool → List Sym
  | a :: b :: c :: d :: e :: f :: g :: rest => BitVec.ofNat 7 (bitsValue [a, b, c, d, e, f, g]) :: sevens rest
  | _ => []

/-- The chunks of `PACK(n)` (R121): padded with zero digits on the left to a multiple of seven. -/
def packChunks (n : Nat) : List Sym :=
  let bits := binaryDigits n
  sevens (List.replicate ((7 - bits.length % 7) % 7) false ++ bits)

/-- `PACK(n)` (R121): the Instruction byte of `d`, then the chunks as Literal bytes. -/
def pack (c : Config) (n : Nat) : List Byte := instrByte (c.op 'd') :: (packChunks n).map (byteOf .literal)

/-! ## Unpack and decode (R140 to R144) -/

/-- `UNPACK(syms)` (R144): base-128 digits, most significant first. -/
def unpack (syms : List Sym) : Nat := syms.foldl (fun n s => n * 128 + s.toNat) 0

/-- `DECODE`'s loop from accumulator `n` and output `out`, at most `fuel` turns (R141). -/
def decodeAux (c : Config) : Nat → Nat → Text → Text
  | 0, _, out => out
  | fuel + 1, n, out =>
    if n = 0 then out
    else
      let mode := n % 3
      let n := n / 3
      if mode = 0 then decodeAux c fuel (n / 96) (out ++ [Char.ofNat (n % 96 + 32 - 1)])
      else
        let flag := n % 3
        let sw := decide (mode = 2) && decide (flag ≠ 1)
        let pre := (!out.isEmpty) ^^ (decide (mode = 2) && decide (flag ≠ 0))
        let n := if mode = 2 then n / 3 else n
        let sel : Dict := if n % 2 = 0 then .short else .long
        let n := n / 2
        let w := c.word sel (n % c.dictLen sel)
        decodeAux c fuel (n / c.dictLen sel)
          (out ++ ((if pre then [' '] else []) ++ (if sw then swapText w else w)))

/-- `DECODE(n)` (R140, R141): each turn divides the accumulator by at least 3, so `n` turns are enough (R145). -/
def decodeNat (c : Config) (n : Nat) : Text := decodeAux c n n []

/-- The number of binary digits of a codec integer, what `MAX_NBITS` bounds (R6). -/
def bitLength (n : Nat) : Nat := if n = 0 then 0 else n.log2 + 1

/-! ## The dictionary trie (R29, R111) -/

/-- The trie of one word with index `i`. A word is never empty (R13(c)); the empty one gives the empty trie. -/
def trieChain (i : Nat) : Text → Trie
  | [] => .leaf
  | [ch] => .node ch (some i) .leaf .leaf
  | ch :: rest => .node ch none (trieChain i rest) .leaf

/-- A trie with a word of index `i` added. -/
def trieInsert (i : Nat) : Trie → Text → Trie
  | .leaf, w => trieChain i w
  | .node c' word child sibling, [] => .node c' word child sibling
  | .node c' word child sibling, ch :: rest =>
    if ch = c' then
      if rest.isEmpty then .node c' (some i) child sibling
      else .node c' word (trieInsert i child rest) sibling
    else .node c' word child (trieInsert i sibling (ch :: rest))

/-- The trie of the words from index `i` on, added to `t`. -/
def trieBuildFrom : Nat → List Text → Trie → Trie
  | _, [], t => t
  | i, w :: ws, t => trieBuildFrom (i + 1) ws (trieInsert i t w)

/-- The trie of a dictionary (R29). -/
def trieBuild (d : List Text) : Trie := trieBuildFrom 0 d .leaf

/-- Walking the trie along a text, `depth` characters down, and remembering the last node that ends a word (R111). -/
def trieWalk : Trie → Nat → Text → Nat × Option Nat → Nat × Option Nat
  | .leaf, _, _, best => best
  | .node _ _ _ _, _, [], best => best
  | .node c' word child sibling, depth, ch :: rest, best =>
    if ch = c' then trieWalk child (depth + 1) rest (if word.isSome then (depth + 1, word) else best)
    else trieWalk sibling depth (ch :: rest) best

/-- The longest match that the trie gives (R111). -/
def trieLookup (t : Trie) (text : Text) : Nat × Option Nat := trieWalk t 0 text (0, none)

end Sys2Proof.Machine
end

