-- ==== Sys2Proof/Machine/State.lean ====
section
/-! DEFINITION. The state of the core (spec/10_state.md R20), the stores a run reads and writes (spec/20_memory.md
R50), the diagnostic records (spec/60_exceptions.md R281), the outcomes that are no next state, and the state after
reset (spec/10_state.md R32). -/

namespace Sys2Proof.Machine

/-- The contents of `PROG`: its bytes by index, in Host.Cell form, addresses 0, 1, 2, … without a gap. An unlisted
address holds no byte: `PROG` ends there (R51). -/
abbrev Memory := List Host.Cell

/-- A diagnostic record (R281). -/
inductive Diag where
  /-- Code 1, `UNENCODABLE`: raised by `ENCODE`, with the character (R282). -/
  | unencodable (ch : Char)
  /-- Code 2, `UNKNOWN_COMMAND`: an unimplemented or dangling token, with its one or two symbols (R283). -/
  | unknownCommand (syms : List Sym)
  /-- Code 3, `DUMP`: a copy of the stack (bottom to top), the accumulator, the three registers, the two flags and
  the input cursor (R295). -/
  | dump (stk : List Value) (acc : Text) (rNot rEq rN : Value) (cmp pnl : Bool) (icur : Nat)
deriving DecidableEq, Repr

/-- The small code of a record's kind (R281). -/
def Diag.code : Diag → Nat
  | .unencodable _ => 1
  | .unknownCommand _ => 2
  | .dump _ _ _ _ _ _ _ _ => 3

/-- Everything the spec gives the machine. The first three fields are the parameters of a run (R31): the host loads
them and no step writes them. -/
structure State where
  /-- `CFG`, well formed (R6, R13). -/
  cfg : WfConfig
  /-- `PROG` (R51). -/
  prog : Memory
  /-- `INPUT`, the input lines (R52). -/
  input : List Text
  /-- `x[NOT]` (R21). -/
  rNot : Value
  /-- `x[EQ]` (R21). -/
  rEq : Value
  /-- `x[N]` (R21). -/
  rN : Value
  /-- `pc` (R22). -/
  pc : PC
  /-- `CMP`, the compression-mode flag (R23). -/
  cmp : Bool
  /-- `PNL`, the push-next-literal flag (R23). -/
  pnl : Bool
  /-- `ICUR`, the input-line cursor (R24). -/
  icur : Nat
  /-- `STK`, bottom first; the last element is the top (R25). -/
  stk : List Value
  /-- `ACC`, the output accumulator (R26). -/
  acc : Text
  /-- `LOG`, oldest record first (R30, R54). -/
  log : List Diag
  /-- `RESULT`: nothing until the run ends, then the Text it is written with (R55). -/
  result : Option Text
  /-- `TRIE_S`: hidden; `none` while not built (R29). -/
  trieS : Option Trie
  /-- `TRIE_L`: hidden; `none` while not built (R29). -/
  trieL : Option Trie
  /-- `N`, the codec's integer accumulator, dead between codec operations (R27). -/
  codecN : Nat
  /-- `PARTS`, the encoder's part list, dead between codec operations (R27). -/
  codecParts : List Part
  /-- `POS`, the encoder's scan position, dead between codec operations (R27). -/
  codecPos : Nat
deriving DecidableEq, Repr

/-- Why the machine stops. The spec has no trap, fault or abort (R280). -/
inductive Fault where
  /-- Raised by `step` alone, when the run is over and `RESULT` is written: the loop of `RUN` has ended (R160, R171)
  and there is no further step. Safe: the spec gives the core nothing to do then. -/
  | runEnded
deriving DecidableEq, Repr

/-- Why the model has no next state. -/
inductive Refusal where
  /-- Raised by an arm of `exec` whose instruction has no meaning yet. Safe. No arm raises it. -/
  | notModelled (mnemonic : String)
  /-- Raised by `step` and by the host operations when a finite `MAX_STACK`, `MAX_NBITS` or `MAX_TEXT` of the
  configuration would be exceeded (R6, R25, R294, U8). Safe. With the default, infinity, it cannot happen. -/
  | capacityExceeded
deriving DecidableEq, Repr

/-- The machine right after reset (R32, R310, R311), under the reference configuration (R15), with nothing loaded:
no program byte and no input line (R312). Assumptions 2, 3, 5, 6. -/
def State.reset : State where
  cfg := refWfConfig
  prog := []
  input := []
  rNot := .text []
  rEq := .text []
  rN := .text []
  pc := ⟨0, 0⟩
  cmp := false
  pnl := false
  icur := 0
  stk := []
  acc := []
  log := []
  result := none
  trieS := none
  trieL := none
  codecN := 0
  codecParts := []
  codecPos := 0

end Sys2Proof.Machine
end

