-- ==== Sys2Proof/Machine/Flags.lean ====
section
/-! DEFINITION. The two one-bit mode flags (spec/10_state.md R23). They are the machine's only flags: there is no
condition code, carry, zero, sign or overflow flag, and no arithmetic instruction writes a flag. -/

namespace Sys2Proof.Machine

/-- `CMP <- b` (R23): 1 by command `d` (R218), 0 by the Literal section that found it 1 (R163). -/
def State.setCmp (s : State) (b : Bool) : State := { s with cmp := b }

/-- `PNL <- b` (R23): 1 by command `"` (R216), 0 by the Literal section that found it 1 (R164). -/
def State.setPnl (s : State) (b : Bool) : State := { s with pnl := b }

end Sys2Proof.Machine
end

