-- ==== Sys2Proof/Machine/Binary64.lean ====
section
/-! DEFINITION. Binary64 arithmetic of the stack machine, computed exactly on integers and rounded once at the end
(spec/43_arith.md R192, R201; spec/00_scope.md R11). Every finite datum is an integer number of UNITS, one unit being
2^-1074, the smallest positive binary64; so a sum is an integer, a product an integer over 2^1074 units, a quotient a
ratio of integers, and nothing is lost before the rounding. -/

namespace Sys2Proof

/-- Units in the number 1. -/
def F64.one64 : Nat := 2 ^ 1074

/-- The magnitude of a finite datum in units: the significand (with the hidden bit unless `e = 0`) times 2^(e−1), or
times 1 for a subnormal. -/
def F64.magnitude (e : Fin 2047) (f : BitVec 52) : Nat :=
  if e.val = 0 then f.toNat else (2 ^ 52 + f.toNat) * 2 ^ (e.val - 1)

/-- A finite datum in units, signed; 0 for both zeros. `none` for the infinities and NaN. -/
def F64.units : F64 → Option Int
  | .nan => none
  | .inf _ => none
  | .fin neg e f => some (if neg then -(F64.magnitude e f : Int) else (F64.magnitude e f : Int))

/-- The quotient `a / b` rounded to the nearest natural number, ties to even. -/
def divHalfEven (a b : Nat) : Nat :=
  let q := a / b
  let r := a % b
  if 2 * r < b then q else if b < 2 * r then q + 1 else q + q % 2

/-- The datum of sign `neg` and magnitude `r * 2^k` units, for `r ≤ 2^53` and `k = 0` or `2^52 ≤ r`; an infinity if
that magnitude is 2^1024 or more (R192). -/
def F64.assemble (neg : Bool) (k r : Nat) : F64 :=
  let n := k * 2 ^ 52 + r
  if h : n / 2 ^ 52 < 2047 then .fin neg ⟨n / 2 ^ 52, h⟩ (BitVec.ofNat 52 n) else .inf neg

/-- The real number `a / b` units rounded to the nearest binary64, ties to even, with sign `neg`; the infinity of that
sign if it is too large (R192). -/
def F64.round (neg : Bool) (a b : Nat) : F64 :=
  let k := (a / b).log2 - 52
  F64.assemble neg k (divHalfEven a (b * 2 ^ k))

/-- The sign of a datum; NaN has none and answers `false`. -/
def F64.sign : F64 → Bool
  | .nan => false
  | .inf neg => neg
  | .fin neg _ _ => neg

/-- The zero of sign `neg`. -/
def F64.zero (neg : Bool) : F64 := .fin neg 0 0

/-- `−x`: the sign flipped, NaN kept. -/
def F64.neg : F64 → F64
  | .nan => .nan
  | .inf s => .inf !s
  | .fin s e f => .fin (!s) e f

/-- The datum nearest to the integer `k` (R78, R253). -/
def F64.ofNat (k : Nat) : F64 := F64.round false (k * F64.one64) 1

/-- The exact sum `z` units of two finite data of signs `s` and `t`, rounded; a zero sum is +0 unless both are
negative (R201). -/
def F64.ofSum (s t : Bool) (z : Int) : F64 :=
  if z = 0 then F64.zero (s && t) else F64.round (decide (z < 0)) z.natAbs 1

/-- `x + y` (R192, R201). -/
def F64.add (x y : F64) : F64 :=
  match x, y with
  | .nan, _ => .nan
  | _, .nan => .nan
  | .inf s, .inf t => if s = t then .inf s else .nan
  | .inf s, .fin _ _ _ => .inf s
  | .fin _ _ _, .inf t => .inf t
  | .fin s e f, .fin t e' f' =>
    F64.ofSum s t ((if s then -(F64.magnitude e f : Int) else F64.magnitude e f)
      + (if t then -(F64.magnitude e' f' : Int) else F64.magnitude e' f'))

/-- `x − y`, which is `x + (−y)` (R192, R201). -/
def F64.sub (x y : F64) : F64 := F64.add x y.neg

/-- `x × y` (R192, R201). -/
def F64.mul (x y : F64) : F64 :=
  match x, y with
  | .nan, _ => .nan
  | _, .nan => .nan
  | .inf s, .inf t => .inf (s ^^ t)
  | .inf s, .fin t e f => if F64.magnitude e f = 0 then .nan else .inf (s ^^ t)
  | .fin s e f, .inf t => if F64.magnitude e f = 0 then .nan else .inf (s ^^ t)
  | .fin s e f, .fin t e' f' =>
    F64.round (s ^^ t) (F64.magnitude e f * F64.magnitude e' f') F64.one64

/-- `x ÷ y` (R192, R201): real division, and division by zero is an infinity or NaN, never a trap. -/
def F64.div (x y : F64) : F64 :=
  match x, y with
  | .nan, _ => .nan
  | _, .nan => .nan
  | .inf _, .inf _ => .nan
  | .inf s, .fin t _ _ => .inf (s ^^ t)
  | .fin s _ _, .inf t => F64.zero (s ^^ t)
  | .fin s e f, .fin t e' f' =>
    if F64.magnitude e' f' = 0 then
      if F64.magnitude e f = 0 then .nan else .inf (s ^^ t)
    else F64.round (s ^^ t) (F64.magnitude e f * F64.one64) (F64.magnitude e' f')

/-- `floor(z units)` as an integer (R12). -/
def floorUnits (z : Int) : Int := z.fdiv (F64.one64 : Int)

/-- `ceil(z units)` as an integer (R12). -/
def ceilUnits (z : Int) : Int := -(floorUnits (-z))

/-- The exact sum of a finite datum and the integer `k`, or of it and `−k` when `down`, rounded (R252: "each element
`a ± k` is rounded to binary64"). The integer carries the sign of the operation into a zero result: assumption 11. -/
def F64.step (x : F64) (down : Bool) (k : Nat) : F64 :=
  match x with
  | .nan => .nan
  | .inf s => .inf s
  | .fin s e f =>
    F64.ofSum s down ((if s then -(F64.magnitude e f : Int) else F64.magnitude e f)
      + (if down then -((k * F64.one64 : Nat) : Int) else ((k * F64.one64 : Nat) : Int)))

end Sys2Proof
end

