-- ==== Sys2Proof/Machine/Operands.lean ====
section
/-! DEFINITION. Operands: the pop protocol (spec/42_sequencer.md R169, R170), the coercions `ToNum` and `ToText`
(spec/43_arith.md R190, R191), and the helpers by which a command reads its operands (spec/45_string_seq.md R240,
R241). -/

namespace Sys2Proof.Machine

/-! ## The operand stack and the pop protocol -/

/-- `push(v)` (R12): append to the top of `STK`. -/
def State.push (s : State) (v : Value) : State := { s with stk := s.stk ++ [v] }

/-- `pop()` (R169): the top of the stack; on an empty stack the next unread input line, which is consumed; with no
line left the whole accumulator, which is drained. -/
def State.pop (s : State) : Value × State :=
  match s.stk.getLast? with
  | some v => (v, { s with stk := s.stk.dropLast })
  | none =>
    match s.input[s.icur]? with
    | some line => (.text line, { s with icur := s.icur + 1 })
    | none => (.text s.acc, { s with acc := [] })

/-- `peek()` (R170): the same precedence, changing nothing. -/
def State.peek (s : State) : Value :=
  match s.stk.getLast? with
  | some v => v
  | none =>
    match s.input[s.icur]? with
    | some line => .text line
    | none => .text s.acc

/-! ## Numbers and their text -/

/-- The value of a digit run, most significant first (R78). -/
def digitsValue (ds : List Nat) : Nat := ds.foldl (fun v d => v * 10 + d) 0

/-- The immediate of a `NUM` token (R78, R210): the binary64 nearest to the decimal number. -/
def numLiteral (ds : List Digit) : F64 := F64.ofNat (digitsValue (ds.map Fin.val))

/-- An ASCII digit `0`..`9` (R190). -/
def isDigitChar (ch : Char) : Bool := decide (48 ≤ ch.toNat) && decide (ch.toNat ≤ 57)

/-- The value of a run of ASCII digits. -/
def textDigits (t : Text) : Nat := digitsValue (t.map fun ch => ch.toNat - 48)

/-- `D+ ( . D+ )?` of R190, with the sign already read: the nearest binary64, or NaN if the text does not match. -/
def parseMagnitude (neg : Bool) (t : Text) : F64 :=
  let whole := t.takeWhile isDigitChar
  if whole.isEmpty then .nan
  else
    match t.dropWhile isDigitChar with
    | [] => F64.round neg (textDigits whole * F64.one64) 1
    | ch :: frac =>
      if ch = '.' ∧ frac ≠ [] ∧ frac.all isDigitChar = true then
        F64.round neg (textDigits (whole ++ frac) * F64.one64) (10 ^ frac.length)
      else .nan

/-- `ToNum` of a Text (R190): `-? D+ ( . D+ )?`, else NaN. -/
def parseNum (t : Text) : F64 :=
  match t with
  | '-' :: rest => parseMagnitude true rest
  | _ => parseMagnitude false t

/-- `ToNum(v)` (R190). -/
def toNum : Value → F64
  | .num x => x
  | .text t => parseNum t
  | .seq _ => .nan

/-- The character of a digit 0 to 9. -/
def digitChar (d : Nat) : Char := Char.ofNat (48 + d)

/-- The decimal digits of `n` put before `acc`, at most `fuel` of them. -/
def decimalAux : Nat → Nat → Text → Text
  | 0, _, acc => acc
  | fuel + 1, n, acc =>
    if n < 10 then digitChar n :: acc else decimalAux fuel (n / 10) (digitChar (n % 10) :: acc)

/-- The decimal digits of `n`, no leading zero; `0` for 0 (R191). -/
def decimal (n : Nat) : Text := decimalAux (n + 1) n []

/-- `NumText(x)` (R191). -/
def numText (x : F64) : Text :=
  match x with
  | .nan => ['N', 'a', 'N']
  | .inf false => ['I', 'n', 'f', 'i', 'n', 'i', 't', 'y']
  | .inf true => ['-', 'I', 'n', 'f', 'i', 'n', 'i', 't', 'y']
  | .fin neg e f =>
    let m := F64.magnitude e f
    if m % F64.one64 = 0 ∧ m / F64.one64 ≤ 2 ^ 53 then
      (if neg = true ∧ m ≠ 0 then ['-'] else []) ++ decimal (m / F64.one64)
    else Config.numTextOther x

mutual
/-- `ToText(v)` (R191). -/
def toText : Value → Text
  | .num x => numText x
  | .text t => t
  | .seq vs => toTextAll vs

/-- `ToText` of a sequence (R191): its elements' texts one after the other, nothing between them. -/
def toTextAll : Values → Text
  | .nil => []
  | .cons v vs => toText v ++ toTextAll vs
end

/-! ## Counts, containers, words (R240, R241) -/

/-- The value is a `Num`. -/
def isNum : Value → Bool
  | .num _ => true
  | .text _ => false
  | .seq _ => false

/-- `PickNum(p1, p2)` (R240): a `Num` on top is the count and the other the container; otherwise the operand popped
second is coerced to the count. -/
def pickNum (p1 p2 : Value) : F64 × Value := if isNum p1 then (toNum p1, p2) else (toNum p2, p1)

/-- `AsList(v)` (R240). -/
def asList (v : Value) : List Value :=
  match v with
  | .seq vs => vs.toList
  | .num _ => (toText v).map fun ch => .text [ch]
  | .text t => t.map fun ch => .text [ch]

/-- `Rebuild(v, xs)` (R240). -/
def rebuild (v : Value) (xs : List Value) : Value :=
  match v with
  | .seq _ => Value.ofList xs
  | .num _ => .text (xs.flatMap toText)
  | .text _ => .text (xs.flatMap toText)

/-- `Count(n, L)` (R240). -/
def count (n : F64) (len : Nat) : Nat :=
  match n with
  | .nan => 0
  | .inf true => 0
  | .inf false => len
  | .fin neg e f =>
    let m : Int := F64.magnitude e f
    (max 0 (min (len : Int) (floorUnits (if neg then -m else m)))).toNat

/-- `Cap(w)` (R241). -/
def cap (w : Text) : Text :=
  match w with
  | [] => []
  | ch :: rest => upperChar ch :: lowerText rest

/-- `Words(s)` (R241): cut at every space, so `k` spaces give `k + 1` pieces. -/
def words : Text → List Text
  | [] => [[]]
  | ch :: rest =>
    match words rest with
    | [] => [[ch]]
    | w :: ws => if ch = ' ' then [] :: w :: ws else (ch :: w) :: ws

/-- `Unwords` (R241): pieces joined with one space. -/
def unwords (ws : List Text) : Text := List.intercalate [' '] ws

end Sys2Proof.Machine
end

