-- ==== Sys2Proof/Machine/Ops.lean ====
section
/-! DEFINITION. The named operations over the stores, the registers and the accumulator, the dispatch protocol, the
Literal section, the end-of-section action and the end of a run (spec/20_memory.md, spec/42_sequencer.md).

THE CORE TAKES NO EXCEPTION AND RETURNS FROM NONE: "No exception, trap, fault, abort or panic exists" (R280), "There is
none: nothing is saved, no mode changes, no vector table, base register or fixed handler address exists" (R290, R291).
What a failure does instead is `State.raise`: it appends one record to `LOG` and the machine goes on. -/

namespace Sys2Proof.Machine

/-! ## The program store (R50, R51, R312) -/

/-- The cells of a byte sequence from address `a` on. -/
def Memory.loadFrom : Nat → List Byte → Memory
  | _, [] => []
  | a, b :: bs => (a, b) :: Memory.loadFrom (a + 1) bs

/-- `PROG` loaded with a program by the host (R312). -/
def Memory.load (bytes : List Byte) : Memory := Memory.loadFrom 0 bytes

/-- The bytes of `PROG` in ascending index order (R51). -/
def Memory.bytes (m : Memory) : List Byte := m.map Prod.snd

/-- `MemRead(PROG, a, 1)` (R12, R51): the byte at index `a`, none past the end. -/
def Memory.read (m : Memory) (a : Nat) : Option Byte := (m.find? fun cell => cell.1 == a).map Prod.snd

/-- The canonical form: addresses 0, 1, 2, … in order, no gap. An unlisted address holds no byte, so no entry can be
equal to what an unlisted address reads as. -/
def Memory.wf (m : Memory) : Bool := decide (m.map Prod.fst = List.range m.length)

/-! ## Registers, accumulator, log -/

/-- `x[r]` (R12, R21). -/
def State.readReg (s : State) : Reg → Value
  | .not => s.rNot
  | .eq => s.rEq
  | .n => s.rN

/-- `x[r] <- v` (R12, R21): the Value is kept as it is (D39). -/
def State.writeReg (s : State) (r : Reg) (v : Value) : State :=
  match r with
  | .not => { s with rNot := v }
  | .eq => { s with rEq := v }
  | .n => { s with rN := v }

/-- `ACC := t` (R26). -/
def State.setAcc (s : State) (t : Text) : State := { s with acc := t }

/-- `raise Diag(kind, info)` (R12, R54, R280): one record more in `LOG`, and the machine goes on. -/
def State.raise (s : State) (d : Diag) : State := { s with log := s.log ++ [d] }

/-- The `DUMP` record of a state (R295). -/
def State.dumpRecord (s : State) : Diag := .dump s.stk s.acc s.rNot s.rEq s.rN s.cmp s.pnl s.icur

/-- The three registers' symbols, by glyph (R21, R73). -/
def regOf (g : Char) : Option Reg :=
  match g with
  | '¬' => some .not
  | '⁼' => some .eq
  | 'ⁿ' => some .n
  | _ => none

/-! ## Dispatch (R166, R167) -/

/-- The end of `DISPATCH`: push the result, unless it is the no-result sentinel (R166, R167). -/
def State.pushResult (s : State) : Option Value → State
  | some v => s.push v
  | none => s

/-- `DISPATCH` of a command of arity 0. -/
def dispatch0 (s : State) (cmd : State → State × Option Value) : State :=
  let r := cmd s
  r.1.pushResult r.2

/-- `DISPATCH` of a command of arity 1. -/
def dispatch1 (s : State) (cmd : Value → State → State × Option Value) : State :=
  let p1 := s.pop
  let r := cmd p1.1 p1.2
  r.1.pushResult r.2

/-- `DISPATCH` of a command of arity 2: `p1` is popped first (R166). -/
def dispatch2 (s : State) (cmd : Value → Value → State → State × Option Value) : State :=
  let p1 := s.pop
  let p2 := p1.2.pop
  let r := cmd p1.1 p2.1 p2.2
  r.1.pushResult r.2

/-- A command that computes a Value from one operand and touches no state. -/
def pure1 (f : Value → Value) (p1 : Value) (s : State) : State × Option Value := (s, some (f p1))

/-- A command that computes a Value from two operands and touches no state. -/
def pure2 (f : Value → Value → Value) (p1 p2 : Value) (s : State) : State × Option Value := (s, some (f p1 p2))

/-- A store command: the register takes the operand, which is also pushed back (R219 to R221). -/
def storeReg (r : Reg) (p1 : Value) (s : State) : State × Option Value := (s.writeReg r p1, some p1)

/-- An unimplemented token: one `UNKNOWN_COMMAND` record with its symbols, nothing else (R212, R283). -/
def unknown (s : State) (syms : List Sym) : State := s.raise (.unknownCommand syms)

/-! ## Literal sections (R162 to R164) -/

/-- What one symbol of a Literal section gives when `CMP` is 0 (R162): a register's text for a register symbol, its
`LitChar` for any other. -/
def State.litSymbol (s : State) (q : Sym) : Text :=
  match regOf (s.cfg.val.glyph q) with
  | some r => toText (s.readReg r)
  | none => [s.cfg.val.litChar q]

/-- The result of a Literal section (R162, R163). -/
def State.literalText (s : State) (syms : List Sym) : Text :=
  if s.cmp then decodeNat s.cfg.val (unpack syms) else syms.flatMap s.litSymbol

/-- The state after the result is computed: a section met with `CMP` 1 clears it, and leaves the codec accumulator at
0, where `DECODE`'s loop ends (R163, R141). -/
def State.afterLiteral (s : State) : State := if s.cmp then { s.setCmp false with codecN := 0 } else s

/-- Routing (R164): a pending push-next-literal is cleared and the result pushed; otherwise it is appended. -/
def State.routeLiteral (s : State) (t : Text) : State :=
  if s.pnl then (s.setPnl false).push (.text t) else s.setAcc (s.acc ++ t)

/-- `LITERAL(text)` (R162 to R164). -/
def State.runLiteral (s : State) (syms : List Sym) : State := s.afterLiteral.routeLiteral (s.literalText syms)

/-! ## The end of a section and of a run (R168, R34, R171) -/

/-- The section-boundary reset (R34): the stack and the input cursor, nothing else. -/
def State.boundaryReset (s : State) : State := { s with stk := [], icur := 0 }

/-- `END_OF_SECTION()` (R168). -/
def State.endOfSection (s : State) : State :=
  if s.pnl then s
  else
    match s.stk.getLast? with
    | some v => (s.setAcc (s.acc ++ toText v)).boundaryReset
    | none => s.boundaryReset

/-- `pc <- pc'` (R12, R22). -/
def State.setPc (s : State) (pc : PC) : State := { s with pc := pc }

/-- `pc <- (si, ti + 1)`: after a token (R22, R161). -/
def State.nextToken (s : State) : State := s.setPc ⟨s.pc.si, s.pc.ti + 1⟩

/-- `pc <- (si + 1, 0)`: after a Literal section or an end-of-section action (R22, R161). -/
def State.nextSection (s : State) : State := s.setPc ⟨s.pc.si + 1, 0⟩

/-- The end of a run: `RESULT` is written once, with `ACC` (R55, R160, R171); after that there is no step. -/
def State.endOfRun (s : State) : Host.Outcome State Fault Refusal :=
  match s.result with
  | none => .next { s with result := some s.acc }
  | some _ => .fault .runEnded

/-! ## Capacities (R6, R25, R294) -/

mutual
/-- No Text inside the Value has more than `m` characters. -/
def valueFits (m : Nat) : Value → Bool
  | .num _ => true
  | .text t => decide (t.length ≤ m)
  | .seq vs => valuesFit m vs

/-- No Text inside the elements has more than `m` characters. -/
def valuesFit (m : Nat) : Values → Bool
  | .nil => true
  | .cons v vs => valueFits m v && valuesFit m vs
end

/-- A Text is within `MAX_TEXT` (R6: "of any Text"). -/
def State.textFits (s : State) (t : Text) : Bool :=
  match s.cfg.val.maxText with
  | none => true
  | some m => decide (t.length ≤ m)

/-- The stack is within `MAX_STACK`, and every Text the machine holds is within `MAX_TEXT`: the input lines, `ACC`,
and every Text on the stack or in a register, inside sequences too. `RESULT` and the records of `LOG` hold copies of
these. When it is asked is assumption 9. -/
def State.withinCapacity (s : State) : Bool :=
  (match s.cfg.val.maxStack with
   | none => true
   | some m => decide (s.stk.length ≤ m)) &&
  (match s.cfg.val.maxText with
   | none => true
   | some m => s.input.all (fun line => decide (line.length ≤ m)) && decide (s.acc.length ≤ m) &&
      s.stk.all (valueFits m) && valueFits m s.rNot && valueFits m s.rEq && valueFits m s.rN)

/-- A codec integer is within `MAX_NBITS`. -/
def State.codecFits (s : State) (n : Nat) : Bool :=
  match s.cfg.val.maxNbits with
  | none => true
  | some m => decide (bitLength n ≤ m)

/-- The end of a step: `pc` advances by `adv`, and a run that would exceed a capacity is refused (R25, R294); what is
measured, and when, is the model's choice, assumption 9. -/
def retire (o : Host.Outcome State Fault Refusal) (adv : State → State) : Host.Outcome State Fault Refusal :=
  match o with
  | .next s => if (adv s).withinCapacity then .next (adv s) else .refused .capacityExceeded
  | .fault r => .fault r
  | .refused r => .refused r

end Sys2Proof.Machine
end

