-- ==== Sys2Proof/Machine/Arith.lean ====
section
/-! DEFINITION. The eight arithmetic commands (spec/43_arith.md R193 to R200). Each coerces its operands with `ToNum`,
computes in binary64 and pushes one `Num`; none writes a flag or raises a diagnostic. -/

namespace Sys2Proof.Machine

/-- A one-operand arithmetic command: the operand coerced, then `f`. -/
def arith1 (s : State) (f : F64 → F64) : Host.Outcome State Fault Refusal :=
  .next (dispatch1 s (pure1 fun p1 => .num (f (toNum p1))))

/-- A two-operand arithmetic command: both operands coerced, then `f` of the first popped and the second popped. -/
def arith2 (s : State) (f : F64 → F64 → F64) : Host.Outcome State Fault Refusal :=
  .next (dispatch2 s (pure2 fun p1 p2 => .num (f (toNum p1) (toNum p2))))

/-- `⁺` (R193). -/
def execInc (s : State) : Host.Outcome State Fault Refusal := arith1 s fun x => x.add (F64.ofNat 1)

/-- `⁻` (R194). -/
def execDec (s : State) : Host.Outcome State Fault Refusal := arith1 s fun x => x.sub (F64.ofNat 1)

/-- `I` (R195). -/
def execAddTwo (s : State) : Host.Outcome State Fault Refusal := arith1 s fun x => x.add (F64.ofNat 2)

/-- `J` (R196). -/
def execSubTwo (s : State) : Host.Outcome State Fault Refusal := arith1 s fun x => x.sub (F64.ofNat 2)

/-- `+` (R197). -/
def execAdd (s : State) : Host.Outcome State Fault Refusal := arith2 s F64.add

/-- `-` (R198): the value popped first minus the value popped second (D20). -/
def execSub (s : State) : Host.Outcome State Fault Refusal := arith2 s F64.sub

/-- `*` (R199). -/
def execMul (s : State) : Host.Outcome State Fault Refusal := arith2 s F64.mul

/-- `/` (R200): the value popped first divided by the value popped second (D20). -/
def execDiv (s : State) : Host.Outcome State Fault Refusal := arith2 s F64.div

end Sys2Proof.Machine
end

