-- ==== Sys2Proof/Machine/StackRegs.lean ====
section
/-! DEFINITION. The literal tokens, the unimplemented tokens, the stack, flag, accumulator and register commands, the
diagnostic dump and the constants (spec/44_stack_regs.md R210 to R227), and the Literal section as one instruction
(spec/42_sequencer.md R162 to R164). -/

namespace Sys2Proof.Machine

/-! ## Literal tokens (R210, R211) -/

/-- `NUM` (R210): push the binary64 nearest to the decimal number the digits write. -/
def execNum (ds : List Digit) (s : State) : Host.Outcome State Fault Refusal :=
  .next (dispatch0 s fun s => (s, some (.num (numLiteral ds))))

/-- `STR` (R211): push the symbol's glyph as a one-character Text, not normalised (R79). -/
def execStr (q : Sym) (s : State) : Host.Outcome State Fault Refusal :=
  .next (dispatch0 s fun s => (s, some (.text [s.cfg.val.glyph q])))

/-! ## Unimplemented tokens (R212) -/

/-- An unimplemented `CMD(s)` token (R212, R82). -/
def execUnimplCmd (q : Sym) (s : State) : Host.Outcome State Fault Refusal := .next (unknown s [q])

/-- An unimplemented `EXT(e)` token, which is both its symbols (R212, R82). -/
def execUnimplExt (e : Sym) (s : State) : Host.Outcome State Fault Refusal :=
  .next (unknown s [s.cfg.val.symExt, e])

/-- A `BAD` token: a dangling prefix (R83, R212). -/
def execBad (p : Pfx) (s : State) : Host.Outcome State Fault Refusal := .next (unknown s [s.cfg.val.pfxSym p])

/-! ## Stack commands (R213 to R215) -/

/-- `:` (R213): push `peek()`; nothing is popped, consumed or drained. -/
def execDup (s : State) : Host.Outcome State Fault Refusal := .next (dispatch0 s fun s => (s, some s.peek))

/-- `~` (R214): pushes `p1` then `p2` itself and returns the sentinel (D21). -/
def execSwap (s : State) : Host.Outcome State Fault Refusal :=
  .next (dispatch2 s fun p1 p2 s => ((s.push p1).push p2, none))

/-- `$` (R215): the popped value is discarded. -/
def execDrop (s : State) : Host.Outcome State Fault Refusal := .next (dispatch1 s fun _ s => (s, none))

/-! ## Flag and accumulator commands (R216 to R218, R222, R223) -/

/-- `"` (R216): `PNL <- 1`. -/
def execArmPush (s : State) : Host.Outcome State Fault Refusal := .next (dispatch0 s fun s => (s.setPnl true, none))

/-- `#` (R217): `ACC := ""`. -/
def execClearAcc (s : State) : Host.Outcome State Fault Refusal := .next (dispatch0 s fun s => (s.setAcc [], none))

/-- `d` (R218): `CMP <- 1`. -/
def execArmCompress (s : State) : Host.Outcome State Fault Refusal :=
  .next (dispatch0 s fun s => (s.setCmp true, none))

/-- `…` (R222): drain the accumulator and push each character, the first first. -/
def execExplode (s : State) : Host.Outcome State Fault Refusal :=
  .next (dispatch0 s fun s => (s.acc.foldl (fun s ch => s.push (.text [ch])) (s.setAcc []), none))

/-- `⌂D` (R223, R295): one `DUMP` record. -/
def execDump (s : State) : Host.Outcome State Fault Refusal :=
  .next (dispatch0 s fun s => (s.raise s.dumpRecord, none))

/-! ## Register commands (R219 to R221) -/

/-- `¬` (R219). -/
def execStoreNot (s : State) : Host.Outcome State Fault Refusal := .next (dispatch1 s (storeReg .not))

/-- `⁼` (R220). -/
def execStoreEq (s : State) : Host.Outcome State Fault Refusal := .next (dispatch1 s (storeReg .eq))

/-- `ⁿ` (R221). -/
def execStoreN (s : State) : Host.Outcome State Fault Refusal := .next (dispatch1 s (storeReg .n))

/-! ## Constants (R224 to R227) -/

/-- The characters with codes `lo`, `lo + 1`, …, `n` of them. -/
def charRun (lo n : Nat) : Text := (List.range n).map fun i => Char.ofNat (lo + i)

/-- `A` (R224): the 26 ASCII capital letters, one Text. -/
def execUpperAlpha (s : State) : Host.Outcome State Fault Refusal :=
  .next (dispatch0 s fun s => (s, some (.text (charRun 65 26))))

/-- `a` (R225): the 26 ASCII small letters, one Text. -/
def execLowerAlpha (s : State) : Host.Outcome State Fault Refusal :=
  .next (dispatch0 s fun s => (s, some (.text (charRun 97 26))))

/-- `Z` (R226): the 95 characters with codes 32 to 126, one Text. -/
def execPrintable (s : State) : Host.Outcome State Fault Refusal :=
  .next (dispatch0 s fun s => (s, some (.text (charRun 32 95))))

/-- `S` (R227): one space. -/
def execSpace (s : State) : Host.Outcome State Fault Refusal :=
  .next (dispatch0 s fun s => (s, some (.text [' '])))

/-! ## A Literal section (R84, R162 to R164) -/

/-- A whole Literal section. -/
def execLiteral (syms : List Sym) (s : State) : Host.Outcome State Fault Refusal := .next (s.runLiteral syms)

end Sys2Proof.Machine
end

