-- ==== Sys2Proof/Machine/TextSeq.lean ====
section
/-! DEFINITION. The twelve text and sequence commands (spec/45_string_seq.md R242 to R253). None writes a flag, a
register or `ACC` beyond its pops, and none raises a diagnostic. -/

namespace Sys2Proof.Machine

/-! ## Concatenation (R242, R243) -/

/-- `c` (R242): the text of the value popped first, then of the one popped second. -/
def execConcat (s : State) : Host.Outcome State Fault Refusal :=
  .next (dispatch2 s (pure2 fun p1 p2 => .text (toText p1 ++ toText p2)))

/-- `b` (R243): the other way round. -/
def execRevConcat (s : State) : Host.Outcome State Fault Refusal :=
  .next (dispatch2 s (pure2 fun p1 p2 => .text (toText p2 ++ toText p1)))

/-! ## Index and slices (R244 to R247) -/

/-- The natural number that a datum is, if it is finite, not negative and without a fraction (R244). -/
def asIndex (n : F64) : Option Nat :=
  match n with
  | .nan => none
  | .inf _ => none
  | .fin neg e f =>
    let m := F64.magnitude e f
    if m % F64.one64 = 0 ∧ (neg = false ∨ m = 0) then some (m / F64.one64) else none

/-- The result of `@` (R244). -/
def indexValue (p1 p2 : Value) : Value :=
  let nx := pickNum p1 p2
  match asIndex nx.1 with
  | some k => (asList nx.2).getD k (.text [])
  | none => .text []

/-- `@` (R244). -/
def execIndex (s : State) : Host.Outcome State Fault Refusal := .next (dispatch2 s (pure2 indexValue))

/-- The result of `H`, `T` or `C` (R245 to R247): `k` elements of the container from `start L k`. -/
def sliceValue (start : Nat → Nat → Nat) (p1 p2 : Value) : Value :=
  let nx := pickNum p1 p2
  let xs := asList nx.2
  let k := count nx.1 xs.length
  rebuild nx.2 ((xs.drop (start xs.length k)).take k)

/-- `H` (R245): the first `k`. -/
def execHead (s : State) : Host.Outcome State Fault Refusal :=
  .next (dispatch2 s (pure2 (sliceValue fun _ _ => 0)))

/-- `T` (R246): the last `k`. -/
def execTail (s : State) : Host.Outcome State Fault Refusal :=
  .next (dispatch2 s (pure2 (sliceValue fun len k => len - k)))

/-- `C` (R247): the `k` in the middle, the extra one of an odd remainder left on the right. -/
def execCentre (s : State) : Host.Outcome State Fault Refusal :=
  .next (dispatch2 s (pure2 (sliceValue fun len k => (len - k) / 2)))

/-! ## Case (R248 to R250) -/

/-- `t` (R248): every space-separated word capitalised. -/
def execTitleCase (s : State) : Host.Outcome State Fault Refusal :=
  .next (dispatch1 s (pure1 fun p1 => .text (unwords ((words (toText p1)).map cap))))

/-- One word of `⌂t` after the last non-empty word `prev` (R249). -/
def apaWord (prev : Option Text) (w : Text) : Text :=
  match prev with
  | none => cap w
  | some p =>
    if Config.apaMinor.contains (lowerText w) && !(p.getLast?.any Config.apaPunct.contains) then lowerText w else cap w

/-- The loop of `⌂t` (R249); the pseudocode's `seen` is `prev ≠ none`. -/
def apaWords : Option Text → List Text → List Text
  | _, [] => []
  | prev, w :: ws => if w.isEmpty then w :: apaWords prev ws else apaWord prev w :: apaWords (some w) ws

/-- `⌂t` (R249). -/
def execApaTitle (s : State) : Host.Outcome State Fault Refusal :=
  .next (dispatch1 s (pure1 fun p1 => .text (unwords (apaWords none (words (toText p1))))))

/-- `i` (R250): the whole text is one unit. -/
def execCapitalise (s : State) : Host.Outcome State Fault Refusal :=
  .next (dispatch1 s (pure1 fun p1 => .text (cap (toText p1))))

/-! ## Join and ranges (R251 to R253) -/

/-- The value is a `Seq`. -/
def isSeq : Value → Bool
  | .seq _ => true
  | .num _ => false
  | .text _ => false

/-- The result of `j` (R251). -/
def joinValue (p1 p2 : Value) : Value :=
  let sq := if isSeq p1 then p1 else p2
  let sep := if isSeq p1 then p2 else p1
  .text (List.intercalate (toText sep) ((asList sq).map toText))

/-- `j` (R251). -/
def execJoin (s : State) : Host.Outcome State Fault Refusal := .next (dispatch2 s (pure2 joinValue))

/-- The code is a Unicode scalar value, not in 0xD800..0xDFFF (R8, R252). -/
def isScalar (k : Nat) : Bool := !(decide (0xD800 ≤ k) && decide (k ≤ 0xDFFF))

/-- The codes from `a` to `b`, both included, upward or downward (R252). -/
def codeRange (a b : Nat) : List Nat :=
  if a ≤ b then (List.range (b - a + 1)).map (a + ·) else (List.range (a - b + 1)).map (a - ·)

/-- The character range of `r` (R252). -/
def charRange (a b : Char) : Value :=
  Value.ofList (((codeRange a.toNat b.toNat).filter isScalar).map fun k => .text [Char.ofNat k])

/-- The numeric range of `r` (R252). -/
def numRange (a b : F64) : Value :=
  match a.units, b.units with
  | some za, some zb =>
    if za ≤ zb then
      Value.ofList ((List.range ((floorUnits (zb - za)).toNat + 1)).map fun k => .num (a.step false k))
    else
      Value.ofList ((List.range ((floorUnits (za - zb)).toNat + 1)).map fun k => .num (a.step true k))
  | _, _ => Value.ofList []

/-- The result of `r` (R252): a character range when both operands are non-empty Texts, else a numeric range. -/
def rangeValue (p1 p2 : Value) : Value :=
  match p1, p2 with
  | .text (a :: _), .text (b :: _) => charRange a b
  | _, _ => numRange (toNum p1) (toNum p2)

/-- `r` (R252): from the value popped first to the value popped second. -/
def execRange (s : State) : Host.Outcome State Fault Refusal := .next (dispatch2 s (pure2 rangeValue))

/-- The result of `R` (R253): 0 up to `ceil(n) − 1`; empty for NaN, an infinity or `n ≤ 0`. -/
def zeroRangeValue (p1 : Value) : Value :=
  match (toNum p1).units with
  | some z => Value.ofList ((List.range (ceilUnits z).toNat).map fun k => .num (F64.ofNat k))
  | none => Value.ofList []

/-- `R` (R253). -/
def execZeroRange (s : State) : Host.Outcome State Fault Refusal := .next (dispatch1 s (pure1 zeroRangeValue))

end Sys2Proof.Machine
end

