-- ==== Sys2Proof/Machine/InstrByte.lean ====
section
/-! DEFINITION. An Instruction byte taken by itself (the table's row INSTRUCTION-BYTE; spec/30_encoding.md R70, R76,
R82): "Which symbol is which command is fixed by CP.glyph". Alone in its section, the byte is one token, a digit run
of one digit, a dangling prefix, a command or an unimplemented symbol, and its meaning is that token's. -/

namespace Sys2Proof.Machine

/-- The instruction that an Instruction byte alone in its section is (R76, R77). A token always exists, so the last
case is never reached. -/
def byteInstr (c : Config) (q : Sym) : Instr :=
  match Sys2Proof.nextToken c [q] with
  | some (t, _) => t.instr c
  | none => .unimplCmd q

/-- The meaning of the instruction a byte was found to be (R165). The last two cases are not tokens of a single
Instruction byte: a Literal section is given its own meaning, and a byte is never found to be a byte again. -/
def execSelected (i : Instr) (s : State) : Host.Outcome State Fault Refusal :=
  match i with
  | .num ds => execNum ds s
  | .str q => execStr q s
  | .inc => execInc s
  | .dec => execDec s
  | .addTwo => execAddTwo s
  | .subTwo => execSubTwo s
  | .add => execAdd s
  | .sub => execSub s
  | .mul => execMul s
  | .div => execDiv s
  | .dup => execDup s
  | .swap => execSwap s
  | .drop => execDrop s
  | .armPush => execArmPush s
  | .clearAcc => execClearAcc s
  | .armCompress => execArmCompress s
  | .storeNot => execStoreNot s
  | .storeEq => execStoreEq s
  | .storeN => execStoreN s
  | .explode => execExplode s
  | .upperAlpha => execUpperAlpha s
  | .lowerAlpha => execLowerAlpha s
  | .printable => execPrintable s
  | .space => execSpace s
  | .concat => execConcat s
  | .revConcat => execRevConcat s
  | .index => execIndex s
  | .head => execHead s
  | .tail => execTail s
  | .centre => execCentre s
  | .titleCase => execTitleCase s
  | .capitalise => execCapitalise s
  | .join => execJoin s
  | .range => execRange s
  | .zeroRange => execZeroRange s
  | .dump => execDump s
  | .apaTitle => execApaTitle s
  | .unimplCmd q => execUnimplCmd q s
  | .unimplExt e => execUnimplExt e s
  | .bad p => execBad p s
  | .literal syms => execLiteral syms s
  | .instructionByte q => execUnimplCmd q s

/-- INSTRUCTION-BYTE (R70, R76, R165). -/
def execInstructionByte (q : Sym) (s : State) : Host.Outcome State Fault Refusal :=
  execSelected (byteInstr s.cfg.val q) s

end Sys2Proof.Machine
end

