-- ==== Sys2Proof/Machine/Dispatch.lean ====
section
/-! DEFINITION. The dispatch: one arm per constructor of Instr, each one direct call of its meaning (spec/42_sequencer.md
R165, R166). -/

namespace Sys2Proof.Machine

def exec (i : Instr) (s : State) : Host.Outcome State Fault Refusal :=
  match i with
  | .num ds => Sys2Proof.Machine.execNum ds s
  | .str q => Sys2Proof.Machine.execStr q s
  | .inc => Sys2Proof.Machine.execInc s
  | .dec => Sys2Proof.Machine.execDec s
  | .addTwo => Sys2Proof.Machine.execAddTwo s
  | .subTwo => Sys2Proof.Machine.execSubTwo s
  | .add => Sys2Proof.Machine.execAdd s
  | .sub => Sys2Proof.Machine.execSub s
  | .mul => Sys2Proof.Machine.execMul s
  | .div => Sys2Proof.Machine.execDiv s
  | .dup => Sys2Proof.Machine.execDup s
  | .swap => Sys2Proof.Machine.execSwap s
  | .drop => Sys2Proof.Machine.execDrop s
  | .armPush => Sys2Proof.Machine.execArmPush s
  | .clearAcc => Sys2Proof.Machine.execClearAcc s
  | .armCompress => Sys2Proof.Machine.execArmCompress s
  | .storeNot => Sys2Proof.Machine.execStoreNot s
  | .storeEq => Sys2Proof.Machine.execStoreEq s
  | .storeN => Sys2Proof.Machine.execStoreN s
  | .explode => Sys2Proof.Machine.execExplode s
  | .upperAlpha => Sys2Proof.Machine.execUpperAlpha s
  | .lowerAlpha => Sys2Proof.Machine.execLowerAlpha s
  | .printable => Sys2Proof.Machine.execPrintable s
  | .space => Sys2Proof.Machine.execSpace s
  | .concat => Sys2Proof.Machine.execConcat s
  | .revConcat => Sys2Proof.Machine.execRevConcat s
  | .index => Sys2Proof.Machine.execIndex s
  | .head => Sys2Proof.Machine.execHead s
  | .tail => Sys2Proof.Machine.execTail s
  | .centre => Sys2Proof.Machine.execCentre s
  | .titleCase => Sys2Proof.Machine.execTitleCase s
  | .capitalise => Sys2Proof.Machine.execCapitalise s
  | .join => Sys2Proof.Machine.execJoin s
  | .range => Sys2Proof.Machine.execRange s
  | .zeroRange => Sys2Proof.Machine.execZeroRange s
  | .dump => Sys2Proof.Machine.execDump s
  | .apaTitle => Sys2Proof.Machine.execApaTitle s
  | .unimplCmd q => Sys2Proof.Machine.execUnimplCmd q s
  | .unimplExt e => Sys2Proof.Machine.execUnimplExt e s
  | .bad p => Sys2Proof.Machine.execBad p s
  | .literal syms => Sys2Proof.Machine.execLiteral syms s
  | .instructionByte q => Sys2Proof.Machine.execInstructionByte q s

end Sys2Proof.Machine
end

