-- ==== Sys2Proof/Machine/Fetch.lean ====
section
/-! DEFINITION. What the next step is (spec/42_sequencer.md R161, R171; spec/10_state.md R22, R31): the sections and
token lists are pure functions of `PROG` and `CFG`, and `pc` selects among them. -/

namespace Sys2Proof.Machine

/-- `SECS = SPLIT(PROG)` (R31, R160). -/
def State.sections (s : State) : List Section := split s.prog.bytes

/-- What `pc` selects (R161). -/
inductive Fetched where
  /-- The token at `pc` of an Instruction section. -/
  | token (i : Instr)
  /-- The Literal section at `pc`. -/
  | literal (syms : List Sym)
  /-- Every token of the Instruction section at `pc` is done: its end-of-section action. -/
  | boundary
  /-- `pc.si = |SECS|`: the run is over. -/
  | ended
deriving DecidableEq, Repr

/-- The selection of `STEP` (R161). -/
def State.fetch (s : State) : Fetched :=
  match s.sections[s.pc.si]? with
  | none => .ended
  | some sec =>
    match sec.kind with
    | .literal => .literal sec.text
    | .instruction =>
      match (sectionInstrs s.cfg.val sec.text)[s.pc.ti]? with
      | some i => .token i
      | none => .boundary

/-- The bytes of an instruction's symbols as they stand in `PROG`. -/
def instrLength (c : Config) (i : Instr) : Nat := (encode c i).length

/-- The byte offset in `PROG` that `pc` maps to (R22): "the sum of the lengths of the earlier sections plus the byte
lengths of the earlier tokens". -/
def State.pcOffset (s : State) : Nat :=
  ((s.sections.take s.pc.si).map fun sec => sec.text.length).sum +
  match s.sections[s.pc.si]? with
  | some ⟨.instruction, text⟩ => (((sectionInstrs s.cfg.val text).take s.pc.ti).map (instrLength s.cfg.val)).sum
  | some ⟨.literal, _⟩ => 0
  | none => 0

/-- The bytes of `PROG` from `pc` on. -/
def State.bytesAtPc (s : State) : List Byte := s.prog.bytes.drop s.pcOffset

end Sys2Proof.Machine
end

