-- ==== Sys2Proof/Machine/Step.lean ====
section
/-! DEFINITION. One step of the machine (spec/42_sequencer.md R161; spec/00_scope.md R5): one token, one whole Literal
section, one end-of-section action, or the end of the run. -/

namespace Sys2Proof.Machine

/-- `STEP()` (R161), and after the last section the end of the run (R160, R171). -/
def step (s : State) : Host.Outcome State Fault Refusal :=
  match s.fetch with
  | .token i => retire (exec i s) State.nextToken
  | .literal syms =>
    if s.cmp = true ∧ s.codecFits (unpack syms) = false then .refused .capacityExceeded
    else retire (exec (.literal syms) s) State.nextSection
  | .boundary => retire (.next s.endOfSection) State.nextSection
  | .ended => retire s.endOfRun id

/-- The program store holding exactly the bytes of a table word, and `pc` at its first instruction: section 0, token 0,
or, for a Literal byte, section 1, since section 0 is then the empty Instruction section (R75(c)). Assumption 8. -/
def State.withFetchWord (s : State) (nbits w : Nat) : State :=
  { s with
    prog := Memory.load (tableBytes nbits w)
    pc := ⟨match tableBytes nbits w with
      | [] => 0
      | b :: _ => if kindOf b = .literal then 1 else 0, 0⟩ }

end Sys2Proof.Machine
end

