-- ==== Sys2Proof/Machine/Transcoder.lean ====
section
/-! DEFINITION. The transcoder: literate text to bytes and back (spec/30_encoding.md R86 to R91). It runs in software
beside the core; `COMPRESS` goes through it (spec/40_codec_encode.md R122). -/

namespace Sys2Proof.Machine

/-- `TOLITERATE`'s loop with the running kind `k` (R87). The separator symbol is escaped in both kinds (conflict C6). -/
def toLiterateAux (c : Config) (k : Kind) : List Byte → Text
  | [] => []
  | b :: bs =>
    (if kindOf b = k then [] else [c.glyph c.symSep]) ++
    (if symOf b = c.symSep then [c.glyph c.symLesc] else []) ++
    c.glyph (symOf b) :: toLiterateAux c (kindOf b) bs

/-- `TOLITERATE(bytes)` (R87). -/
def toLiterate (c : Config) (bytes : List Byte) : Text := toLiterateAux c .instruction bytes

/-- `SI(ch)` (R88): the symbol index, or `CP_FALLBACK` for a character outside the code page (R286). -/
def Config.textSymbol (c : Config) (ch : Char) : Sym := (c.symbolIndex ch).getD c.fallback

/-- The running state of `TOBYTES`: the kind, and whether the loop is inside a quoted span. -/
structure ReadState where
  kind : Kind
  inQuote : Bool
deriving DecidableEq, Repr

/-- The other kind. -/
def flipKind : Kind → Kind
  | .instruction => .literal
  | .literal => .instruction

/-- One turn of `TOBYTES`' loop that takes one character: its last four cases, in their order (R88). -/
def readChar (c : Config) (r : ReadState) (ch : Char) : List Byte × ReadState :=
  if r.inQuote = true ∧ ch = c.glyph c.symQuote then ([], ⟨.instruction, false⟩)
  else if ch = c.glyph c.symSep ∧ r.inQuote = false then ([], ⟨flipKind r.kind, r.inQuote⟩)
  else if ch = c.glyph c.symQuote ∧ r.kind = .instruction then
    ([byteOf .instruction c.symQuote], ⟨.literal, true⟩)
  else ([byteOf r.kind (Config.textSymbol c ch)], r)

/-- `TOBYTES`' loop (R88): its first two cases take two characters. -/
def toBytesAux (c : Config) : ReadState → Text → List Byte
  | _, [] => []
  | r, [ch] => (readChar c r ch).1
  | r, ch :: nx :: rest =>
    if ch = c.glyph c.symLesc ∧ nx = c.glyph c.symSep then byteOf r.kind c.symSep :: toBytesAux c r rest
    else if r.inQuote = true ∧ ch = c.glyph c.symLesc ∧ nx = c.glyph c.symQuote then
      byteOf .literal c.symQuote :: toBytesAux c r rest
    else (readChar c r ch).1 ++ toBytesAux c (readChar c r ch).2 (nx :: rest)

/-- `TOBYTES(text)` (R88). -/
def toBytes (c : Config) (t : Text) : List Byte := toBytesAux c ⟨.instruction, false⟩ t

/-- The conditions of R91 under which the transcoder's round trip holds: (a) no Instruction byte carries the quote
symbol; (b) no byte that carries the literate escape is followed by a byte of the other kind. -/
def roundTrips (c : Config) : List Byte → Bool
  | [] => true
  | b :: bs =>
    !(kindOf b == .instruction && symOf b == c.symQuote) &&
    (match bs with
     | [] => true
     | b' :: _ => !(symOf b == c.symLesc && !(kindOf b == kindOf b'))) &&
    roundTrips c bs

end Sys2Proof.Machine
end

