-- ==== Sys2Proof/Machine/HostOps.lean ====
section
/-! DEFINITION. The operations the core offers to its host (spec/00_scope.md R14; spec/20_memory.md R52, R55;
spec/70_reset_and_hazards.md R310, R312). Each is atomic with respect to the host (R5) and none is a step of a run.
Under a finite capacity an operation is refused when a Text or a codec integer that it takes or answers exceeds one
(R6, R294, U8; assumption 9). -/

namespace Sys2Proof.Machine

/-! ## Loading a run (R52, R160, R310, R312) -/

/-- A text cut at every line feed: `k` line feeds give `k + 1` pieces. -/
def cutLines : Text → List Text
  | [] => [[]]
  | ch :: rest =>
    match cutLines rest with
    | [] => [[ch]]
    | l :: ls => if ch = '\n' then [] :: l :: ls else (ch :: l) :: ls

/-- How the host cuts the input blob into lines (R52): the empty blob gives no line. -/
def cutInput (blob : Text) : List Text := if blob.isEmpty then [] else cutLines blob

/-- The creation of a run (R310, R32): every field at its reset value, the program and the input loaded (R312). The
configuration stays, and so does the trie cache, the one thing that outlives a run (R33). -/
def State.startRun (s : State) (bytes : List Byte) (input : List Text) : State :=
  { State.reset with cfg := s.cfg, trieS := s.trieS, trieL := s.trieL, prog := Memory.load bytes, input := input }

/-- The number of steps of a run: one for each Literal section, one for each token and one for each end-of-section
action of an Instruction section, and one for the end of the run (R160, R161). -/
def runLength (c : Config) (bytes : List Byte) : Nat :=
  ((split bytes).map fun sec =>
    match sec.kind with
    | .literal => 1
    | .instruction => (sectionInstrs c sec.text).length + 1).sum + 1

/-- `RUN(PROG, INPUT)` (R160): the state at the end of the run, `RESULT` written. An input line over `MAX_TEXT` is
refused by the first step (R294, U8), which there always is. -/
def hostRun (bytes : List Byte) (input : List Text) (s : State) : Host.Outcome State Fault Refusal :=
  Sys2Proof.core.run (runLength s.cfg.val bytes) (s.startRun bytes input)

/-! ## The compression engine (R110, R121, R140, R144) -/

/-- The tries built if they are not (R29, R65); when that happens cannot be observed (U13). -/
def State.buildTries (s : State) : State :=
  { s with
    trieS := some (s.trieS.getD (trieBuild s.cfg.val.dictS))
    trieL := some (s.trieL.getD (trieBuild s.cfg.val.dictL)) }

/-- `ENCODE(s)` (R110): the number; the working state as the operation leaves it (R27); one `UNENCODABLE` record per
substituted character, in order (R115, R289). Refused when its Text or its number exceeds a capacity (R294, U8). -/
def hostEncode (t : Text) (s : State) : Host.Outcome (Nat × State) Fault Refusal :=
  let c := s.cfg.val
  let n := encodeText c t
  if s.textFits t && s.codecFits n then
    .next (n, { s.buildTries with
      codecN := n
      codecParts := parse c t
      codecPos := t.length
      log := s.log ++ (unencodables (parse c t)).map Diag.unencodable })
  else .refused .capacityExceeded

/-- `DECODE(n)` (R140): the Text; the accumulator ends at 0 (R141). -/
def hostDecode (n : Nat) (s : State) : Host.Outcome (Text × State) Fault Refusal :=
  if s.codecFits n && s.textFits (decodeNat s.cfg.val n) then
    .next (decodeNat s.cfg.val n, { s with codecN := 0 })
  else .refused .capacityExceeded

/-- `UNPACK(syms)` (R144). -/
def hostUnpack (syms : List Sym) (s : State) : Host.Outcome (Nat × State) Fault Refusal :=
  if s.codecFits (unpack syms) then .next (unpack syms, { s with codecN := unpack syms })
  else .refused .capacityExceeded

/-- `PACK(n)` (R121): its operand is a codec integer. -/
def hostPack (n : Nat) (s : State) : Host.Outcome (List Byte × State) Fault Refusal :=
  if s.codecFits n then .next (pack s.cfg.val n, s) else .refused .capacityExceeded

/-- `COMPRESS(s) = TOLITERATE(PACK(ENCODE(s)))` (R122). -/
def compress (c : Config) (t : Text) : Text := toLiterate c (pack c (encodeText c t))

/-- `COMPRESS(s)` (R122): the literate text; the state as its `ENCODE` leaves it. -/
def hostCompress (t : Text) (s : State) : Host.Outcome (Text × State) Fault Refusal :=
  match hostEncode t s with
  | .next (_, u) =>
    if s.textFits (compress s.cfg.val t) then .next (compress s.cfg.val t, u) else .refused .capacityExceeded
  | .fault r => .fault r
  | .refused r => .refused r

/-! ## The transcoder (R87, R88) -/

/-- `TOBYTES(text)` (R88). -/
def hostToBytes (t : Text) (s : State) : Host.Outcome (List Byte × State) Fault Refusal :=
  if s.textFits t then .next (toBytes s.cfg.val t, s) else .refused .capacityExceeded

/-- `TOLITERATE(bytes)` (R87). -/
def hostToLiterate (bytes : List Byte) (s : State) : Host.Outcome (Text × State) Fault Refusal :=
  if s.textFits (toLiterate s.cfg.val bytes) then .next (toLiterate s.cfg.val bytes, s)
  else .refused .capacityExceeded

/-! ## The operations as one table (R14) -/

/-- A host operation with its arguments (R14). -/
inductive HostOp where
  | run (bytes : List Byte) (input : List Text)
  | split (bytes : List Byte)
  | encode (t : Text)
  | pack (n : Nat)
  | unpack (syms : List Sym)
  | decode (n : Nat)
  | compress (t : Text)
  | toBytes (t : Text)
  | toLiterate (bytes : List Byte)
deriving DecidableEq, Repr

/-- What a host operation answers. -/
inductive HostResult where
  | text (t : Text)
  | number (n : Nat)
  | bytes (bs : List Byte)
  | sections (secs : List Section)
deriving DecidableEq, Repr

/-- The answer of an operation with its result wrapped. -/
def wrap {α : Type} (f : α → HostResult) (o : Host.Outcome (α × State) Fault Refusal) :
    Host.Outcome (HostResult × State) Fault Refusal :=
  match o with
  | .next (a, s) => .next (f a, s)
  | .fault r => .fault r
  | .refused r => .refused r

/-- One host operation on the state (R14). `RUN` answers `RESULT`, and the final state is there for diagnostics (R55). -/
def hostOp (op : HostOp) (s : State) : Host.Outcome (HostResult × State) Fault Refusal :=
  match op with
  | .run bytes input =>
    match hostRun bytes input s with
    | .next t => .next (.text (t.result.getD []), t)
    | .fault r => .fault r
    | .refused r => .refused r
  | .split bytes => .next (.sections (split bytes), s)
  | .encode t => wrap .number (hostEncode t s)
  | .pack n => wrap .bytes (hostPack n s)
  | .unpack syms => wrap .number (hostUnpack syms s)
  | .decode n => wrap .text (hostDecode n s)
  | .compress t => wrap .text (hostCompress t s)
  | .toBytes t => wrap .bytes (hostToBytes t s)
  | .toLiterate bytes => wrap .text (hostToLiterate bytes s)

end Sys2Proof.Machine
end

