-- ==== Sys2Proof/Safety.lean ====
section
/-! DEFINITION. The terms that claims about runs use: what counts as a good state and a safe step, the pop protocol as a
relation, and the instruction that an Instruction byte stands for. -/

namespace Sys2Proof.Machine

/-- Every capacity is the default, infinity (R6, D13). -/
def State.unlimited (s : State) : Bool :=
  s.cfg.val.maxStack.isNone && s.cfg.val.maxNbits.isNone && s.cfg.val.maxText.isNone

/-- The pop protocol of R169, said without `State.pop`: popping `s` gives the value `v` and leaves the state `t`. The
top of the stack; or, with the stack empty, the unread line at `ICUR`, consumed; or, with none left, the accumulator,
drained. -/
def PopsTo (s : State) (v : Value) (t : State) : Prop :=
  (∃ xs, s.stk = xs ++ [v] ∧ t = { s with stk := xs }) ∨
  (s.stk = [] ∧ ∃ line, s.input[s.icur]? = some line ∧ v = .text line ∧ t = { s with icur := s.icur + 1 }) ∨
  (s.stk = [] ∧ s.input.length ≤ s.icur ∧ v = .text s.acc ∧ t = { s with acc := [] })

/-- The row that an instruction is under a configuration: an Instruction byte is the row its symbol selects (R70). -/
def selected (c : Config) (i : Instr) : Instr :=
  match i with
  | .instructionByte q => byteInstr c q
  | other => other

/-- Where `pc` goes after an instruction (R22, R161): past a Literal section, or past a token. -/
def pcAfter (i : Instr) (pc : PC) : PC :=
  match i with
  | .literal _ => ⟨pc.si + 1, 0⟩
  | _ => ⟨pc.si, pc.ti + 1⟩

/-- `pc` is where a run can bring it (R22): inside the sections with the token index in range, 0 in a Literal section,
or just past the last section with token index 0. -/
def State.pcWf (s : State) : Bool :=
  match s.sections[s.pc.si]? with
  | none => decide (s.pc.si = s.sections.length) && decide (s.pc.ti = 0)
  | some sec =>
    match sec.kind with
    | .literal => decide (s.pc.ti = 0)
    | .instruction => decide (s.pc.ti ≤ (sectionInstrs s.cfg.val sec.text).length)

/-- What holds of every state of a run. -/
structure State.Inv (s : State) : Prop where
  /-- `PROG` is in canonical form. -/
  progWf : s.prog.wf = true
  /-- `0 ≤ ICUR ≤ |INPUT|` (R24). -/
  icurLe : s.icur ≤ s.input.length
  /-- `pc` is in range (R22). -/
  pcWf : s.pcWf = true
  /-- Both flags are clear at the start of an Instruction section: a Literal section consumes them (R23, R323). -/
  startClear : ∀ sec, s.sections[s.pc.si]? = some sec → sec.kind = .instruction → s.pc.ti = 0 →
    s.cmp = false ∧ s.pnl = false
  /-- At a Literal section with `PNL` 0 the stack is empty and the input is rewound (R34, R172). -/
  literalEpoch : ∀ sec, s.sections[s.pc.si]? = some sec → sec.kind = .literal → s.pnl = false →
    s.stk = [] ∧ s.icur = 0
  /-- `RESULT` is written only at the end, with `ACC` (R55, R171). -/
  resultAtEnd : ∀ r, s.result = some r → s.fetch = .ended ∧ r = s.acc

/-- A step is safe: it gives a next state, or the run is over with `RESULT` written (R280: no trap, fault, abort). -/
def State.SafeStep (s : State) : Prop :=
  (∃ t, step s = .next t) ∨ (step s = .fault .runEnded ∧ s.fetch = .ended ∧ s.result.isSome = true)

end Sys2Proof.Machine
end

