-- ==== Sys2Proof/Certificates/Slice0/Obligations.lean ====
section
/-! DEFINITION. The statements for the provers. Each is a `def Obligations.<Name> : Prop`; OBLIGATIONS.json gives its
title, its tier and the rules it rests on. An equation `exec i s = .next { t with … }` is at once the instruction's
result, its completion and its frame: every field of `State` that it does not name is that of `t`, and `t` is what the
pop protocol leaves (`PopsTo`, R169), which changes the stack, the cursor or the accumulator and nothing else. -/

open Sys2Proof Sys2Proof.Machine

/-! ## Encoding -/

/-- Words written out from the encodings of R76, R80, R81 under `REFCFG` decode to their rows (sanity). The bytes are
REFCFG's, the spec's own example configuration (D3, assumption 3), in the table's byte order (assumption 8). -/
def Obligations.TableWordsDecode : Prop :=
  decodeTableWord 8 0xAB = some .add ∧ decodeTableWord 8 0xAD = some .sub ∧ decodeTableWord 8 0xB7 = some (.num [7]) ∧
  decodeTableWord 16 0xA7F8 = some (.str 120) ∧ decodeTableWord 16 0x87C4 = some .dump ∧
  decodeTableWord 16 0x87F4 = some .apaTitle ∧ decodeTableWord 8 0xA0 = some (.unimplCmd 32) ∧
  decodeTableWord 16 0x87B5 = some (.unimplExt 53) ∧ decodeTableWord 8 0xA7 = some (.bad .sesc) ∧
  decodeTableWord 8 0x87 = some (.bad .ext) ∧ decodeTableWord 8 0x41 = some (.literal [65]) ∧
  decodeTableWord 8 0x84 = some .storeEq ∧ decodeTableWord 8 0xF2 = some .range

/-- Under every well-formed configuration `symbolIndex` is the inverse of `indexToSymbol` (R71), so a symbol is
`OP(g)` exactly when its glyph is `g`; `LitChar` is `normalizeOutput` of the glyph, and `normalizeOutput` is
idempotent (R72, R89). Well-formedness takes R13(b) in D5's form (assumption 4). -/
def Obligations.CodePageContract : Prop :=
  ∀ c : WfConfig, (∀ q : Sym, c.val.symbolIndex (c.val.glyph q) = some q) ∧
    (∀ g ∈ Config.commandGlyphs ++ Config.digitGlyphs, ∀ q : Sym, q = c.val.op g ↔ c.val.glyph q = g) ∧
    (∀ q : Sym, [c.val.litChar q] = c.val.normalizeOutput [c.val.glyph q]) ∧
    ∀ t : Text, c.val.normalizeOutput (c.val.normalizeOutput t) = c.val.normalizeOutput t

/-- Decode and encode agree: under every well-formed configuration, the bytes of a well-formed instruction, followed
by any bytes that do not lengthen or undo it, decode to it and leave those bytes. The row INSTRUCTION-BYTE is left
out: its byte decodes to the row that the configuration selects (`InstructionByteRunsItsRow`). A dangling prefix is
the spec's own decision D41. Where a whitespace slot or the separator has another role as an Instruction symbol, the
reading is R77's and R81's, not R82's: the model's choice (assumption 15). -/
def Obligations.DecodeOfEncode : Prop :=
  ∀ (c : WfConfig) (i : Instr) (rest : List Byte), i.wf c.val = true → (∀ q, i ≠ .instructionByte q) →
    mayFollow c.val i rest = true → decode c.val (encode c.val i ++ rest) = .ok (i, rest)

/-- Encode undoes decode: whatever bytes decode, the instruction's bytes and the rest are those bytes again, so no bit
of a program byte is dropped; and the instruction is well formed. Only the empty sequence does not decode (R82). Where
a whitespace slot or the separator has another role as an Instruction symbol, the reading is R77's and R81's, not
R82's: the model's choice (assumption 15). -/
def Obligations.EncodeOfDecode : Prop :=
  ∀ (c : WfConfig) (bytes : List Byte),
    (bytes = [] ∧ decode c.val bytes = .error .noByte) ∨
    ∃ i rest, decode c.val bytes = .ok (i, rest) ∧ encode c.val i ++ rest = bytes ∧ i.wf c.val = true ∧
      mayFollow c.val i rest = true

/-- The splitter (R74, R75): the sections' symbols with `K` set from their kinds are the input again; kinds alternate
from Instruction; only section 0 can be empty, and it is exactly when the first byte is a Literal byte. The spec marks
it as derived from R74. -/
def Obligations.SplitIsLosslessAndAlternates : Prop :=
  ∀ bytes : List Byte,
    (split bytes).flatMap Section.bytes = bytes ∧
    (∀ k sec, (split bytes)[k]? = some sec → sec.kind = (if k % 2 = 0 then .instruction else .literal)) ∧
    (∀ k sec, (split bytes)[k]? = some sec → sec.text = [] → k = 0) ∧
    ((∃ sec, (split bytes)[0]? = some sec ∧ sec.text = []) ↔ ∃ b bs, bytes = b :: bs ∧ kindOf b = .literal)

/-- The tokens of an Instruction section, encoded one after the other, are the section's bytes: tokenizing drops
nothing (R76, R77). -/
def Obligations.TokensCoverTheirSection : Prop :=
  ∀ (c : WfConfig) (text : List Sym),
    (sectionInstrs c.val text).flatMap (encode c.val) = text.map (byteOf .instruction)

/-! ## Steps and runs -/

/-- A step runs what `pc` selects (R161): the token's or the Literal section's `exec` and then the advance of `pc`,
the end-of-section action and then the advance, or the end of the run; under unlimited capacities with nothing added.
The size of a step is the spec's own decision D12; the last two clauses are the model's choice (assumption 7). -/
def Obligations.StepRunsWhatPcSelects : Prop :=
  ∀ s : State, s.unlimited = true →
    (∀ i t, s.fetch = .token i → exec i s = .next t → step s = .next { t with pc := ⟨t.pc.si, t.pc.ti + 1⟩ }) ∧
    (∀ syms t, s.fetch = .literal syms → exec (.literal syms) s = .next t →
      step s = .next { t with pc := ⟨t.pc.si + 1, 0⟩ }) ∧
    (s.fetch = .boundary → step s = .next { s.endOfSection with pc := ⟨s.pc.si + 1, 0⟩ }) ∧
    (s.fetch = .ended → s.result = none → step s = .next { s with result := some s.acc }) ∧
    (s.fetch = .ended → ∀ r, s.result = some r → step s = .fault .runEnded)

/-- A step runs the decoded instruction: when the bytes of `PROG` at the offset that `pc` maps to (R22) decode to `i`,
and the section at `pc` has a token or a Literal section left, the step is `exec i` and then the advance of `pc`. The
size of a step is the spec's own decision D12. -/
def Obligations.StepRunsTheDecodedInstruction : Prop :=
  ∀ (s t : State) (i : Instr) (rest : List Byte), s.unlimited = true →
    decode s.cfg.val s.bytesAtPc = .ok (i, rest) → s.fetch ≠ .boundary → exec i s = .next t →
    step s = .next { t with pc := pcAfter i t.pc }

/-- After reset the state is as R32 says. The registers' and the flags' values are the spec's own decisions D10, D11
(assumption 2). -/
def Obligations.ResetState : Prop :=
  State.reset.rNot = .text [] ∧ State.reset.rEq = .text [] ∧ State.reset.rN = .text [] ∧ State.reset.pc = ⟨0, 0⟩ ∧
  State.reset.cmp = false ∧ State.reset.pnl = false ∧ State.reset.icur = 0 ∧ State.reset.stk = [] ∧
  State.reset.acc = [] ∧ State.reset.log = []

/-- The invariant holds after reset, whatever program and input are loaded. `RESULT` in the invariant is the model's
choice (assumption 7). -/
def Obligations.LoadedResetMeetsInvariant : Prop :=
  State.reset.Inv ∧ ∀ (s : State) (bytes : List Byte) (input : List Text), (s.startRun bytes input).Inv

/-- Every step keeps the invariant, from every state that meets it. Its clause on `RESULT` is the model's choice
(assumption 7). -/
def Obligations.StepKeepsInvariant : Prop :=
  ∀ s t : State, s.Inv → step s = .next t → t.Inv

/-- A step never writes the parameters of the run (R31), the hidden tries (R29) or the encoder's working state (R27);
every byte of `PROG` reads as before. -/
def Obligations.StepKeepsRunParameters : Prop :=
  ∀ s t : State, step s = .next t →
    t.cfg = s.cfg ∧ t.input = s.input ∧ (∀ a, t.prog.read a = s.prog.read a) ∧ t.prog = s.prog ∧
    t.trieS = s.trieS ∧ t.trieL = s.trieL ∧ t.codecParts = s.codecParts ∧ t.codecPos = s.codecPos

/-- `pc` only moves forward, by one token or to the next section (R22, R173); it stays only in the step that writes
`RESULT`. The step that writes `RESULT` is the model's choice (assumption 7). -/
def Obligations.PcOnlyMovesForward : Prop :=
  ∀ s t : State, step s = .next t →
    t.pc = ⟨s.pc.si, s.pc.ti + 1⟩ ∨ t.pc = ⟨s.pc.si + 1, 0⟩ ∨
    (t.pc = s.pc ∧ s.fetch = .ended ∧ s.result = none ∧ t.result = some s.acc)

/-- No trap, fault or abort (R280): with unlimited capacities every step is safe; the only refusal there is is a
capacity's, and the only fault is the end of the run. The stop at the end of a run and the refusal at a capacity are
the model's (assumptions 7, 9; D13, D48). -/
def Obligations.NoStepTraps : Prop :=
  ∀ s : State, (s.unlimited = true → s.SafeStep) ∧
    (∀ r, step s = .refused r → r = .capacityExceeded ∧ s.unlimited = false) ∧
    ∀ f, step s = .fault f → s.fetch = .ended ∧ s.result.isSome = true

/-- A state within its capacities steps only to states within them (R25, R294). Where a capacity is measured is the
model's choice (assumption 9). -/
def Obligations.StepKeepsCapacity : Prop :=
  ∀ s t : State, s.withinCapacity = true → step s = .next t → t.withinCapacity = true

/-- Every run ends (R160): from every state, whatever program it holds, finitely many steps reach the end. The step at
which a run ends is the model's choice (assumption 7). -/
def Obligations.EveryRunEnds : Prop :=
  ∀ s : State, s.unlimited = true → ∃ k, Sys2Proof.core.run k s = .fault .runEnded

/-- `RUN` (R160, R171): for every program and input it answers a state at the end of the run whose `RESULT` is its
accumulator, in exactly `runLength` steps. How `RESULT` is written is the model's choice (assumption 7); what the
result is, the spec's own decision D50. -/
def Obligations.HostRunWritesResult : Prop :=
  ∀ (s : State) (bytes : List Byte) (input : List Text), s.unlimited = true →
    ∃ t, hostRun bytes input s = .next t ∧ t.result = some t.acc ∧ t.fetch = .ended ∧ step t = .fault .runEnded

/-- No state survives a run (R33): from any two states of one configuration `RUN` ends in the same state, but for the
trie cache, the one thing that outlives a run. -/
def Obligations.HostRunForgetsTheState : Prop :=
  ∀ (s s' : State) (bytes : List Byte) (input : List Text) (t : State), s'.cfg = s.cfg →
    hostRun bytes input s = .next t →
    hostRun bytes input s' = .next { t with trieS := s'.trieS, trieL := s'.trieL }

/-- The host operations are total functions of their arguments and `CFG` (R14, R120): under unlimited capacities each
answers, with an answer that no other part of the state changes; and none but `RUN` changes the stack machine. What
the operations leave in the hidden fields is the model's choice (assumption 5). -/
def Obligations.HostOperationsAreTotal : Prop :=
  ∀ (op : HostOp) (s s' : State), s.unlimited = true → s'.cfg = s.cfg →
    ∃ r t t', hostOp op s = .next (r, t) ∧ hostOp op s' = .next (r, t') ∧ t.cfg = s.cfg ∧
      ((∀ bytes input, op ≠ .run bytes input) →
        t.prog = s.prog ∧ t.input = s.input ∧ t.rNot = s.rNot ∧ t.rEq = s.rEq ∧ t.rN = s.rN ∧ t.pc = s.pc ∧
        t.cmp = s.cmp ∧ t.pnl = s.pnl ∧ t.icur = s.icur ∧ t.stk = s.stk ∧ t.acc = s.acc ∧ t.result = s.result)

/-- `LOG` is write-only (R30, R54): with any other log in its place a step does the same and appends the same. -/
def Obligations.NoStepReadsTheLog : Prop :=
  ∀ (s t : State) (l : List Diag), step s = .next t →
    ∃ d, t.log = s.log ++ d ∧ step { s with log := l } = .next { t with log := l ++ d }

/-- The tries and the codec's working state cannot be observed by a step (R27, R29). What is left in `N` is the
model's choice (assumption 5). -/
def Obligations.NoStepReadsHiddenState : Prop :=
  ∀ (s t : State) (a b : Option Trie) (n : Nat) (ps : List Part) (p : Nat), step s = .next t →
    ∃ n', step { s with trieS := a, trieL := b, codecN := n, codecParts := ps, codecPos := p } =
      .next { t with trieS := a, trieL := b, codecN := n', codecParts := ps, codecPos := p }

/-! ## The pop protocol, sections -/

/-- `pop()` (R169) always returns a Value: exactly one value and one state are what popping gives, and `State.pop`
gives them. -/
def Obligations.PopAlwaysYieldsOneValue : Prop :=
  ∀ s : State, PopsTo s s.pop.1 s.pop.2 ∧ ∀ v t, PopsTo s v t → v = s.pop.1 ∧ t = s.pop.2

/-- The end-of-section action (R168, R34): with `PNL` 1 nothing changes but `pc`; with `PNL` 0 the top of the stack,
if there is one, is appended to the accumulator, and the stack and the cursor are reset. Then `pc` goes to the next
section (R161). That the action is a step of its own, with this advance of `pc`, is the spec's own decision D12. -/
def Obligations.EndOfSectionPrintsTheTop : Prop :=
  ∀ s : State, s.fetch = .boundary → s.unlimited = true →
    (s.pnl = true → step s = .next { s with pc := ⟨s.pc.si + 1, 0⟩ }) ∧
    (s.pnl = false → s.stk = [] → step s = .next { s with icur := 0, pc := ⟨s.pc.si + 1, 0⟩ }) ∧
    (∀ xs v, s.pnl = false → s.stk = xs ++ [v] →
      step s = .next { s with acc := s.acc ++ toText v, stk := [], icur := 0, pc := ⟨s.pc.si + 1, 0⟩ })

/-- A Literal section met with `CMP` 0 (R162, R164): register symbols are replaced by the registers' text, every other
symbol is its `LitChar`, and the result is pushed or appended. One pass over the symbols, the registers' text not
scanned again: the spec's own decision D39. -/
def Obligations.PlainLiteralSubstitutesAndRoutes : Prop :=
  ∀ (s : State) (syms : List Sym) (r : Text), s.cmp = false →
    r = syms.flatMap (fun q =>
      if q = s.cfg.val.op '¬' then toText s.rNot else if q = s.cfg.val.op '⁼' then toText s.rEq
      else if q = s.cfg.val.op 'ⁿ' then toText s.rN
      else if q ∈ s.cfg.val.ws then [Char.ofNat q.toNat] else [s.cfg.val.glyph q]) →
    exec (.literal syms) s = .next
      (if s.pnl then { s with pnl := false, stk := s.stk ++ [.text r] } else { s with acc := s.acc ++ r })

/-- A Literal section met with `CMP` 1 (R163, R164): the result is `DECODE(UNPACK(symbols))`, `CMP` is cleared. And
what `DECODE` is on every natural number (R140 to R143, R145), canonical or not: a loop `D` that ends at 0 and on a
positive number reads one part, whose digits are the mode, then a radix-96 digit, or else the flag in mode 2, the
dictionary and the index of its word. That the raw symbol indices are read is the spec's own decision D38; `codecN` is the hidden `N`, dead here: the model's choice (assumption 5). -/
def Obligations.CompressedLiteralDecodesAndRoutes : Prop :=
  (∀ (s : State) (syms : List Sym) (r : Text), s.cmp = true → r = decodeNat s.cfg.val (unpack syms) →
    exec (.literal syms) s = .next
      (if s.pnl then { s with cmp := false, codecN := 0, pnl := false, stk := s.stk ++ [.text r] }
       else { s with cmp := false, codecN := 0, acc := s.acc ++ r })) ∧
  ∀ c : WfConfig, ∃ D : Nat → Text → Text, (∀ n, decodeNat c.val n = D n []) ∧ (∀ out, D 0 out = out) ∧
    (∀ k d out, d < 96 → 0 < 96 * k + d →
      D (3 * (96 * k + d)) out = D k (out ++ [Char.ofNat (d + 31)])) ∧
    ∀ (sel : Dict) (q : Nat), q = (match sel with | .short => 0 | .long => 1) →
      ∀ k idx w out, (c.val.dict sel)[idx]? = some w →
        D (3 * (2 * ((c.val.dict sel).length * k + idx) + q) + 1) out =
          D k (out ++ (if out = [] then [] else [' ']) ++ w) ∧
        ∀ flag, flag < 3 →
          D (3 * (3 * (2 * ((c.val.dict sel).length * k + idx) + q) + flag) + 2) out =
            D k (out ++ (if (out = [] ↔ flag = 0) then [] else [' ']) ++ (if flag = 1 then w else swapText w))

/-! ## What each command does -/

/-- `NUM` pushes the binary64 nearest to the decimal number (R78, R210); `STR` pushes the glyph (R79, R211). The
spec's own decisions D19, D40. -/
def Obligations.LiteralTokensPush : Prop :=
  ∀ s : State,
    (∀ ds : List Digit, exec (.num ds) s = .next { s with
      stk := s.stk ++ [.num (F64.round false (Nat.ofDigits 10 (ds.map Fin.val).reverse * 2 ^ 1074) 1)] }) ∧
    ∀ q : Sym, exec (.str q) s = .next { s with stk := s.stk ++ [.text [s.cfg.val.glyph q]] }

/-- `⁺`, `⁻`, `I`, `J` (R193 to R196): the coerced operand plus or minus 1 or 2. -/
def Obligations.OneOperandArithmetic : Prop :=
  ∀ (s t : State) (v : Value), PopsTo s v t →
    exec .inc s = .next { t with stk := t.stk ++ [.num ((toNum v).add (F64.ofNat 1))] } ∧
    exec .dec s = .next { t with stk := t.stk ++ [.num ((toNum v).sub (F64.ofNat 1))] } ∧
    exec .addTwo s = .next { t with stk := t.stk ++ [.num ((toNum v).add (F64.ofNat 2))] } ∧
    exec .subTwo s = .next { t with stk := t.stk ++ [.num ((toNum v).sub (F64.ofNat 2))] }

/-- `+`, `-`, `*`, `/` (R197 to R200): the value popped first is the left operand. And what the four operations are on
finite operands (R192): the exact real result, in units of 2^-1074, rounded once by `F64.round`, which
`RoundingIsNearestTiesToEven` fixes; a sum or a difference that is exactly zero has the sign R201 gives it. The order
of `-` and `/` is the spec's own decision D20, the rounding its decision D55. -/
def Obligations.TwoOperandArithmetic : Prop :=
  (∀ (s t u : State) (p1 p2 : Value), PopsTo s p1 t → PopsTo t p2 u →
    exec .add s = .next { u with stk := u.stk ++ [.num ((toNum p1).add (toNum p2))] } ∧
    exec .sub s = .next { u with stk := u.stk ++ [.num ((toNum p1).sub (toNum p2))] } ∧
    exec .mul s = .next { u with stk := u.stk ++ [.num ((toNum p1).mul (toNum p2))] } ∧
    exec .div s = .next { u with stk := u.stk ++ [.num ((toNum p1).div (toNum p2))] }) ∧
  ∀ (x y : F64) (sx ex fx sy ey fy) (a b : Int), x = .fin sx ex fx → y = .fin sy ey fy →
    x.units = some a → y.units = some b →
    x.add y = (if a + b = 0 then F64.zero (sx && sy) else F64.round (decide (a + b < 0)) (a + b).natAbs 1) ∧
    x.sub y = (if a - b = 0 then F64.zero (sx && !sy) else F64.round (decide (a - b < 0)) (a - b).natAbs 1) ∧
    x.mul y = F64.round (sx ^^ sy) (a * b).natAbs (2 ^ 1074) ∧
    (b ≠ 0 → x.div y = F64.round (sx ^^ sy) (a.natAbs * 2 ^ 1074) b.natAbs)

/-- `:` copies what a pop would give and consumes nothing; `~` pushes its two operands exchanged; `$` discards its
operand (R213 to R215). The spec's own decisions D21, D22. -/
def Obligations.StackCommands : Prop :=
  ∀ (s t : State) (p1 : Value), PopsTo s p1 t →
    exec .dup s = .next { s with stk := s.stk ++ [p1] } ∧ exec .drop s = .next t ∧
    ∀ (u : State) (p2 : Value), PopsTo t p2 u → exec .swap s = .next { u with stk := u.stk ++ [p1, p2] }

/-- `"`, `d`, `#` and `⌂D` (R216 to R218, R223, R295) change the flag, the flag, the accumulator and the log; `…`
(R222) drains the accumulator and pushes its characters, the last on top. The order of `…` and the dump's contents are
the spec's own decisions D23, D43. -/
def Obligations.FlagAccumulatorAndDumpCommands : Prop :=
  ∀ s : State,
    exec .armPush s = .next { s with pnl := true } ∧ exec .armCompress s = .next { s with cmp := true } ∧
    exec .clearAcc s = .next { s with acc := [] } ∧
    exec .dump s = .next { s with
      log := s.log ++ [.dump s.stk s.acc s.rNot s.rEq s.rN s.cmp s.pnl s.icur] } ∧
    exec .explode s = .next { s with acc := [], stk := s.stk ++ s.acc.map fun ch => .text [ch] }

/-- `¬`, `⁼`, `ⁿ` (R219 to R221): the register takes the operand as it is, and it is pushed back. The register keeps
the Value: the spec's own decision D39. -/
def Obligations.StoreCommandsWriteTheirRegister : Prop :=
  ∀ (s t : State) (v : Value), PopsTo s v t →
    exec .storeNot s = .next { t with rNot := v, stk := t.stk ++ [v] } ∧
    exec .storeEq s = .next { t with rEq := v, stk := t.stk ++ [v] } ∧
    exec .storeN s = .next { t with rN := v, stk := t.stk ++ [v] }

/-- `A`, `a`, `Z`, `S` (R224 to R227): one Text each, given by the codes of its characters. The spec's own decision
D33. -/
def Obligations.ConstantCommandsPush : Prop :=
  ∀ s : State, ∃ up low pr : Text,
    up.map Char.toNat = List.range' 65 26 ∧ low.map Char.toNat = List.range' 97 26 ∧
    pr.map Char.toNat = List.range' 32 95 ∧
    exec .upperAlpha s = .next { s with stk := s.stk ++ [.text up] } ∧
    exec .lowerAlpha s = .next { s with stk := s.stk ++ [.text low] } ∧
    exec .printable s = .next { s with stk := s.stk ++ [.text pr] } ∧
    exec .space s = .next { s with stk := s.stk ++ [.text [' ']] }

/-- `c` and `b` (R242, R243), and what `ToText` gives for every kind of Value (R191): a Text itself; a sequence its
elements' texts with nothing between them; NaN and the infinities their three spellings; a finite number that is not a
whole number of magnitude at most 2^53 the open `NUMTEXT_OTHER` (whole numbers: `WholeNumbersPrintAndReadBack`). The
spec's own decisions D15, D16, D17. -/
def Obligations.ConcatenationCommands : Prop :=
  (∀ (s t u : State) (p1 p2 : Value), PopsTo s p1 t → PopsTo t p2 u →
    exec .concat s = .next { u with stk := u.stk ++ [.text (toText p1 ++ toText p2)] } ∧
    exec .revConcat s = .next { u with stk := u.stk ++ [.text (toText p2 ++ toText p1)] }) ∧
  (∀ t : Text, toText (.text t) = t) ∧ (∀ xs : List Value, toText (Value.ofList xs) = xs.flatMap toText) ∧
  toText (.num .nan) = ['N', 'a', 'N'] ∧
  toText (.num (.inf false)) = ['I', 'n', 'f', 'i', 'n', 'i', 't', 'y'] ∧
  toText (.num (.inf true)) = ['-', 'I', 'n', 'f', 'i', 'n', 'i', 't', 'y'] ∧
  ∀ (x : F64) (z : Int), x.units = some z → (¬ (2 ^ 1074 ∣ z) ∨ 2 ^ 53 * 2 ^ 1074 < z.natAbs) →
    toText (.num x) = Config.numTextOther x

/-- `@`, `H`, `T`, `C` (R240, R244 to R247) for every kind of operand: `n` the count and `x` the container that the
operands' kinds select. And R240's helpers: `AsList` and `Rebuild` of a `Seq`, a Text and a `Num`; `Count` of NaN, of
the infinities and of a finite number, which is floored and held between 0 and the length. The spec's own decisions
D24, D25, D26, D54. -/
def Obligations.IndexAndSliceCommands : Prop :=
  (∀ (s t u : State) (p1 p2 x : Value) (n : F64), PopsTo s p1 t → PopsTo t p2 u →
    ((∃ y, p1 = .num y ∧ n = y ∧ x = p2) ∨ ((∀ y, p1 ≠ .num y) ∧ n = toNum p2 ∧ x = p1)) →
    (∀ k : Nat, n.units = some ((k * 2 ^ 1074 : Nat) : Int) → k < (asList x).length →
      exec .index s = .next { u with stk := u.stk ++ [(asList x).getD k (.text [])] }) ∧
    ((∀ k : Nat, k < (asList x).length → n.units ≠ some ((k * 2 ^ 1074 : Nat) : Int)) →
      exec .index s = .next { u with stk := u.stk ++ [.text []] }) ∧
    exec .head s = .next { u with stk := u.stk ++ [rebuild x ((asList x).take (count n (asList x).length))] } ∧
    exec .tail s = .next { u with
      stk := u.stk ++ [rebuild x ((asList x).drop ((asList x).length - count n (asList x).length))] } ∧
    exec .centre s = .next { u with
      stk := u.stk ++ [rebuild x (((asList x).drop (((asList x).length - count n (asList x).length) / 2)).take
        (count n (asList x).length))] }) ∧
  (∀ vs, asList (.seq vs) = vs.toList) ∧ (∀ t : Text, asList (.text t) = t.map fun ch => .text [ch]) ∧
  (∀ x : F64, asList (.num x) = (numText x).map fun ch => .text [ch]) ∧
  (∀ vs xs, rebuild (.seq vs) xs = Value.ofList xs) ∧
  (∀ (t : Text) xs, rebuild (.text t) xs = .text (xs.flatMap toText)) ∧
  (∀ (x : F64) xs, rebuild (.num x) xs = .text (xs.flatMap toText)) ∧
  ∀ len : Nat, count .nan len = 0 ∧ count (.inf true) len = 0 ∧ count (.inf false) len = len ∧
    ∀ (x : F64) (z : Int), x.units = some z →
      count x len = (if z < 0 then 0 else min len (z.toNat / 2 ^ 1074))

/-- `@`, `H`, `T`, `C` of a Text by a whole number (R244 to R247), the number on top or below: the first, the last and
the middle `k` characters, and the character at `k` or nothing. The spec's own decisions D24, D25, D26, D54. -/
def Obligations.TextSlicesByWholeNumbers : Prop :=
  ∀ (s : State) (xs : List Value) (txt : Text) (k m : Nat), k ≤ 2 ^ 53 → m = min k txt.length →
    (s.stk = xs ++ [.text txt, .num (F64.ofNat k)] ∨ s.stk = xs ++ [.num (F64.ofNat k), .text txt]) →
    exec .head s = .next { s with stk := xs ++ [.text (txt.take m)] } ∧
    exec .tail s = .next { s with stk := xs ++ [.text (txt.drop (txt.length - m))] } ∧
    exec .centre s = .next { s with stk := xs ++ [.text ((txt.drop ((txt.length - m) / 2)).take m)] } ∧
    exec .index s = .next { s with stk := xs ++ [.text (txt[k]?.toList)] }

/-- `t`, `⌂t`, `i` (R248 to R250). The spec's own decisions D27, D28, D29, D34. -/
def Obligations.CaseCommands : Prop :=
  ∀ (s t : State) (v : Value), PopsTo s v t →
    exec .titleCase s = .next { t with stk := t.stk ++ [.text (unwords ((words (toText v)).map cap))] } ∧
    exec .apaTitle s = .next { t with stk := t.stk ++ [.text (unwords (apaWords none (words (toText v))))] } ∧
    exec .capitalise s = .next { t with stk := t.stk ++ [.text (cap (toText v))] }

/-- `Words` cuts at every space and `Unwords` is its inverse (R241); `lower` and `Cap` (R16, R241), character by
character; and the words of `⌂t` (R249): each word keeps its place, an empty one stays empty, a minor word is lowered
unless it is the first non-empty word or the last non-empty word before it ends in punctuation, every other word is
capitalised. Title case and `i` change only the case of letters: lowered, the result is the text lowered (R248 to
R250). The spec's own decisions D27, D28, D29, D34; the list of minor words is its general knowledge (assumption
13). -/
def Obligations.WordsAndTitleCase : Prop :=
  (∀ t : Text, unwords (words t) = t ∧ (words t).length = t.count ' ' + 1 ∧ (∀ w ∈ words t, ' ' ∉ w) ∧
    lowerText (unwords ((words t).map cap)) = lowerText t ∧
    lowerText (unwords (apaWords none (words t))) = lowerText t ∧ lowerText (cap t) = lowerText t) ∧
  (∀ t : Text, lowerText t =
    t.map fun ch => if 65 ≤ ch.toNat ∧ ch.toNat ≤ 90 then Char.ofNat (ch.toNat + 32) else ch) ∧
  cap [] = [] ∧
  (∀ (ch : Char) (t : Text), cap (ch :: t) =
    (if 97 ≤ ch.toNat ∧ ch.toNat ≤ 122 then Char.ofNat (ch.toNat - 32) else ch) :: lowerText t) ∧
  ∀ ws : List Text, (apaWords none ws).length = ws.length ∧
    ∀ (k : Nat) (w : Text) (lowered : Prop), ws[k]? = some w →
      (lowered ↔
        lowerText w ∈ [['a'], ['a', 'n'], ['a', 'n', 'd'], ['a', 's'], ['a', 't'], ['b', 'u', 't'], ['b', 'y'],
          ['f', 'o', 'r'], ['i', 'f'], ['i', 'n'], ['n', 'o', 'r'], ['o', 'f'], ['o', 'f', 'f'], ['o', 'n'],
          ['o', 'r'], ['p', 'e', 'r'], ['s', 'o'], ['t', 'h', 'e'], ['t', 'o'], ['u', 'p'], ['v', 'i', 'a'],
          ['y', 'e', 't']] ∧
        ∃ prev, ((ws.take k).filter fun v => !v.isEmpty).getLast? = some prev ∧
          ∀ ch, prev.getLast? = some ch → ch ∉ ['.', ':', '?', '!']) →
      (lowered → (apaWords none ws)[k]? = some (lowerText w)) ∧
      (¬ lowered → (apaWords none ws)[k]? = some (cap w))

/-- `j` (R251): a `Seq` on top is the sequence; otherwise the operand popped second is. The spec's own decision D30.
-/
def Obligations.JoinCommand : Prop :=
  ∀ (s t u : State) (p1 p2 : Value), PopsTo s p1 t → PopsTo t p2 u →
    (∀ vs, p1 = .seq vs → exec .join s = .next { u with
      stk := u.stk ++ [.text (List.intercalate (toText p2) (vs.toList.map toText))] }) ∧
    ((∀ vs, p1 ≠ .seq vs) → exec .join s = .next { u with
      stk := u.stk ++ [.text (List.intercalate (toText p1) ((asList p2).map toText))] })

/-- `r` (R252): the character range of two non-empty Texts, upward or downward, surrogates left out; otherwise the
numeric range, empty if an end is NaN or infinite, else the `floor` of the exact difference plus one elements, from
the first end on. An element is the exact sum or difference of the first end, which may be fractional, and the whole
number `k`, rounded once. The spec's own decision D31; the sign of a zero element is the model's reading (assumption
11). -/
def Obligations.RangeCommand : Prop :=
  (∀ (s t u : State) (p1 p2 : Value), PopsTo s p1 t → PopsTo t p2 u →
    (∀ a as b bs, p1 = .text (a :: as) → p2 = .text (b :: bs) →
      exec .range s = .next { u with stk := u.stk ++ [Value.ofList
        (((if a.toNat ≤ b.toNat then List.range' a.toNat (b.toNat + 1 - a.toNat)
           else (List.range' b.toNat (a.toNat + 1 - b.toNat)).reverse).filter
          fun k => decide (k < 0xD800 ∨ 0xDFFF < k)).map fun k => .text [Char.ofNat k])] }) ∧
    ((∀ a as b bs, ¬ (p1 = .text (a :: as) ∧ p2 = .text (b :: bs))) →
      ((toNum p1).units = none ∨ (toNum p2).units = none →
        exec .range s = .next { u with stk := u.stk ++ [Value.ofList []] }) ∧
      ∀ za zb : Int, (toNum p1).units = some za → (toNum p2).units = some zb →
        exec .range s = .next { u with stk := u.stk ++ [Value.ofList
          (if za ≤ zb then (List.range (((zb - za) / 2 ^ 1074).toNat + 1)).map fun k => .num ((toNum p1).step false k)
           else (List.range (((za - zb) / 2 ^ 1074).toNat + 1)).map fun k => .num ((toNum p1).step true k))] })) ∧
  ∀ (sx ex fx) (a : Int) (k : Nat), (F64.fin sx ex fx).units = some a →
    (F64.fin sx ex fx).step false k =
      (if a + (k * 2 ^ 1074 : Nat) = 0 then F64.zero false
       else F64.round (decide (a + (k * 2 ^ 1074 : Nat) < 0)) (a + (k * 2 ^ 1074 : Nat)).natAbs 1) ∧
    (F64.fin sx ex fx).step true k =
      (if a - (k * 2 ^ 1074 : Nat) = 0 then F64.zero sx
       else F64.round (decide (a - (k * 2 ^ 1074 : Nat) < 0)) (a - (k * 2 ^ 1074 : Nat)).natAbs 1)

/-- `R` (R253): 0 up to `ceil(n) − 1`; empty for NaN, an infinity or `n ≤ 0`. The spec's own decision D32. -/
def Obligations.ZeroRangeCommand : Prop :=
  ∀ (s t : State) (v : Value), PopsTo s v t →
    (((toNum v).units = none ∨ ∃ z : Int, (toNum v).units = some z ∧ z ≤ 0) →
      exec .zeroRange s = .next { t with stk := t.stk ++ [Value.ofList []] }) ∧
    ∀ z : Nat, 0 < z → (toNum v).units = some (z : Int) →
      exec .zeroRange s = .next { t with stk := t.stk ++ [Value.ofList
        ((List.range ((z + 2 ^ 1074 - 1) / 2 ^ 1074)).map fun k => .num (F64.ofNat k))] }

/-- Both ranges over whole numbers (R252, R253): from the value popped first to the value popped second, both ends
included; and 0 to n−1. The spec's own decisions D31, D32. -/
def Obligations.WholeNumberRanges : Prop :=
  ∀ (s : State) (xs : List Value) (a b : Nat), a ≤ 2 ^ 53 → b ≤ 2 ^ 53 →
    (s.stk = xs ++ [.num (F64.ofNat b), .num (F64.ofNat a)] →
      exec .range s = .next { s with stk := xs ++ [Value.ofList
        ((if a ≤ b then List.range' a (b + 1 - a) else (List.range' b (a + 1 - b)).reverse).map
          fun k => .num (F64.ofNat k))] }) ∧
    (s.stk = xs ++ [.num (F64.ofNat a)] →
      exec .zeroRange s = .next { s with stk := xs ++ [Value.ofList ((List.range a).map fun k => .num (F64.ofNat k))] })

/-- An unimplemented or dangling token (R212, R283): one `UNKNOWN_COMMAND` record with its symbols, nothing else. The
record and the dangling prefix are the spec's own decisions D43, D41. -/
def Obligations.UnknownTokensOnlyLog : Prop :=
  ∀ (s : State) (q : Sym),
    exec (.unimplCmd q) s = .next { s with log := s.log ++ [.unknownCommand [q]] } ∧
    exec (.unimplExt q) s = .next { s with log := s.log ++ [.unknownCommand [s.cfg.val.op '⌂', q]] } ∧
    exec (.bad .sesc) s = .next { s with log := s.log ++ [.unknownCommand [s.cfg.val.symSesc]] } ∧
    exec (.bad .ext) s = .next { s with log := s.log ++ [.unknownCommand [s.cfg.val.op '⌂']] }

/-- The row INSTRUCTION-BYTE (R70): the byte does what the row does that it decodes to, and completes. That this row
is a byte alone in its section is the model's reading (assumption 10). Where a whitespace slot or the separator has
another role as an Instruction symbol, the reading is R77's and R81's, not R82's: the model's choice (assumption 15).
-/
def Obligations.InstructionByteRunsItsRow : Prop :=
  ∀ (s : State) (q : Sym), ∃ i t, decode s.cfg.val [byteOf .instruction q] = .ok (i, []) ∧
    (∀ q', i ≠ .instructionByte q') ∧ exec (.instructionByte q) s = .next t ∧ exec i s = .next t

/-! ## Frames over all instructions -/

/-- Only the three store commands write the registers, each its own (R21). An Instruction byte counts as the row it
selects (assumption 10). -/
def Obligations.OnlyStoresWriteRegisters : Prop :=
  ∀ (i : Instr) (s t : State), exec i s = .next t →
    (selected s.cfg.val i ≠ .storeNot → t.rNot = s.rNot) ∧ (selected s.cfg.val i ≠ .storeEq → t.rEq = s.rEq) ∧
    (selected s.cfg.val i ≠ .storeN → t.rN = s.rN)

/-- The flags (R23): only `d` sets `CMP` and only `"` sets `PNL`; only a Literal section clears one, and it leaves
both clear. An Instruction byte counts as the row it selects (assumption 10). -/
def Obligations.FlagWriters : Prop :=
  ∀ (i : Instr) (s t : State), exec i s = .next t →
    (selected s.cfg.val i = .armCompress → t.cmp = true ∧ t.pnl = s.pnl) ∧
    (selected s.cfg.val i = .armPush → t.pnl = true ∧ t.cmp = s.cmp) ∧
    (∀ syms, i = .literal syms → t.cmp = false ∧ t.pnl = false) ∧
    (selected s.cfg.val i ≠ .armCompress → selected s.cfg.val i ≠ .armPush → (∀ syms, i ≠ .literal syms) →
      t.cmp = s.cmp ∧ t.pnl = s.pnl)

/-- No instruction reaches below its operands: with two values on top of `xs`, whatever an instruction does leaves
`xs` at the bottom of the stack and the input cursor where it was, and the accumulator too unless it is `#`, `…` or a
Literal section (R25, R26, R166). An Instruction byte counts as the row it selects (assumption 10). -/
def Obligations.NothingBelowTheOperandsChanges : Prop :=
  ∀ (i : Instr) (s t : State) (xs : List Value) (p2 p1 : Value), s.stk = xs ++ [p2, p1] → exec i s = .next t →
    xs <+: t.stk ∧ t.icur = s.icur ∧
    (selected s.cfg.val i ≠ .clearAcc → selected s.cfg.val i ≠ .explode → (∀ syms, i ≠ .literal syms) →
      t.acc = s.acc)

/-- What no instruction writes (R31, R27, R29, R22, R55): the run's parameters and every byte of `PROG`, `pc`, which
the step advances, `RESULT`, the tries and the encoder's working state; and only an unimplemented or dangling token or
`⌂D` writes `LOG`. An Instruction byte counts as the row it selects (assumption 10); that `exec` leaves `pc` to the
step is the model's layout (assumption 12). -/
def Obligations.ExecFrame : Prop :=
  ∀ (i : Instr) (s t : State), exec i s = .next t →
    t.cfg = s.cfg ∧ t.prog = s.prog ∧ (∀ a, t.prog.read a = s.prog.read a) ∧ t.input = s.input ∧ t.pc = s.pc ∧
    t.result = s.result ∧ t.trieS = s.trieS ∧ t.trieL = s.trieL ∧ t.codecParts = s.codecParts ∧
    t.codecPos = s.codecPos ∧ ((∀ syms, i ≠ .literal syms) → t.codecN = s.codecN) ∧
    ((∀ q, selected s.cfg.val i ≠ .unimplCmd q) → (∀ e, selected s.cfg.val i ≠ .unimplExt e) →
      (∀ p, selected s.cfg.val i ≠ .bad p) → selected s.cfg.val i ≠ .dump → t.log = s.log)

/-! ## Numbers -/

/-- Rounding is correct (R192): the result has the sign asked for; it is the infinity exactly when the real value is
at least the midpoint above the largest datum; otherwise no datum is nearer, and of two nearest the even one is taken.
The rounding is the spec's own decision D55 (general knowledge of IEEE 754). -/
def Obligations.RoundingIsNearestTiesToEven : Prop :=
  ∀ (neg : Bool) (a b : Nat), 0 < b →
    (F64.round neg a b = .inf neg ∧ (2 ^ 54 - 1) * 2 ^ 2044 * b ≤ a) ∨
    ∃ e f, F64.round neg a b = .fin neg e f ∧ a < (2 ^ 54 - 1) * 2 ^ 2044 * b ∧
      ∀ e' f', ((F64.magnitude e f * b : Nat) - (a : Int)).natAbs ≤ ((F64.magnitude e' f' * b : Nat) - (a : Int)).natAbs ∧
        (((F64.magnitude e f * b : Nat) - (a : Int)).natAbs = ((F64.magnitude e' f' * b : Nat) - (a : Int)).natAbs →
          F64.magnitude e f ≠ F64.magnitude e' f' → f.toNat % 2 = 0)

/-- The table of special values (R201). The spec takes the table from general knowledge of IEEE 754 (D55, assumption
13). -/
def Obligations.SpecialValues : Prop :=
  (∀ x : F64, F64.nan.add x = .nan ∧ x.add .nan = .nan ∧ F64.nan.sub x = .nan ∧ x.sub .nan = .nan ∧
    F64.nan.mul x = .nan ∧ x.mul .nan = .nan ∧ F64.nan.div x = .nan ∧ x.div .nan = .nan) ∧
  (∀ s e f, F64.magnitude e f ≠ 0 → ∀ t : Bool,
    (F64.fin s e f).div (F64.zero false) = .inf s ∧ (F64.fin s e f).div (F64.zero true) = .inf (!s) ∧
    (F64.zero t).div (F64.fin s e f) = F64.zero (t ^^ s) ∧ (F64.fin s e f).div (.inf t) = F64.zero (s ^^ t) ∧
    (F64.inf t).div (F64.fin s e f) = .inf (t ^^ s) ∧ (F64.inf t).mul (F64.fin s e f) = .inf (t ^^ s) ∧
    (F64.fin s e f).mul (.inf t) = .inf (s ^^ t) ∧ (F64.fin s e f).add (F64.fin s e f).neg = F64.zero false) ∧
  (∀ s t : Bool, (F64.zero s).div (F64.zero t) = .nan ∧ (F64.inf s).div (.inf t) = .nan ∧
    (F64.inf s).mul (F64.zero t) = .nan ∧ (F64.zero t).mul (.inf s) = .nan ∧
    (F64.inf s).mul (.inf t) = .inf (s ^^ t) ∧ (F64.zero s).add (F64.zero t) = F64.zero (s && t)) ∧
  (F64.inf false).add (.inf true) = .nan ∧ (F64.inf false).sub (.inf false) = .nan ∧
  (F64.ofNat 7).div (F64.ofNat 2) = .fin false 1024 (3 * 2 ^ 50) ∧ (∀ s, numText (F64.zero s) = ['0'])

/-- Whole numbers of magnitude at most 2^53 print as plain decimals with a minus sign when negative, and their text
reads back as the number (R190, R191, R317). The spec's own decisions D15, D18. -/
def Obligations.WholeNumbersPrintAndReadBack : Prop :=
  ∀ k : Nat, k ≤ 2 ^ 53 →
    numText (F64.ofNat k) = Nat.toDigits 10 k ∧ (0 < k → numText (F64.ofNat k).neg = '-' :: Nat.toDigits 10 k) ∧
    toNum (.text (numText (F64.ofNat k))) = F64.ofNat k ∧
    (0 < k → toNum (.text (numText (F64.ofNat k).neg)) = (F64.ofNat k).neg)

/-- `ToNum` of a Text (R190): digits, with a fraction or without, with a minus sign or without, give the nearest
binary64; every other Text is NaN, whether it has a character that no numeral has or only digits, signs and points in
another order; so is a `Seq`; a `Num` is itself. The spec's own decision D18. -/
def Obligations.ToNumFollowsTheGrammar : Prop :=
  (∀ (neg : Bool) (w f : List Digit), w ≠ [] →
    toNum (.text ((if neg then ['-'] else []) ++ w.map digitGlyph)) =
      F64.round neg (Nat.ofDigits 10 (w.map Fin.val).reverse * 2 ^ 1074) 1 ∧
    (f ≠ [] → toNum (.text ((if neg then ['-'] else []) ++ w.map digitGlyph ++ '.' :: f.map digitGlyph)) =
      F64.round neg (Nat.ofDigits 10 ((w ++ f).map Fin.val).reverse * 2 ^ 1074) (10 ^ f.length))) ∧
  (∀ t : Text, (¬ ∃ (neg : Bool) (w f : List Digit), w ≠ [] ∧
      (t = (if neg then ['-'] else []) ++ w.map digitGlyph ∨
       f ≠ [] ∧ t = (if neg then ['-'] else []) ++ w.map digitGlyph ++ '.' :: f.map digitGlyph)) →
    toNum (.text t) = .nan) ∧
  (∀ t : Text, (∃ ch ∈ t, ch ≠ '-' ∧ ch ≠ '.' ∧ ∀ d : Digit, ch ≠ digitGlyph d) → toNum (.text t) = .nan) ∧
  toNum (.text []) = .nan ∧ (∀ vs, toNum (.seq vs) = .nan) ∧ ∀ x, toNum (.num x) = x

/-! ## The compression engine -/

/-- The round trip of the codec (R123(b)): for every well-formed configuration, `DECODE(ENCODE(s)) = s` for every text
of characters 32 to 126. The spec marks it as derived. -/
def Obligations.CodecRoundTrip : Prop :=
  ∀ (c : WfConfig) (t : Text), (∀ ch ∈ t, 32 ≤ ch.toNat ∧ ch.toNat ≤ 126) →
    decodeNat c.val (encodeText c.val t) = t

/-- `ENCODE(s)` is 0 exactly for the empty text (R123(a)); and what any text decodes to after encoding (R115, R123(c),
R287): the length is kept, and each character is itself or, outside 32 to 126, itself or a space. The spec marks (a)
as derived. -/
def Obligations.CodecSubstitutesOnlyUnencodables : Prop :=
  ∀ (c : WfConfig) (t : Text), (encodeText c.val t = 0 ↔ t = []) ∧
    List.Forall₂ (fun ch ch' : Char => ch' = ch ∨ (ch' = ' ' ∧ ¬ (32 ≤ ch.toNat ∧ ch.toNat ≤ 126)))
      t (decodeNat c.val (encodeText c.val t))

/-- `ENCODE` completes, and what it appends to `LOG` is exactly one `UNENCODABLE` record for each position at which
the decoded text differs from the text, in order, with the character that stands there, which is outside 32 to 126
(R110, R115, R282, R287, R289); nothing of the stack machine changes. -/
def Obligations.EncodeLogsItsSubstitutions : Prop :=
  ∀ (s : State) (t : Text), s.unlimited = true → ∃ u, hostEncode t s = .next (encodeText s.cfg.val t, u) ∧
    (∃ l : List Char, u.log = s.log ++ l.map Diag.unencodable ∧
      l = ((t.zip (decodeNat s.cfg.val (encodeText s.cfg.val t))).filter fun p => p.1 != p.2).map Prod.fst ∧
      l = unencodables (parse s.cfg.val t) ∧ ∀ ch ∈ l, ¬ (32 ≤ ch.toNat ∧ ch.toNat ≤ 126)) ∧
    u.stk = s.stk ∧ u.acc = s.acc ∧ u.rNot = s.rNot ∧ u.rEq = s.rEq ∧ u.rN = s.rN ∧ u.cmp = s.cmp ∧ u.pnl = s.pnl ∧
    u.icur = s.icur ∧ u.pc = s.pc ∧ u.prog = s.prog ∧ u.input = s.input ∧ u.cfg = s.cfg ∧ u.result = s.result

/-- `LM` (R111) is the longest word that is a prefix, and `(0, none)` when none is. `BEST` (R112) is, of the four
candidates, the first in R112's order among the longest. `PARSE` (R113) takes `BEST` greedily: a loop `P` whose every
turn absorbs one space if a word follows it and takes the best match there, or else takes one character. `BUILD`
writes the digits of R116 to R119, the last part first: each equation gives the number of a part list from that of the
parts after its first, the mode trit least significant. `ENCODE` is `BUILD` of `PARSE` (R110). Dictionaries without
repeats are the spec's own decision D36, the order of the candidates D35, the space D52, case mapping D34. -/
def Obligations.LongestMatchIsLongest : Prop :=
  (∀ (d : List Text) (t : Text), Config.dictWf d = true →
    (∀ len idx, longestMatch d t = (len, some idx) ↔
      (1 ≤ len ∧ len ≤ t.length ∧ d[idx]? = some (t.take len) ∧ ∀ w ∈ d, w <+: t → w.length ≤ len)) ∧
    ((∀ w ∈ d, ¬ w <+: t) → longestMatch d t = (0, none))) ∧
  (∀ (c : WfConfig) (t : Text),
    (bestMatch c.val t = none ↔ ∀ (sw : Bool) (sel : Dict),
      longestMatch (c.val.dict sel) (if sw then swapText t else t) = (0, none)) ∧
    ∀ m : Match, bestMatch c.val t = some m ↔
      (longestMatch (c.val.dict m.sel) (if m.sw then swapText t else t) = (m.len, some m.idx) ∧
        ∀ (sw : Bool) (sel : Dict),
          (longestMatch (c.val.dict sel) (if sw then swapText t else t)).1 < m.len ∨
          ((longestMatch (c.val.dict sel) (if sw then swapText t else t)).1 = m.len ∧
            2 * m.sw.toNat + selDigit m.sel ≤ 2 * sw.toNat + selDigit sel))) ∧
  (∀ c : WfConfig, ∃ P : Bool → Text → List Part, (∀ t, parse c.val t = P true t) ∧ (∀ first, P first [] = []) ∧
    ∀ (first : Bool) (ch : Char) (rest body : Text), body = (if ch = ' ' then rest else ch :: rest) →
      (∀ m, bestMatch c.val body = some m →
        P first (ch :: rest) = .word m.idx m.sel m.sw first (decide (ch = ' ')) :: P false (body.drop m.len)) ∧
      (bestMatch c.val body = none → P first (ch :: rest) = .chr ch :: P false rest)) ∧
  (∀ (c : Config) (ps : List Part), build c [] = 0 ∧
    (∀ ch : Char, build c (.chr ch :: ps) =
      (build c ps * 96 + (if 32 ≤ ch.toNat ∧ ch.toNat ≤ 126 then ch.toNat - 31 else 1)) * 3) ∧
    ∀ (idx : Nat) (sel : Dict) (sw first sp : Bool) (n : Nat),
      n = (build c ps * (c.dict sel).length + idx) * 2 + (match sel with | .short => 0 | .long => 1) →
      build c (.word idx sel sw first sp :: ps) =
        (if sp = !first then (if sw then (n * 3 + 0) * 3 + 2 else n * 3 + 1)
         else (n * 3 + (if sw then 2 else 1)) * 3 + 2)) ∧
  ∀ (c : Config) (t : Text), encodeText c t = build c (parse c t) ∧
    swapText t = t.map fun ch =>
      if 97 ≤ ch.toNat ∧ ch.toNat ≤ 122 then Char.ofNat (ch.toNat - 32)
      else if 65 ≤ ch.toNat ∧ ch.toNat ≤ 90 then Char.ofNat (ch.toNat + 32) else ch

/-- The trie gives exactly `LM` (R29, R111). The spec marks it as derived (D44). -/
def Obligations.TrieLookupIsLongestMatch : Prop :=
  ∀ (d : List Text) (t : Text), Config.dictWf d = true → trieLookup (trieBuild d) t = longestMatch d t

/-- `UNPACK` (R144): base-128 digits, most significant first; leading zero symbols do not count; it undoes `PACK`.
That the raw symbol indices are read is the spec's own decision D38. -/
def Obligations.UnpackReadsBaseHundredTwentyEight : Prop :=
  (∀ syms : List Sym, unpack syms = Nat.ofDigits 128 (syms.reverse.map BitVec.toNat)) ∧ unpack [] = 0 ∧
  (∀ (k : Nat) (syms : List Sym), unpack (List.replicate k 0 ++ syms) = unpack syms) ∧
  (∀ n, unpack (packChunks n) = n) ∧ unpack [4, 71] = 583 ∧ unpack [0, 0, 4, 71] = 583 ∧ unpack [127, 127] = 16383 ∧
  unpack [1, 0] = 128

/-- `PACK` (R121): the Instruction byte of `d`, then Literal bytes, `max(1, ceil(bitlength/7))` of them; the program
is two sections. `PACK(0)` is the spec's own decision D37. -/
def Obligations.PackShape : Prop :=
  ∀ (c : WfConfig) (n : Nat),
    pack c.val n = byteOf .instruction (c.val.op 'd') :: (packChunks n).map (byteOf .literal) ∧
    (packChunks n).length = max 1 ((n.size + 6) / 7) ∧
    split (pack c.val n) = [⟨.instruction, [c.val.op 'd']⟩, ⟨.literal, packChunks n⟩]

/-- A packed text runs back to itself (R122, testable property 5): for every text of characters 32 to 126, running
`PACK(ENCODE(s))` with any input ends with the result `s`. -/
def Obligations.PackedTextRunsToItself : Prop :=
  ∀ (s : State) (t : Text) (input : List Text), s.unlimited = true → (∀ ch ∈ t, 32 ≤ ch.toNat ∧ ch.toNat ≤ 126) →
    ∃ u, hostRun (pack s.cfg.val (encodeText s.cfg.val t)) input s = .next u ∧ u.result = some t

/-! ## The transcoder -/

/-- The round trip of the transcoder (R91): it holds for every byte sequence that meets the two conditions, every
output of `PACK` meets them, and it can fail otherwise. The conditions are the spec's own narrowing of the source's
claim (N17). -/
def Obligations.TranscoderRoundTrip : Prop :=
  (∀ (c : WfConfig) (bytes : List Byte), roundTrips c.val bytes = true →
    toBytes c.val (toLiterate c.val bytes) = bytes) ∧
  (∀ (c : WfConfig) (n : Nat), roundTrips c.val (pack c.val n) = true) ∧
  toBytes refcfg (toLiterate refcfg [0xA2, 0x41, 0xE3]) ≠ [0xA2, 0x41, 0xE3] ∧
  toBytes refcfg (toLiterate refcfg [0x5C, 0xE3]) ≠ [0x5C, 0xE3]
end

