-- ==== Sys2Proof/Laws/State.lean ====
section
/-! SUPPORT. One lemma per field of State per update, each true by rfl and a simp lemma, so that no later proof unfolds
a record update. -/

namespace Sys2Proof.Machine

/-! ## State.push -/

@[simp] theorem State.push_cfg (s : State) (v : Value) : (s.push v).cfg = s.cfg := rfl
@[simp] theorem State.push_prog (s : State) (v : Value) : (s.push v).prog = s.prog := rfl
@[simp] theorem State.push_input (s : State) (v : Value) : (s.push v).input = s.input := rfl
@[simp] theorem State.push_rNot (s : State) (v : Value) : (s.push v).rNot = s.rNot := rfl
@[simp] theorem State.push_rEq (s : State) (v : Value) : (s.push v).rEq = s.rEq := rfl
@[simp] theorem State.push_rN (s : State) (v : Value) : (s.push v).rN = s.rN := rfl
@[simp] theorem State.push_pc (s : State) (v : Value) : (s.push v).pc = s.pc := rfl
@[simp] theorem State.push_cmp (s : State) (v : Value) : (s.push v).cmp = s.cmp := rfl
@[simp] theorem State.push_pnl (s : State) (v : Value) : (s.push v).pnl = s.pnl := rfl
@[simp] theorem State.push_icur (s : State) (v : Value) : (s.push v).icur = s.icur := rfl
@[simp] theorem State.push_stk (s : State) (v : Value) : (s.push v).stk = s.stk ++ [v] := rfl
@[simp] theorem State.push_acc (s : State) (v : Value) : (s.push v).acc = s.acc := rfl
@[simp] theorem State.push_log (s : State) (v : Value) : (s.push v).log = s.log := rfl
@[simp] theorem State.push_result (s : State) (v : Value) : (s.push v).result = s.result := rfl
@[simp] theorem State.push_trieS (s : State) (v : Value) : (s.push v).trieS = s.trieS := rfl
@[simp] theorem State.push_trieL (s : State) (v : Value) : (s.push v).trieL = s.trieL := rfl
@[simp] theorem State.push_codecN (s : State) (v : Value) : (s.push v).codecN = s.codecN := rfl
@[simp] theorem State.push_codecParts (s : State) (v : Value) : (s.push v).codecParts = s.codecParts := rfl
@[simp] theorem State.push_codecPos (s : State) (v : Value) : (s.push v).codecPos = s.codecPos := rfl

/-! ## State.setAcc -/

@[simp] theorem State.setAcc_cfg (s : State) (x : Text) : (s.setAcc x).cfg = s.cfg := rfl
@[simp] theorem State.setAcc_prog (s : State) (x : Text) : (s.setAcc x).prog = s.prog := rfl
@[simp] theorem State.setAcc_input (s : State) (x : Text) : (s.setAcc x).input = s.input := rfl
@[simp] theorem State.setAcc_rNot (s : State) (x : Text) : (s.setAcc x).rNot = s.rNot := rfl
@[simp] theorem State.setAcc_rEq (s : State) (x : Text) : (s.setAcc x).rEq = s.rEq := rfl
@[simp] theorem State.setAcc_rN (s : State) (x : Text) : (s.setAcc x).rN = s.rN := rfl
@[simp] theorem State.setAcc_pc (s : State) (x : Text) : (s.setAcc x).pc = s.pc := rfl
@[simp] theorem State.setAcc_cmp (s : State) (x : Text) : (s.setAcc x).cmp = s.cmp := rfl
@[simp] theorem State.setAcc_pnl (s : State) (x : Text) : (s.setAcc x).pnl = s.pnl := rfl
@[simp] theorem State.setAcc_icur (s : State) (x : Text) : (s.setAcc x).icur = s.icur := rfl
@[simp] theorem State.setAcc_stk (s : State) (x : Text) : (s.setAcc x).stk = s.stk := rfl
@[simp] theorem State.setAcc_acc (s : State) (x : Text) : (s.setAcc x).acc = x := rfl
@[simp] theorem State.setAcc_log (s : State) (x : Text) : (s.setAcc x).log = s.log := rfl
@[simp] theorem State.setAcc_result (s : State) (x : Text) : (s.setAcc x).result = s.result := rfl
@[simp] theorem State.setAcc_trieS (s : State) (x : Text) : (s.setAcc x).trieS = s.trieS := rfl
@[simp] theorem State.setAcc_trieL (s : State) (x : Text) : (s.setAcc x).trieL = s.trieL := rfl
@[simp] theorem State.setAcc_codecN (s : State) (x : Text) : (s.setAcc x).codecN = s.codecN := rfl
@[simp] theorem State.setAcc_codecParts (s : State) (x : Text) : (s.setAcc x).codecParts = s.codecParts := rfl
@[simp] theorem State.setAcc_codecPos (s : State) (x : Text) : (s.setAcc x).codecPos = s.codecPos := rfl

/-! ## State.setPc -/

@[simp] theorem State.setPc_cfg (s : State) (p : PC) : (s.setPc p).cfg = s.cfg := rfl
@[simp] theorem State.setPc_prog (s : State) (p : PC) : (s.setPc p).prog = s.prog := rfl
@[simp] theorem State.setPc_input (s : State) (p : PC) : (s.setPc p).input = s.input := rfl
@[simp] theorem State.setPc_rNot (s : State) (p : PC) : (s.setPc p).rNot = s.rNot := rfl
@[simp] theorem State.setPc_rEq (s : State) (p : PC) : (s.setPc p).rEq = s.rEq := rfl
@[simp] theorem State.setPc_rN (s : State) (p : PC) : (s.setPc p).rN = s.rN := rfl
@[simp] theorem State.setPc_pc (s : State) (p : PC) : (s.setPc p).pc = p := rfl
@[simp] theorem State.setPc_cmp (s : State) (p : PC) : (s.setPc p).cmp = s.cmp := rfl
@[simp] theorem State.setPc_pnl (s : State) (p : PC) : (s.setPc p).pnl = s.pnl := rfl
@[simp] theorem State.setPc_icur (s : State) (p : PC) : (s.setPc p).icur = s.icur := rfl
@[simp] theorem State.setPc_stk (s : State) (p : PC) : (s.setPc p).stk = s.stk := rfl
@[simp] theorem State.setPc_acc (s : State) (p : PC) : (s.setPc p).acc = s.acc := rfl
@[simp] theorem State.setPc_log (s : State) (p : PC) : (s.setPc p).log = s.log := rfl
@[simp] theorem State.setPc_result (s : State) (p : PC) : (s.setPc p).result = s.result := rfl
@[simp] theorem State.setPc_trieS (s : State) (p : PC) : (s.setPc p).trieS = s.trieS := rfl
@[simp] theorem State.setPc_trieL (s : State) (p : PC) : (s.setPc p).trieL = s.trieL := rfl
@[simp] theorem State.setPc_codecN (s : State) (p : PC) : (s.setPc p).codecN = s.codecN := rfl
@[simp] theorem State.setPc_codecParts (s : State) (p : PC) : (s.setPc p).codecParts = s.codecParts := rfl
@[simp] theorem State.setPc_codecPos (s : State) (p : PC) : (s.setPc p).codecPos = s.codecPos := rfl

/-! ## State.setCmp -/

@[simp] theorem State.setCmp_cfg (s : State) (b : Bool) : (s.setCmp b).cfg = s.cfg := rfl
@[simp] theorem State.setCmp_prog (s : State) (b : Bool) : (s.setCmp b).prog = s.prog := rfl
@[simp] theorem State.setCmp_input (s : State) (b : Bool) : (s.setCmp b).input = s.input := rfl
@[simp] theorem State.setCmp_rNot (s : State) (b : Bool) : (s.setCmp b).rNot = s.rNot := rfl
@[simp] theorem State.setCmp_rEq (s : State) (b : Bool) : (s.setCmp b).rEq = s.rEq := rfl
@[simp] theorem State.setCmp_rN (s : State) (b : Bool) : (s.setCmp b).rN = s.rN := rfl
@[simp] theorem State.setCmp_pc (s : State) (b : Bool) : (s.setCmp b).pc = s.pc := rfl
@[simp] theorem State.setCmp_cmp (s : State) (b : Bool) : (s.setCmp b).cmp = b := rfl
@[simp] theorem State.setCmp_pnl (s : State) (b : Bool) : (s.setCmp b).pnl = s.pnl := rfl
@[simp] theorem State.setCmp_icur (s : State) (b : Bool) : (s.setCmp b).icur = s.icur := rfl
@[simp] theorem State.setCmp_stk (s : State) (b : Bool) : (s.setCmp b).stk = s.stk := rfl
@[simp] theorem State.setCmp_acc (s : State) (b : Bool) : (s.setCmp b).acc = s.acc := rfl
@[simp] theorem State.setCmp_log (s : State) (b : Bool) : (s.setCmp b).log = s.log := rfl
@[simp] theorem State.setCmp_result (s : State) (b : Bool) : (s.setCmp b).result = s.result := rfl
@[simp] theorem State.setCmp_trieS (s : State) (b : Bool) : (s.setCmp b).trieS = s.trieS := rfl
@[simp] theorem State.setCmp_trieL (s : State) (b : Bool) : (s.setCmp b).trieL = s.trieL := rfl
@[simp] theorem State.setCmp_codecN (s : State) (b : Bool) : (s.setCmp b).codecN = s.codecN := rfl
@[simp] theorem State.setCmp_codecParts (s : State) (b : Bool) : (s.setCmp b).codecParts = s.codecParts := rfl
@[simp] theorem State.setCmp_codecPos (s : State) (b : Bool) : (s.setCmp b).codecPos = s.codecPos := rfl

/-! ## State.setPnl -/

@[simp] theorem State.setPnl_cfg (s : State) (b : Bool) : (s.setPnl b).cfg = s.cfg := rfl
@[simp] theorem State.setPnl_prog (s : State) (b : Bool) : (s.setPnl b).prog = s.prog := rfl
@[simp] theorem State.setPnl_input (s : State) (b : Bool) : (s.setPnl b).input = s.input := rfl
@[simp] theorem State.setPnl_rNot (s : State) (b : Bool) : (s.setPnl b).rNot = s.rNot := rfl
@[simp] theorem State.setPnl_rEq (s : State) (b : Bool) : (s.setPnl b).rEq = s.rEq := rfl
@[simp] theorem State.setPnl_rN (s : State) (b : Bool) : (s.setPnl b).rN = s.rN := rfl
@[simp] theorem State.setPnl_pc (s : State) (b : Bool) : (s.setPnl b).pc = s.pc := rfl
@[simp] theorem State.setPnl_cmp (s : State) (b : Bool) : (s.setPnl b).cmp = s.cmp := rfl
@[simp] theorem State.setPnl_pnl (s : State) (b : Bool) : (s.setPnl b).pnl = b := rfl
@[simp] theorem State.setPnl_icur (s : State) (b : Bool) : (s.setPnl b).icur = s.icur := rfl
@[simp] theorem State.setPnl_stk (s : State) (b : Bool) : (s.setPnl b).stk = s.stk := rfl
@[simp] theorem State.setPnl_acc (s : State) (b : Bool) : (s.setPnl b).acc = s.acc := rfl
@[simp] theorem State.setPnl_log (s : State) (b : Bool) : (s.setPnl b).log = s.log := rfl
@[simp] theorem State.setPnl_result (s : State) (b : Bool) : (s.setPnl b).result = s.result := rfl
@[simp] theorem State.setPnl_trieS (s : State) (b : Bool) : (s.setPnl b).trieS = s.trieS := rfl
@[simp] theorem State.setPnl_trieL (s : State) (b : Bool) : (s.setPnl b).trieL = s.trieL := rfl
@[simp] theorem State.setPnl_codecN (s : State) (b : Bool) : (s.setPnl b).codecN = s.codecN := rfl
@[simp] theorem State.setPnl_codecParts (s : State) (b : Bool) : (s.setPnl b).codecParts = s.codecParts := rfl
@[simp] theorem State.setPnl_codecPos (s : State) (b : Bool) : (s.setPnl b).codecPos = s.codecPos := rfl

/-! ## State.raise -/

@[simp] theorem State.raise_cfg (s : State) (d : Diag) : (s.raise d).cfg = s.cfg := rfl
@[simp] theorem State.raise_prog (s : State) (d : Diag) : (s.raise d).prog = s.prog := rfl
@[simp] theorem State.raise_input (s : State) (d : Diag) : (s.raise d).input = s.input := rfl
@[simp] theorem State.raise_rNot (s : State) (d : Diag) : (s.raise d).rNot = s.rNot := rfl
@[simp] theorem State.raise_rEq (s : State) (d : Diag) : (s.raise d).rEq = s.rEq := rfl
@[simp] theorem State.raise_rN (s : State) (d : Diag) : (s.raise d).rN = s.rN := rfl
@[simp] theorem State.raise_pc (s : State) (d : Diag) : (s.raise d).pc = s.pc := rfl
@[simp] theorem State.raise_cmp (s : State) (d : Diag) : (s.raise d).cmp = s.cmp := rfl
@[simp] theorem State.raise_pnl (s : State) (d : Diag) : (s.raise d).pnl = s.pnl := rfl
@[simp] theorem State.raise_icur (s : State) (d : Diag) : (s.raise d).icur = s.icur := rfl
@[simp] theorem State.raise_stk (s : State) (d : Diag) : (s.raise d).stk = s.stk := rfl
@[simp] theorem State.raise_acc (s : State) (d : Diag) : (s.raise d).acc = s.acc := rfl
@[simp] theorem State.raise_log (s : State) (d : Diag) : (s.raise d).log = s.log ++ [d] := rfl
@[simp] theorem State.raise_result (s : State) (d : Diag) : (s.raise d).result = s.result := rfl
@[simp] theorem State.raise_trieS (s : State) (d : Diag) : (s.raise d).trieS = s.trieS := rfl
@[simp] theorem State.raise_trieL (s : State) (d : Diag) : (s.raise d).trieL = s.trieL := rfl
@[simp] theorem State.raise_codecN (s : State) (d : Diag) : (s.raise d).codecN = s.codecN := rfl
@[simp] theorem State.raise_codecParts (s : State) (d : Diag) : (s.raise d).codecParts = s.codecParts := rfl
@[simp] theorem State.raise_codecPos (s : State) (d : Diag) : (s.raise d).codecPos = s.codecPos := rfl

/-! ## State.boundaryReset -/

@[simp] theorem State.boundaryReset_cfg (s : State) : s.boundaryReset.cfg = s.cfg := rfl
@[simp] theorem State.boundaryReset_prog (s : State) : s.boundaryReset.prog = s.prog := rfl
@[simp] theorem State.boundaryReset_input (s : State) : s.boundaryReset.input = s.input := rfl
@[simp] theorem State.boundaryReset_rNot (s : State) : s.boundaryReset.rNot = s.rNot := rfl
@[simp] theorem State.boundaryReset_rEq (s : State) : s.boundaryReset.rEq = s.rEq := rfl
@[simp] theorem State.boundaryReset_rN (s : State) : s.boundaryReset.rN = s.rN := rfl
@[simp] theorem State.boundaryReset_pc (s : State) : s.boundaryReset.pc = s.pc := rfl
@[simp] theorem State.boundaryReset_cmp (s : State) : s.boundaryReset.cmp = s.cmp := rfl
@[simp] theorem State.boundaryReset_pnl (s : State) : s.boundaryReset.pnl = s.pnl := rfl
@[simp] theorem State.boundaryReset_icur (s : State) : s.boundaryReset.icur = 0 := rfl
@[simp] theorem State.boundaryReset_stk (s : State) : s.boundaryReset.stk = [] := rfl
@[simp] theorem State.boundaryReset_acc (s : State) : s.boundaryReset.acc = s.acc := rfl
@[simp] theorem State.boundaryReset_log (s : State) : s.boundaryReset.log = s.log := rfl
@[simp] theorem State.boundaryReset_result (s : State) : s.boundaryReset.result = s.result := rfl
@[simp] theorem State.boundaryReset_trieS (s : State) : s.boundaryReset.trieS = s.trieS := rfl
@[simp] theorem State.boundaryReset_trieL (s : State) : s.boundaryReset.trieL = s.trieL := rfl
@[simp] theorem State.boundaryReset_codecN (s : State) : s.boundaryReset.codecN = s.codecN := rfl
@[simp] theorem State.boundaryReset_codecParts (s : State) : s.boundaryReset.codecParts = s.codecParts := rfl
@[simp] theorem State.boundaryReset_codecPos (s : State) : s.boundaryReset.codecPos = s.codecPos := rfl

/-! ## State.nextToken -/

@[simp] theorem State.nextToken_cfg (s : State) : s.nextToken.cfg = s.cfg := rfl
@[simp] theorem State.nextToken_prog (s : State) : s.nextToken.prog = s.prog := rfl
@[simp] theorem State.nextToken_input (s : State) : s.nextToken.input = s.input := rfl
@[simp] theorem State.nextToken_rNot (s : State) : s.nextToken.rNot = s.rNot := rfl
@[simp] theorem State.nextToken_rEq (s : State) : s.nextToken.rEq = s.rEq := rfl
@[simp] theorem State.nextToken_rN (s : State) : s.nextToken.rN = s.rN := rfl
@[simp] theorem State.nextToken_pc (s : State) : s.nextToken.pc = ⟨s.pc.si, s.pc.ti + 1⟩ := rfl
@[simp] theorem State.nextToken_cmp (s : State) : s.nextToken.cmp = s.cmp := rfl
@[simp] theorem State.nextToken_pnl (s : State) : s.nextToken.pnl = s.pnl := rfl
@[simp] theorem State.nextToken_icur (s : State) : s.nextToken.icur = s.icur := rfl
@[simp] theorem State.nextToken_stk (s : State) : s.nextToken.stk = s.stk := rfl
@[simp] theorem State.nextToken_acc (s : State) : s.nextToken.acc = s.acc := rfl
@[simp] theorem State.nextToken_log (s : State) : s.nextToken.log = s.log := rfl
@[simp] theorem State.nextToken_result (s : State) : s.nextToken.result = s.result := rfl
@[simp] theorem State.nextToken_trieS (s : State) : s.nextToken.trieS = s.trieS := rfl
@[simp] theorem State.nextToken_trieL (s : State) : s.nextToken.trieL = s.trieL := rfl
@[simp] theorem State.nextToken_codecN (s : State) : s.nextToken.codecN = s.codecN := rfl
@[simp] theorem State.nextToken_codecParts (s : State) : s.nextToken.codecParts = s.codecParts := rfl
@[simp] theorem State.nextToken_codecPos (s : State) : s.nextToken.codecPos = s.codecPos := rfl

/-! ## State.nextSection -/

@[simp] theorem State.nextSection_cfg (s : State) : s.nextSection.cfg = s.cfg := rfl
@[simp] theorem State.nextSection_prog (s : State) : s.nextSection.prog = s.prog := rfl
@[simp] theorem State.nextSection_input (s : State) : s.nextSection.input = s.input := rfl
@[simp] theorem State.nextSection_rNot (s : State) : s.nextSection.rNot = s.rNot := rfl
@[simp] theorem State.nextSection_rEq (s : State) : s.nextSection.rEq = s.rEq := rfl
@[simp] theorem State.nextSection_rN (s : State) : s.nextSection.rN = s.rN := rfl
@[simp] theorem State.nextSection_pc (s : State) : s.nextSection.pc = ⟨s.pc.si + 1, 0⟩ := rfl
@[simp] theorem State.nextSection_cmp (s : State) : s.nextSection.cmp = s.cmp := rfl
@[simp] theorem State.nextSection_pnl (s : State) : s.nextSection.pnl = s.pnl := rfl
@[simp] theorem State.nextSection_icur (s : State) : s.nextSection.icur = s.icur := rfl
@[simp] theorem State.nextSection_stk (s : State) : s.nextSection.stk = s.stk := rfl
@[simp] theorem State.nextSection_acc (s : State) : s.nextSection.acc = s.acc := rfl
@[simp] theorem State.nextSection_log (s : State) : s.nextSection.log = s.log := rfl
@[simp] theorem State.nextSection_result (s : State) : s.nextSection.result = s.result := rfl
@[simp] theorem State.nextSection_trieS (s : State) : s.nextSection.trieS = s.trieS := rfl
@[simp] theorem State.nextSection_trieL (s : State) : s.nextSection.trieL = s.trieL := rfl
@[simp] theorem State.nextSection_codecN (s : State) : s.nextSection.codecN = s.codecN := rfl
@[simp] theorem State.nextSection_codecParts (s : State) : s.nextSection.codecParts = s.codecParts := rfl
@[simp] theorem State.nextSection_codecPos (s : State) : s.nextSection.codecPos = s.codecPos := rfl

/-! ## State.writeReg .not -/

@[simp] theorem State.writeReg_not_rNot (s : State) (v : Value) : (s.writeReg .not v).rNot = v := rfl
@[simp] theorem State.writeReg_not_rEq (s : State) (v : Value) : (s.writeReg .not v).rEq = s.rEq := rfl
@[simp] theorem State.writeReg_not_rN (s : State) (v : Value) : (s.writeReg .not v).rN = s.rN := rfl

/-! ## State.writeReg .eq -/

@[simp] theorem State.writeReg_eq_rNot (s : State) (v : Value) : (s.writeReg .eq v).rNot = s.rNot := rfl
@[simp] theorem State.writeReg_eq_rEq (s : State) (v : Value) : (s.writeReg .eq v).rEq = v := rfl
@[simp] theorem State.writeReg_eq_rN (s : State) (v : Value) : (s.writeReg .eq v).rN = s.rN := rfl

/-! ## State.writeReg .n -/

@[simp] theorem State.writeReg_n_rNot (s : State) (v : Value) : (s.writeReg .n v).rNot = s.rNot := rfl
@[simp] theorem State.writeReg_n_rEq (s : State) (v : Value) : (s.writeReg .n v).rEq = s.rEq := rfl
@[simp] theorem State.writeReg_n_rN (s : State) (v : Value) : (s.writeReg .n v).rN = v := rfl

@[simp] theorem State.writeReg_cfg (s : State) (r : Reg) (v : Value) : (s.writeReg r v).cfg = s.cfg := by
  cases r <;> rfl
@[simp] theorem State.writeReg_prog (s : State) (r : Reg) (v : Value) : (s.writeReg r v).prog = s.prog := by
  cases r <;> rfl
@[simp] theorem State.writeReg_input (s : State) (r : Reg) (v : Value) : (s.writeReg r v).input = s.input := by
  cases r <;> rfl
@[simp] theorem State.writeReg_pc (s : State) (r : Reg) (v : Value) : (s.writeReg r v).pc = s.pc := by
  cases r <;> rfl
@[simp] theorem State.writeReg_cmp (s : State) (r : Reg) (v : Value) : (s.writeReg r v).cmp = s.cmp := by
  cases r <;> rfl
@[simp] theorem State.writeReg_pnl (s : State) (r : Reg) (v : Value) : (s.writeReg r v).pnl = s.pnl := by
  cases r <;> rfl
@[simp] theorem State.writeReg_icur (s : State) (r : Reg) (v : Value) : (s.writeReg r v).icur = s.icur := by
  cases r <;> rfl
@[simp] theorem State.writeReg_stk (s : State) (r : Reg) (v : Value) : (s.writeReg r v).stk = s.stk := by
  cases r <;> rfl
@[simp] theorem State.writeReg_acc (s : State) (r : Reg) (v : Value) : (s.writeReg r v).acc = s.acc := by
  cases r <;> rfl
@[simp] theorem State.writeReg_log (s : State) (r : Reg) (v : Value) : (s.writeReg r v).log = s.log := by
  cases r <;> rfl
@[simp] theorem State.writeReg_result (s : State) (r : Reg) (v : Value) : (s.writeReg r v).result = s.result := by
  cases r <;> rfl
@[simp] theorem State.writeReg_trieS (s : State) (r : Reg) (v : Value) : (s.writeReg r v).trieS = s.trieS := by
  cases r <;> rfl
@[simp] theorem State.writeReg_trieL (s : State) (r : Reg) (v : Value) : (s.writeReg r v).trieL = s.trieL := by
  cases r <;> rfl
@[simp] theorem State.writeReg_codecN (s : State) (r : Reg) (v : Value) : (s.writeReg r v).codecN = s.codecN := by
  cases r <;> rfl
@[simp] theorem State.writeReg_codecParts (s : State) (r : Reg) (v : Value) : (s.writeReg r v).codecParts = s.codecParts := by
  cases r <;> rfl
@[simp] theorem State.writeReg_codecPos (s : State) (r : Reg) (v : Value) : (s.writeReg r v).codecPos = s.codecPos := by
  cases r <;> rfl

end Sys2Proof.Machine
end

