-- ==== Sys2Proof/Laws/Ops.lean ====
section
/-! SUPPORT. For each shared operation, what it can do, said once: bytes and symbols, the program store, registers, the
pop protocol, dispatch, the end of a section, the end of a step. Proofs cite these and do not unfold the operations. -/

namespace Sys2Proof

/-! ## Bytes (R70) -/

@[simp] theorem symOf_byteOf (k : Kind) (q : Sym) : symOf (byteOf k q) = q := by
  cases k <;> revert q <;> decide

@[simp] theorem kindOf_byteOf (k : Kind) (q : Sym) : kindOf (byteOf k q) = k := by
  cases k <;> revert q <;> decide

@[simp] theorem byteOf_kindOf_symOf (b : Byte) : byteOf (kindOf b) (symOf b) = b := by
  revert b; decide +kernel

/-! ## Sequences of Values (R9) -/

@[simp] theorem Values.toList_ofList : ∀ xs : List Value, (Values.ofList xs).toList = xs
  | [] => rfl
  | v :: vs => by rw [Values.ofList, Values.toList, Values.toList_ofList vs]

@[simp] theorem Values.ofList_toList : ∀ vs : Values, Values.ofList vs.toList = vs
  | .nil => rfl
  | .cons v vs => by rw [Values.toList, Values.ofList, Values.ofList_toList vs]

namespace Machine

/-! ## The program store (R51) -/

theorem Memory.loadFrom_fst : ∀ (bs : List Byte) (a : Nat),
    (Memory.loadFrom a bs).map Prod.fst = List.range' a bs.length
  | [], _ => rfl
  | b :: bs, a => by simp [Memory.loadFrom, Memory.loadFrom_fst bs (a + 1), List.range'_succ]

theorem Memory.loadFrom_snd : ∀ (bs : List Byte) (a : Nat), (Memory.loadFrom a bs).map Prod.snd = bs
  | [], _ => rfl
  | b :: bs, a => by simp [Memory.loadFrom, Memory.loadFrom_snd bs (a + 1)]

/-- The bytes of a loaded program are the program. -/
@[simp] theorem Memory.bytes_load (bs : List Byte) : (Memory.load bs).bytes = bs := Memory.loadFrom_snd bs 0

@[simp] theorem Memory.length_load (bs : List Byte) : (Memory.load bs).length = bs.length := by
  have h := congrArg List.length (Memory.loadFrom_snd bs 0)
  simpa [Memory.load] using h

/-- Loading makes a store in canonical form. It is the one operation that makes a store: a step writes none. -/
@[simp] theorem Memory.load_wf (bs : List Byte) : (Memory.load bs).wf = true := by
  have h := Memory.loadFrom_fst bs 0
  rw [Memory.wf, Memory.length_load, List.range_eq_range']
  exact decide_eq_true h

theorem Memory.read_loadFrom : ∀ (bs : List Byte) (a k : Nat),
    ((Memory.loadFrom a bs).find? fun cell => cell.1 == a + k).map Prod.snd = bs[k]?
  | [], _, _ => rfl
  | b :: bs, a, 0 => by simp [Memory.loadFrom]
  | b :: bs, a, k + 1 => by
    have h := Memory.read_loadFrom bs (a + 1) k
    have e : a + 1 + k = a + (k + 1) := by omega
    rw [e] at h
    simp [Memory.loadFrom, h]

/-- Reading a loaded program gives its byte at that index, none past its end. -/
@[simp] theorem Memory.read_load (bs : List Byte) (k : Nat) : (Memory.load bs).read k = bs[k]? := by
  simpa [Memory.load, Memory.read] using Memory.read_loadFrom bs 0 k

/-- The memory of the reset state, and of a state with a table word stored, is in canonical form. -/
theorem State.reset_prog_wf : State.reset.prog.wf = true := rfl

theorem State.withFetchWord_prog_wf (s : State) (nbits w : Nat) : (s.withFetchWord nbits w).prog.wf = true :=
  Memory.load_wf _

theorem State.startRun_prog_wf (s : State) (bs : List Byte) (input : List Text) :
    (s.startRun bs input).prog.wf = true := Memory.load_wf _

/-! ## Registers (R21) -/

@[simp] theorem State.readReg_writeReg (s : State) (r : Reg) (v : Value) : (s.writeReg r v).readReg r = v := by
  cases r <;> rfl

theorem State.readReg_writeReg_ne (s : State) (r r' : Reg) (v : Value) (h : r' ≠ r) :
    (s.writeReg r v).readReg r' = s.readReg r' := by
  cases r <;> cases r' <;> first | rfl | exact absurd rfl h

/-! ## The pop protocol (R169, R170) -/

theorem State.pop_of_stack (s : State) (xs : List Value) (v : Value) (h : s.stk = xs ++ [v]) :
    s.pop = (v, { s with stk := xs }) := by
  simp [State.pop, h]

theorem State.pop_of_input (s : State) (line : Text) (h : s.stk = []) (hl : s.input[s.icur]? = some line) :
    s.pop = (.text line, { s with icur := s.icur + 1 }) := by
  simp [State.pop, h, hl]

theorem State.pop_of_acc (s : State) (h : s.stk = []) (hl : s.input.length ≤ s.icur) :
    s.pop = (.text s.acc, { s with acc := [] }) := by
  simp [State.pop, h, List.getElem?_eq_none hl]

/-- Peeking gives what popping would. -/
theorem State.peek_eq_pop (s : State) : s.peek = s.pop.1 := by
  unfold State.peek State.pop
  cases s.stk.getLast? with
  | some v => rfl
  | none => cases s.input[s.icur]? <;> rfl

/-- What popping can do: it shortens the stack by its top, or moves the cursor, or drains the accumulator. -/
theorem State.pop_frame (s : State) :
    s.pop.2 = { s with stk := s.pop.2.stk, icur := s.pop.2.icur, acc := s.pop.2.acc } := by
  unfold State.pop
  cases s.stk.getLast? with
  | some v => rfl
  | none => cases s.input[s.icur]? <;> rfl

/-! ## Dispatch (R166, R167) -/

theorem dispatch1_pure1 (s : State) (f : Value → Value) :
    dispatch1 s (pure1 f) = s.pop.2.push (f s.pop.1) := rfl

theorem dispatch2_pure2 (s : State) (f : Value → Value → Value) :
    dispatch2 s (pure2 f) = s.pop.2.pop.2.push (f s.pop.1 s.pop.2.pop.1) := rfl

theorem dispatch1_storeReg (s : State) (r : Reg) :
    dispatch1 s (storeReg r) = (s.pop.2.writeReg r s.pop.1).push s.pop.1 := rfl

/-! ## Literal sections, the end of a section, the end of a run -/

theorem State.afterLiteral_of_cmp (s : State) (h : s.cmp = true) :
    s.afterLiteral = { s with cmp := false, codecN := 0 } := by
  simp [State.afterLiteral, h, State.setCmp]

theorem State.afterLiteral_of_not_cmp (s : State) (h : s.cmp = false) : s.afterLiteral = s := by
  simp [State.afterLiteral, h]

theorem State.routeLiteral_of_pnl (s : State) (t : Text) (h : s.pnl = true) :
    s.routeLiteral t = { s with pnl := false, stk := s.stk ++ [.text t] } := by
  simp [State.routeLiteral, h, State.setPnl, State.push]

theorem State.routeLiteral_of_not_pnl (s : State) (t : Text) (h : s.pnl = false) :
    s.routeLiteral t = { s with acc := s.acc ++ t } := by
  simp [State.routeLiteral, h, State.setAcc]

theorem State.endOfSection_of_pnl (s : State) (h : s.pnl = true) : s.endOfSection = s := by
  simp [State.endOfSection, h]

theorem State.endOfSection_of_empty (s : State) (h : s.pnl = false) (he : s.stk = []) :
    s.endOfSection = s.boundaryReset := by
  simp [State.endOfSection, h, he]

theorem State.endOfSection_of_top (s : State) (xs : List Value) (v : Value) (h : s.pnl = false)
    (ht : s.stk = xs ++ [v]) : s.endOfSection = (s.setAcc (s.acc ++ toText v)).boundaryReset := by
  simp [State.endOfSection, h, ht]

/-- The end of a run gives a next state only when `RESULT` is not written, and writes it with `ACC`. -/
theorem State.endOfRun_next (s t : State) (h : s.endOfRun = .next t) :
    s.result = none ∧ t = { s with result := some s.acc } := by
  unfold State.endOfRun at h
  split at h
  · exact ⟨‹_›, (Host.Outcome.next.inj h).symm⟩
  · exact nomatch h

/-! ## The end of a step -/

/-- If the end of a step gives `t`, then the instruction gave a state, `t` is that state advanced, and no capacity is
exceeded. -/
theorem retire_next (o : Host.Outcome State Fault Refusal) (adv : State → State) (t : State)
    (h : retire o adv = .next t) : ∃ u, o = .next u ∧ t = adv u ∧ t.withinCapacity = true := by
  cases o with
  | next u =>
    unfold retire at h
    by_cases hc : (adv u).withinCapacity = true
    · simp only [hc, if_true] at h
      exact ⟨u, rfl, (Host.Outcome.next.inj h).symm, Host.Outcome.next.inj h ▸ hc⟩
    · simp only [hc] at h
      exact nomatch h
  | fault r => exact nomatch h
  | refused r => exact nomatch h

/-- Without limits no state is over capacity. -/
theorem State.withinCapacity_of_unlimited (s : State) (h : s.unlimited = true) : s.withinCapacity = true := by
  simp only [State.unlimited, Bool.and_eq_true, Option.isNone_iff_eq_none] at h
  simp [State.withinCapacity, h.1.1, h.2]

theorem State.textFits_of_unlimited (s : State) (t : Text) (h : s.unlimited = true) : s.textFits t = true := by
  simp only [State.unlimited, Bool.and_eq_true, Option.isNone_iff_eq_none] at h
  simp [State.textFits, h.2]

theorem State.codecFits_of_unlimited (s : State) (n : Nat) (h : s.unlimited = true) : s.codecFits n = true := by
  simp only [State.unlimited, Bool.and_eq_true, Option.isNone_iff_eq_none] at h
  simp [State.codecFits, h.1.2]

/-! ## exec and step -/

/-- Every instruction completes: `exec` answers a next state, whatever the instruction and the state. -/
theorem exec_total (i : Instr) (s : State) : ∃ t, exec i s = .next t := by
  cases i
  case instructionByte q =>
    show ∃ t, execSelected (byteInstr s.cfg.val q) s = .next t
    cases byteInstr s.cfg.val q <;> exact ⟨_, rfl⟩
  all_goals exact ⟨_, rfl⟩

/-- What a step that gives a next state did: it ran a token, a Literal section or an end-of-section action and then
advanced `pc`, or it wrote `RESULT`. -/
theorem step_next_cases (s t : State) (h : step s = .next t) :
    (∃ i u, s.fetch = .token i ∧ exec i s = .next u ∧ t = u.nextToken ∧ t.withinCapacity = true) ∨
    (∃ syms, s.fetch = .literal syms ∧ t = (s.runLiteral syms).nextSection ∧ t.withinCapacity = true) ∨
    (s.fetch = .boundary ∧ t = s.endOfSection.nextSection ∧ t.withinCapacity = true) ∨
    (s.fetch = .ended ∧ s.result = none ∧ t = { s with result := some s.acc } ∧ t.withinCapacity = true) := by
  unfold step at h
  split at h
  · obtain ⟨u, hu, ht, hc⟩ := retire_next _ _ _ h
    exact .inl ⟨_, u, ‹_›, hu, ht, hc⟩
  · split at h
    · exact nomatch h
    · obtain ⟨u, hu, ht, hc⟩ := retire_next _ _ _ h
      cases hu
      exact .inr (.inl ⟨_, ‹_›, ht, hc⟩)
  · obtain ⟨u, hu, ht, hc⟩ := retire_next _ _ _ h
    cases hu
    exact .inr (.inr (.inl ⟨‹_›, ht, hc⟩))
  · obtain ⟨u, hu, ht, hc⟩ := retire_next _ _ _ h
    obtain ⟨hr, hu⟩ := State.endOfRun_next s u hu
    exact .inr (.inr (.inr ⟨‹_›, hr, ht.trans hu, hc⟩))

end Machine
end Sys2Proof
end

