-- ==== Sys2Proof/Laws/PerInstr.lean ====
section
/-! SUPPORT. Statements about every instruction as syntax, one lemma per constructor. -/

namespace Sys2Proof.Laws.EncodedKind

/-- The kind of section an instruction stands in: a Literal section is one of its own, every other row is a token of an
Instruction section (R74, R76, R84). -/
def sectionKind (i : Instr) : Kind :=
  match i with
  | .literal _ => .literal
  | .num _ => .instruction
  | .str _ => .instruction
  | .inc => .instruction
  | .dec => .instruction
  | .addTwo => .instruction
  | .subTwo => .instruction
  | .add => .instruction
  | .sub => .instruction
  | .mul => .instruction
  | .div => .instruction
  | .dup => .instruction
  | .swap => .instruction
  | .drop => .instruction
  | .armPush => .instruction
  | .clearAcc => .instruction
  | .armCompress => .instruction
  | .storeNot => .instruction
  | .storeEq => .instruction
  | .storeN => .instruction
  | .explode => .instruction
  | .upperAlpha => .instruction
  | .lowerAlpha => .instruction
  | .printable => .instruction
  | .space => .instruction
  | .concat => .instruction
  | .revConcat => .instruction
  | .index => .instruction
  | .head => .instruction
  | .tail => .instruction
  | .centre => .instruction
  | .titleCase => .instruction
  | .capitalise => .instruction
  | .join => .instruction
  | .range => .instruction
  | .zeroRange => .instruction
  | .dump => .instruction
  | .apaTitle => .instruction
  | .unimplCmd _ => .instruction
  | .unimplExt _ => .instruction
  | .bad _ => .instruction
  | .instructionByte _ => .instruction

/-- Under every configuration, every byte that an instruction is encoded as has bit 7 as its row has it (R70). -/
def Statement (i : Instr) : Prop := ∀ c : Config, ∀ b ∈ encode c i, kindOf b = sectionKind i

/-- One Instruction byte. -/
theorem one (q : Sym) : ∀ b ∈ [instrByte q], kindOf b = .instruction := by
  intro b hb
  rw [List.mem_singleton.mp hb]
  exact kindOf_byteOf _ _

/-- Two Instruction bytes. -/
theorem two (p q : Sym) : ∀ b ∈ [instrByte p, instrByte q], kindOf b = .instruction := by
  intro b hb
  rcases List.mem_cons.mp hb with rfl | hb
  · exact kindOf_byteOf _ _
  · exact one q b hb

theorem num (ds : List Digit) : Statement (.num ds) := by
  intro c b hb
  obtain ⟨_, _, rfl⟩ := List.mem_map.mp hb
  exact kindOf_byteOf _ _

theorem str (q : Sym) : Statement (.str q) := fun _ => two _ _

theorem inc : Statement .inc := fun _ => one _

theorem dec : Statement .dec := fun _ => one _

theorem addTwo : Statement .addTwo := fun _ => one _

theorem subTwo : Statement .subTwo := fun _ => one _

theorem add : Statement .add := fun _ => one _

theorem sub : Statement .sub := fun _ => one _

theorem mul : Statement .mul := fun _ => one _

theorem div : Statement .div := fun _ => one _

theorem dup : Statement .dup := fun _ => one _

theorem swap : Statement .swap := fun _ => one _

theorem drop : Statement .drop := fun _ => one _

theorem armPush : Statement .armPush := fun _ => one _

theorem clearAcc : Statement .clearAcc := fun _ => one _

theorem armCompress : Statement .armCompress := fun _ => one _

theorem storeNot : Statement .storeNot := fun _ => one _

theorem storeEq : Statement .storeEq := fun _ => one _

theorem storeN : Statement .storeN := fun _ => one _

theorem explode : Statement .explode := fun _ => one _

theorem upperAlpha : Statement .upperAlpha := fun _ => one _

theorem lowerAlpha : Statement .lowerAlpha := fun _ => one _

theorem printable : Statement .printable := fun _ => one _

theorem space : Statement .space := fun _ => one _

theorem concat : Statement .concat := fun _ => one _

theorem revConcat : Statement .revConcat := fun _ => one _

theorem index : Statement .index := fun _ => one _

theorem head : Statement .head := fun _ => one _

theorem tail : Statement .tail := fun _ => one _

theorem centre : Statement .centre := fun _ => one _

theorem titleCase : Statement .titleCase := fun _ => one _

theorem capitalise : Statement .capitalise := fun _ => one _

theorem join : Statement .join := fun _ => one _

theorem range : Statement .range := fun _ => one _

theorem zeroRange : Statement .zeroRange := fun _ => one _

theorem dump : Statement .dump := fun _ => two _ _

theorem apaTitle : Statement .apaTitle := fun _ => two _ _

theorem unimplCmd (q : Sym) : Statement (.unimplCmd q) := fun _ => one _

theorem unimplExt (e : Sym) : Statement (.unimplExt e) := fun _ => two _ _

theorem bad (p : Pfx) : Statement (.bad p) := fun _ => one _

theorem literal (syms : List Sym) : Statement (.literal syms) := by
  intro c b hb
  obtain ⟨_, _, rfl⟩ := List.mem_map.mp hb
  exact kindOf_byteOf _ _

theorem instructionByte (q : Sym) : Statement (.instructionByte q) := fun _ => one _

end Sys2Proof.Laws.EncodedKind
end

