-- ==== Sys2Proof/Tests/Slice0.lean ====
section
/-! SUPPORT. Tests. Every expected value is taken from the spec's worked vectors (spec/95_test_vectors.md, named in
the comment) or worked out by hand from the rule named; none is the model's own answer. Then, for every statement with
hypotheses, values that meet them. -/

set_option Elab.async false

namespace Sys2Proof.Tests

open Sys2Proof.Machine

/-! ## Helpers -/

/-- The reset state with a stack. -/
def onStack (xs : List Value) : State := { State.reset with stk := xs }

/-- The reset state with input lines. -/
def onInput (ls : List Text) : State := { State.reset with input := ls }

/-- The datum of a natural number, as a Value. -/
def num (k : Nat) : Value := .num (F64.ofNat k)

/-- `REFCFG` with a stack of one value, no codec integer above one bit and Texts of two characters. -/
def smallWf : WfConfig :=
  ⟨{ refcfg with maxStack := some 1, maxNbits := some 1, maxText := some 2 }, by decide +kernel⟩

/-- A state under those capacities. -/
def small : State := { State.reset with cfg := smallWf }

/-- One field after one step at the table word, or nothing. -/
def after {α : Type} (f : State → α) (s : State) (nbits w : Nat) : Option α :=
  match step (s.withFetchWord nbits w) with
  | .next t => some (f t)
  | .fault _ => none
  | .refused _ => none

/-! ## WellFormed refuses what is ill formed -/

theorem test_wf_short_code_page : ({ refcfg with glyphs := refcfg.glyphs.take 127 } : Config).codePageWf = false := by
  decide +kernel

theorem test_wf_glyph_twice : ({ refcfg with glyphs := refcfg.glyphs.set 0 'x' } : Config).codePageWf = false := by
  decide +kernel

theorem test_wf_three_ws_slots : ({ refcfg with ws := [9, 10, 13] } : Config).whitespaceWf = false := by
  decide +kernel

theorem test_wf_ws_slot_twice : ({ refcfg with ws := [9, 10, 13, 13] } : Config).whitespaceWf = false := by
  decide +kernel

/-- Slot 0 takes the native line feed, which is the character of whitespace slot 10. -/
theorem test_wf_native_whitespace_elsewhere :
    ({ refcfg with glyphs := refcfg.glyphs.set 0 '\n' } : Config).whitespaceWf = false := by
  decide +kernel

theorem test_wf_dict_empty : Config.dictWf [] = false := by decide

theorem test_wf_dict_empty_word : Config.dictWf [['a'], []] = false := by decide

theorem test_wf_dict_word_twice : Config.dictWf [['a'], ['b'], ['a']] = false := by decide

theorem test_wf_dict_uppercase : Config.dictWf [['a', 'B']] = false := by decide

theorem test_wf_glyph_missing : ({ refcfg with glyphs := refcfg.glyphs.set 43 'é' } : Config).glyphsPresent = false := by
  decide +kernel

theorem test_wf_special_is_command : ({ refcfg with symSesc := 43 } : Config).specialsWf = false := by decide +kernel

theorem test_wf_sep_is_escape : ({ refcfg with symSep := 92 } : Config).specialsWf = false := by decide +kernel

theorem test_wf_sep_is_quote : ({ refcfg with symSep := 34 } : Config).specialsWf = false := by decide +kernel

/-- Each ill-formed part makes the whole configuration ill formed. -/
theorem test_wf_config_refused :
    ({ refcfg with ws := [9, 10, 13] } : Config).wf = false ∧ ({ refcfg with dictS := [] } : Config).wf = false ∧
    ({ refcfg with dictL := [['X']] } : Config).wf = false ∧ ({ refcfg with symSep := 92 } : Config).wf = false := by
  decide +kernel

/-- Ill-formed instructions: no digit; an unimplemented symbol that is the escape, a digit or a command; an
unimplemented extension that is `t` or `D`; a Literal section without a symbol. -/
theorem test_wf_instr_refused :
    (Instr.num []).wf refcfg = false ∧ (Instr.unimplCmd 39).wf refcfg = false ∧
    (Instr.unimplCmd 48).wf refcfg = false ∧ (Instr.unimplCmd 43).wf refcfg = false ∧
    (Instr.unimplCmd 7).wf refcfg = false ∧ (Instr.unimplExt 116).wf refcfg = false ∧
    (Instr.unimplExt 68).wf refcfg = false ∧ (Instr.literal []).wf refcfg = false := by
  decide +kernel

/-- `D` alone names no command (R82). -/
theorem test_wf_instr_accepted : (Instr.unimplCmd 68).wf refcfg = true ∧ (Instr.num [0]).wf refcfg = true := by
  decide +kernel

/-! ## Decoding: the words of R76, R80, R81 under REFCFG -/

theorem test_decode_inc : decodeTableWord 8 0b10000001 = some .inc := by decide +kernel

theorem test_decode_dec : decodeTableWord 8 0b10000010 = some .dec := by decide +kernel

theorem test_decode_addTwo : decodeTableWord 8 0b11001001 = some .addTwo := by decide +kernel

theorem test_decode_subTwo : decodeTableWord 8 0b11001010 = some .subTwo := by decide +kernel

theorem test_decode_add : decodeTableWord 8 0b10101011 = some .add := by decide +kernel

theorem test_decode_sub : decodeTableWord 8 0b10101101 = some .sub := by decide +kernel

theorem test_decode_mul : decodeTableWord 8 0b10101010 = some .mul := by decide +kernel

theorem test_decode_div : decodeTableWord 8 0b10101111 = some .div := by decide +kernel

theorem test_decode_dup : decodeTableWord 8 0b10111010 = some .dup := by decide +kernel

theorem test_decode_swap : decodeTableWord 8 0b11111110 = some .swap := by decide +kernel

theorem test_decode_drop : decodeTableWord 8 0b10100100 = some .drop := by decide +kernel

theorem test_decode_armPush : decodeTableWord 8 0b10100010 = some .armPush := by decide +kernel

theorem test_decode_clearAcc : decodeTableWord 8 0b10100011 = some .clearAcc := by decide +kernel

theorem test_decode_armCompress : decodeTableWord 8 0b11100100 = some .armCompress := by decide +kernel

theorem test_decode_storeNot : decodeTableWord 8 0b10000011 = some .storeNot := by decide +kernel

theorem test_decode_storeEq : decodeTableWord 8 0b10000100 = some .storeEq := by decide +kernel

theorem test_decode_storeN : decodeTableWord 8 0b10000101 = some .storeN := by decide +kernel

theorem test_decode_explode : decodeTableWord 8 0b10000110 = some .explode := by decide +kernel

theorem test_decode_upperAlpha : decodeTableWord 8 0b11000001 = some .upperAlpha := by decide +kernel

theorem test_decode_lowerAlpha : decodeTableWord 8 0b11100001 = some .lowerAlpha := by decide +kernel

theorem test_decode_printable : decodeTableWord 8 0b11011010 = some .printable := by decide +kernel

theorem test_decode_space : decodeTableWord 8 0b11010011 = some .space := by decide +kernel

theorem test_decode_concat : decodeTableWord 8 0b11100011 = some .concat := by decide +kernel

theorem test_decode_revConcat : decodeTableWord 8 0b11100010 = some .revConcat := by decide +kernel

theorem test_decode_index : decodeTableWord 8 0b11000000 = some .index := by decide +kernel

theorem test_decode_head : decodeTableWord 8 0b11001000 = some .head := by decide +kernel

theorem test_decode_tail : decodeTableWord 8 0b11010100 = some .tail := by decide +kernel

theorem test_decode_centre : decodeTableWord 8 0b11000011 = some .centre := by decide +kernel

theorem test_decode_titleCase : decodeTableWord 8 0b11110100 = some .titleCase := by decide +kernel

theorem test_decode_capitalise : decodeTableWord 8 0b11101001 = some .capitalise := by decide +kernel

theorem test_decode_join : decodeTableWord 8 0b11101010 = some .join := by decide +kernel

theorem test_decode_range : decodeTableWord 8 0b11110010 = some .range := by decide +kernel

theorem test_decode_zeroRange : decodeTableWord 8 0b11010010 = some .zeroRange := by decide +kernel

theorem test_decode_num : decodeTableWord 8 0b10110111 = some (.num [7]) := by decide +kernel

/-- Vector T2: a digit run is one token. -/
theorem test_decode_num_run : decode refcfg [0xB0, 0xB0, 0xB7, 0xAB] = .ok (.num [0, 0, 7], [0xAB]) := by
  decide +kernel

theorem test_decode_str : decodeTableWord 16 0b1010011111111000 = some (.str 120) := by decide +kernel

theorem test_decode_dump : decodeTableWord 16 0b1000011111000100 = some .dump := by decide +kernel

theorem test_decode_apaTitle : decodeTableWord 16 0b1000011111110100 = some .apaTitle := by decide +kernel

theorem test_decode_unimplCmd : decodeTableWord 8 0b10100000 = some (.unimplCmd 32) ∧
    decodeTableWord 8 0xC4 = some (.unimplCmd 68) := by decide +kernel

theorem test_decode_unimplExt : decodeTableWord 16 0b1000011111111000 = some (.unimplExt 120) := by decide +kernel

/-- A prefix that is the last byte of its section, the next byte being a Literal byte (R83). -/
theorem test_decode_bad : decode refcfg [0xA7, 0x41] = .ok (.bad .sesc, [0x41]) ∧
    decode refcfg [0x87] = .ok (.bad .ext, []) := by decide +kernel

theorem test_decode_literal : decode refcfg [0x41, 0x42, 0xC1, 0x43] = .ok (.literal [65, 66], [0xC1, 0x43]) := by
  decide +kernel

/-- INSTRUCTION-BYTE: the row that one byte is: a command, a digit, a prefix, an unimplemented symbol. -/
theorem test_decode_instructionByte : byteInstr refcfg 43 = .add ∧ byteInstr refcfg 0x35 = .num [5] ∧
    byteInstr refcfg 7 = .bad .ext ∧ byteInstr refcfg 0 = .unimplCmd 0 := by decide +kernel

theorem test_decode_nothing : decode refcfg [] = .error .noByte := by decide +kernel

/-- Vectors E1, E2, E4. -/
theorem test_split : split [] = [] ∧ split [0x41] = [⟨.instruction, []⟩, ⟨.literal, [65]⟩] ∧
    split [0xC1, 0x41, 0x42, 0xC1, 0xC2] =
      [⟨.instruction, [65]⟩, ⟨.literal, [65, 66]⟩, ⟨.instruction, [65, 66]⟩] := by decide +kernel

/-- Vectors E7, E8. -/
theorem test_tokens :
    tokens refcfg [49, 50, 39, 120, 7, 116, 51, 43] = [.num [1, 2], .str 120, .ext 116, .num [3], .cmd 43] ∧
    tokens refcfg [39, 39, 7, 39, 53, 39] = [.str 39, .ext 39, .num [5], .bad .sesc] := by decide +kernel

theorem test_encode : encode refcfg .add = [0xAB] ∧ encode refcfg .apaTitle = [0x87, 0xF4] ∧
    encode refcfg (.num [1, 2]) = [0xB1, 0xB2] ∧ encode refcfg (.str 120) = [0xA7, 0xF8] ∧
    encode refcfg (.literal [65, 66]) = [0x41, 0x42] ∧ encode refcfg (.bad .sesc) = [0xA7] := by decide +kernel

/-! ## One step of each instruction -/

/-- Vector A1. -/
theorem test_inc : after State.stk (onStack [num 5]) 8 0x81 = some [num 6] := by decide +kernel

/-- Vector A8: the operand is the drained empty accumulator. -/
theorem test_inc_of_empty_acc : after State.stk (State.reset) 8 0x81 = some [.num .nan] := by decide +kernel

/-- Vector A5: −1. -/
theorem test_dec : after State.stk (onStack [num 0]) 8 0x82 = some [.num (F64.ofNat 1).neg] := by decide +kernel

/-- Vector A19: the literal 2^53 + 1 is 2^53. -/
theorem test_dec_rounds :
    after State.stk (onStack [num 9007199254740993]) 8 0x82 = some [num 9007199254740991] := by
  decide +kernel

/-- Vector A3. -/
theorem test_addTwo : after State.stk (onStack [num 5]) 8 0xC9 = some [num 7] := by decide +kernel

/-- Vector A4. -/
theorem test_subTwo : after State.stk (onStack [num 5]) 8 0xCA = some [num 3] := by decide +kernel

/-- Vector A11: Texts are coerced, not concatenated. -/
theorem test_add : after State.stk (onStack [.text ['2'], .text ['3']]) 8 0xAB = some [num 5] := by decide +kernel

/-- Program P3, step 1: both operands from the input. -/
theorem test_add_from_input :
    after (fun t => (t.stk, t.icur)) (onInput [['3'], ['4']]) 8 0xAB = some ([num 7], 2) := by
  decide +kernel

/-- Vector A12: the top is the left operand: 2 − 7. -/
theorem test_sub :
    after State.stk (onStack [.text ['7'], .text ['2']]) 8 0xAD = some [.num (F64.ofNat 5).neg] := by
  decide +kernel

/-- Vector A10. -/
theorem test_mul : after State.stk (onStack [num 6, num 6]) 8 0xAA = some [num 36] := by decide +kernel

/-- Vector A17: 7 ÷ 2 = 3.5, which is 1.75 × 2^1. -/
theorem test_div :
    after State.stk (onStack [.text ['2'], .text ['7']]) 8 0xAF = some [.num (.fin false 1024 0xC000000000000)] := by
  decide +kernel

/-- Vector A15. -/
theorem test_div_by_zero :
    after State.stk (onStack [.text ['0'], .text ['1']]) 8 0xAF = some [.num (.inf false)] := by
  decide +kernel

/-- R210. -/
theorem test_num : after State.stk (onStack []) 8 0xB7 = some [num 7] := by decide +kernel

/-- Vector T4: the stand-in glyph U+240A, not a line feed. -/
theorem test_str : after State.stk (onStack []) 16 0xA78A = some [.text ['␊']] := by decide +kernel

/-- Vector T6: a copy of the input line, which is not consumed. -/
theorem test_dup :
    after (fun t => (t.stk, t.icur)) (onInput [['a', 'b']]) 8 0xBA = some ([.text ['a', 'b']], 0) := by
  decide +kernel

/-- Vector T9: pops `ab`, `cd` and pushes `ab` then `cd`. -/
theorem test_swap :
    after State.stk (onInput [['a', 'b'], ['c', 'd']]) 8 0xFE = some [.text ['a', 'b'], .text ['c', 'd']] := by
  decide +kernel

/-- Vector T10: the accumulator is drained. -/
theorem test_drop :
    after (fun t => (t.stk, t.acc)) ({ State.reset with acc := ['X'] }) 8 0xA4 = some ([], []) := by
  decide +kernel

/-- Vector T12. -/
theorem test_armPush :
    after (fun t => (t.pnl, t.stk)) (onStack [num 7]) 8 0xA2 = some (true, [num 7]) := by
  decide +kernel

/-- Vector T14. -/
theorem test_clearAcc : after State.acc ({ State.reset with acc := ['X'] }) 8 0xA3 = some [] := by decide +kernel

/-- Program P2, step 1. -/
theorem test_armCompress :
    after (fun t => (t.cmp, t.pnl)) (State.reset) 8 0xE4 = some (true, false) := by
  decide +kernel

/-- Vector T24: the Value is kept, and pushed back. -/
theorem test_storeNot :
    after (fun t => (t.rNot, t.rEq, t.stk)) (onStack [num 5]) 8 0x83 = some (num 5, .text [], [num 5]) := by
  decide +kernel

/-- Vector T26. -/
theorem test_storeEq :
    after (fun t => (t.rEq, t.rNot, t.stk)) (onStack [.text ['Q']]) 8 0x84 = some (.text ['Q'], .text [], [.text ['Q']]) := by
  decide +kernel

/-- Vector T27. -/
theorem test_storeN :
    after (fun t => (t.rN, t.rEq, t.stk)) (onStack [num 7]) 8 0x85 = some (num 7, .text [], [num 7]) := by
  decide +kernel

/-- Vector T18, program P4: the last character ends on top. -/
theorem test_explode :
    after (fun t => (t.stk, t.acc)) ({ State.reset with acc := ['a', 'b', 'c'] }) 8 0x86 = some ([.text ['a'], .text ['b'], .text ['c']], []) := by
  decide +kernel

/-- R224. -/
theorem test_upperAlpha :
    after State.stk (onStack []) 8 0xC1 = some [.text ['A', 'B', 'C', 'D', 'E', 'F', 'G', 'H', 'I', 'J', 'K', 'L', 'M', 'N', 'O', 'P', 'Q', 'R', 'S', 'T', 'U', 'V', 'W', 'X', 'Y', 'Z']] := by
  decide +kernel

/-- Vector T30. -/
theorem test_lowerAlpha :
    after State.stk (onStack []) 8 0xE1 = some [.text ['a', 'b', 'c', 'd', 'e', 'f', 'g', 'h', 'i', 'j', 'k', 'l', 'm', 'n', 'o', 'p', 'q', 'r', 's', 't', 'u', 'v', 'w', 'x', 'y', 'z']] := by
  decide +kernel

/-- Vector T32: 95 characters. -/
theorem test_printable :
    after (fun t => (t.stk.mapM fun v => match v with | .text x => some x.length | _ => none)) (onStack []) 8 0xDA = some (some [95]) := by
  decide +kernel

/-- Vector T31. -/
theorem test_space : after State.stk (onStack []) 8 0xD3 = some [.text [' ']] := by decide +kernel

/-- Vector Q1. -/
theorem test_concat :
    after State.stk (onInput [['a', 'b'], ['c', 'd']]) 8 0xE3 = some [.text ['a', 'b', 'c', 'd']] := by
  decide +kernel

/-- Vector Q2. -/
theorem test_revConcat :
    after State.stk (onInput [['a', 'b'], ['c', 'd']]) 8 0xE2 = some [.text ['c', 'd', 'a', 'b']] := by
  decide +kernel

/-- Vector Q7: the number on top. -/
theorem test_index :
    after State.stk (onStack [.text ['h', 'e', 'l', 'l', 'o'], num 2]) 8 0xC0 = some [.text ['l']] := by
  decide +kernel

/-- Vector Q6. -/
theorem test_index_past_end :
    after State.stk (onStack [.text ['h', 'e', 'l', 'l', 'o'], num 9]) 8 0xC0 = some [.text []] := by
  decide +kernel

/-- Vector Q12: the container on top. -/
theorem test_head :
    after State.stk (onStack [num 2, .text ['a', 'b', 'c']]) 8 0xC8 = some [.text ['a', 'b']] := by
  decide +kernel

/-- Vector Q15: a sequence stays a sequence. -/
theorem test_head_of_seq :
    after State.stk (onStack [Value.ofList [num 0, num 1, num 2], num 2]) 8 0xC8 = some [Value.ofList [num 0, num 1]] := by
  decide +kernel

/-- Vector S3. -/
theorem test_tail :
    after State.stk (onStack [.text ['A', 'd', 'm', 'B', 'o', 'r', 'k', 'B', 'o', 'r', 'k'], num 2]) 8 0xD4 = some [.text ['r', 'k']] := by
  decide +kernel

/-- Vector Q13: the odd one left over is on the right. -/
theorem test_centre :
    after State.stk (onStack [.text ['a', 'b', 'c', 'd', 'e', 'f', 'g'], num 4]) 8 0xC3 = some [.text ['b', 'c', 'd', 'e']] := by
  decide +kernel

/-- Vector Q22: both spaces are kept. -/
theorem test_titleCase :
    after State.stk (onStack [.text ['h', 'E', 'L', 'L', 'O', ' ', ' ', 'w', 'O', 'R', 'L', 'D']]) 8 0xF4 = some [.text ['H', 'e', 'l', 'l', 'o', ' ', ' ', 'W', 'o', 'r', 'l', 'd']] := by
  decide +kernel

/-- Vector Q20. -/
theorem test_apaTitle :
    after State.stk (onStack [.text ['a', ' ', 't', 'a', 'l', 'e', ':', ' ', 't', 'h', 'e', ' ', 'e', 'n', 'd', ' ', 'o', 'f', ' ', 'i', 't']]) 16 0x87F4 = some [.text ['A', ' ', 'T', 'a', 'l', 'e', ':', ' ', 'T', 'h', 'e', ' ', 'E', 'n', 'd', ' ', 'o', 'f', ' ', 'I', 't']] := by
  decide +kernel

/-- Vector Q21. -/
theorem test_capitalise :
    after State.stk (onStack [.text ['h', 'E', 'L', 'L', 'O', ' ', 'w', 'O', 'R', 'L', 'D']]) 8 0xE9 = some [.text ['H', 'e', 'l', 'l', 'o', ' ', 'w', 'o', 'r', 'l', 'd']] := by
  decide +kernel

/-- Vector Q15. -/
theorem test_join :
    after State.stk (onStack [Value.ofList [num 0, num 1], .text [',']]) 8 0xEA = some [.text ['0', ',', '1']] := by
  decide +kernel

/-- Vector Q28. -/
theorem test_join_text :
    after State.stk (onStack [.text ['a', 'b', 'c'], .text ['-']]) 8 0xEA = some [.text ['a', '-', 'b', '-', 'c']] := by
  decide +kernel

/-- Vector Q30: from the operand popped first down to the other. -/
theorem test_range :
    after State.stk (onStack [.text ['a'], .text ['c']]) 8 0xF2 = some [Value.ofList [.text ['c'], .text ['b'], .text ['a']]] := by
  decide +kernel

/-- Vector Q32. -/
theorem test_range_numeric :
    after State.stk (onStack [num 3, num 5]) 8 0xF2 = some [Value.ofList [num 5, num 4, num 3]] := by
  decide +kernel

/-- Vector Q27. -/
theorem test_zeroRange :
    after State.stk (onStack [num 2]) 8 0xD2 = some [Value.ofList [num 0, num 1]] := by
  decide +kernel

/-- Vector Q26. -/
theorem test_zeroRange_empty : after State.stk (onStack [num 0]) 8 0xD2 = some [Value.ofList []] := by decide +kernel

/-- Vector T19. -/
theorem test_dump :
    after (fun t => (t.log, t.stk)) (onStack []) 16 0x87C4 = some ([.dump [] [] (.text []) (.text []) (.text []) false false 0], []) := by
  decide +kernel

/-- Vector T23. -/
theorem test_unimplCmd :
    after (fun t => (t.log, t.stk)) (onStack [num 2]) 8 0xA0 = some ([.unknownCommand [32]], [num 2]) := by
  decide +kernel

/-- Vector T20. -/
theorem test_unimplExt :
    after (fun t => (t.log, t.stk)) (onStack []) 16 0x87F8 = some ([.unknownCommand [7, 120]], []) := by
  decide +kernel

/-- Vector T21. -/
theorem test_bad_sesc :
    after (fun t => (t.log, t.stk)) (onStack [num 5]) 8 0xA7 = some ([.unknownCommand [39]], [num 5]) := by
  decide +kernel

/-- Vector T22. -/
theorem test_bad_ext :
    after (fun t => (t.log, t.stk)) (onStack [num 5]) 8 0x87 = some ([.unknownCommand [7]], [num 5]) := by
  decide +kernel

/-- Vector T24: a register symbol becomes the register's text. -/
theorem test_literal_register :
    after State.acc ({ State.reset with rNot := num 5, acc := ['='] }) 8 0x03 = some ['=', '5'] := by
  decide +kernel

/-- Vectors T17, T16: the byte 61 decodes to `i` and a space, is pushed, and both flags are consumed. -/
theorem test_literal_compressed :
    after (fun t => (t.stk, t.cmp, t.pnl)) ({ State.reset with cmp := true, pnl := true }) 8 0x61 = some ([.text ['i', ' ']], false, false) := by
  decide +kernel

/-- INSTRUCTION-BYTE: the byte of `+` adds, the byte of an unused symbol logs (R70, R82). -/
theorem test_instructionByte :
    (match exec (.instructionByte 43) (onStack [num 2, num 3]) with
      | .next t => t.stk
      | _ => []) = [num 5] ∧
    (match exec (.instructionByte 0) State.reset with
      | .next t => t.log
      | _ => []) = [.unknownCommand [0]] := by
  decide +kernel

/-! ## Sections and the end of a run -/

/-- R168, R34: the top is printed, the stack and the cursor are reset. -/
theorem test_endOfSection : State.endOfSection { onStack [num 1, num 5] with acc := ['x'], icur := 3 } =
    { State.reset with acc := ['x', '5'] } := by decide +kernel

/-- R168: with push-next-literal armed nothing is printed and nothing is reset. -/
theorem test_endOfSection_armed : (State.endOfSection { onStack [num 5] with pnl := true }).stk = [num 5] := by
  decide +kernel

/-- R52: a blob ending in a line feed gives a last empty line; the empty blob gives none. -/
theorem test_cutInput : cutInput ['a', '\n', 'b', '\n'] = [['a'], ['b'], []] ∧ cutInput [] = [] := by decide

/-- R6, R294, U8: over a capacity a host operation is refused, at the capacity it is not; `PACK`'s operand, `TOBYTES`'
Text, `TOLITERATE`'s and `COMPRESS`'s result, an input line. -/
theorem test_capacity :
    (match hostOp (.pack 2) small with | .refused .capacityExceeded => true | _ => false) = true ∧
    (match hostOp (.pack 1) small with | .next _ => true | _ => false) = true ∧
    (match hostOp (.toBytes ['a', 'a', 'a']) small with | .refused .capacityExceeded => true | _ => false) = true ∧
    (match hostOp (.toBytes ['a', 'a']) small with | .next _ => true | _ => false) = true ∧
    (match hostOp (.toLiterate [0x41, 0x41]) small with | .refused .capacityExceeded => true | _ => false) = true ∧
    (match hostOp (.compress ['a']) small with | .refused .capacityExceeded => true | _ => false) = true ∧
    (match hostOp (.run [] [['a', 'a', 'a']]) small with | .refused .capacityExceeded => true | _ => false) = true ∧
    (match hostOp (.run [] [['a', 'a']]) small with | .next _ => true | _ => false) = true := by
  decide +kernel

/-! ## The compression engine and the transcoder -/

/-- Vectors K1, K9, K12, K27, K7. -/
theorem test_encodeText : encodeText refcfg ['t', 'h', 'e', ' ', 'c', 'a', 't'] = 583 ∧
    encodeText refcfg ['C', 'A', 'T'] = 56 ∧ encodeText refcfg ['t', 'h', 'e', 'C', 'A', 'T'] = 1873 ∧
    encodeText refcfg ['é'] = 3 ∧ encodeText refcfg [] = 0 := by decide +kernel

/-- Section 2.4: 583, 59, 286 and the non-canonical 288. -/
theorem test_decodeNat : decodeNat refcfg 583 = ['t', 'h', 'e', ' ', 'c', 'a', 't'] ∧
    decodeNat refcfg 59 = [' ', 'c', 'a', 't'] ∧
    decodeNat refcfg 286 = ['c', 'o', 'm', 'p', 'r', 'e', 's', 's', ' ', 'i'] ∧
    decodeNat refcfg 288 = [Char.ofNat 31, ' ', 'a'] := by decide +kernel

/-- Vectors of section 2.3: `PACK(0)`, `PACK(583)`, `PACK(16384)`. -/
theorem test_pack : pack refcfg 0 = [0xE4, 0x00] ∧ pack refcfg 583 = [0xE4, 0x04, 0x47] ∧
    pack refcfg 16384 = [0xE4, 0x01, 0x00, 0x00] := by decide +kernel

/-- Section 2.4. -/
theorem test_unpack : unpack [0, 0, 4, 71] = 583 ∧ unpack [] = 0 ∧ unpack [127, 127] = 16383 := by decide +kernel

/-- The trie finds the longer of two nested words, and nothing where no word starts (K4, K5). -/
theorem test_trieLookup : trieLookup (trieBuild refcfg.dictL) ['t', 'h', 'e', 'o', 'r', 'y', '!'] = (6, some 1) ∧
    trieLookup (trieBuild refcfg.dictL) ['x'] = (0, none) := by decide +kernel

/-- Vector X2: the separator symbol is escaped in both kinds. -/
theorem test_toLiterate : toLiterate refcfg [0xE1, 0x08, 0x88, 0x7A] =
    ['a', '¶', '\\', '¶', '¶', '\\', '¶', '¶', 'z'] := by decide +kernel

/-- Vectors X7 (in short), X8, X12. -/
theorem test_toBytes : toBytes refcfg ['"', 's', '\\', '"', 'h', '"', 'c'] = [0xA2, 0x73, 0x22, 0x68, 0xE3] ∧
    toBytes refcfg ['"', 'a', '¶', 'b', '"'] = [0xA2, 0x61, 0x08, 0x62] ∧ toBytes refcfg ['é'] = [0xA0] := by
  decide +kernel

/-- Vector A20. -/
theorem test_toNum : toNum (.text ['-', '0']) = .fin true 0 0 ∧
    toNum (.text ['3', '.', '5', '0']) = .fin false 1024 0xC000000000000 ∧ toNum (.text ['5', '.']) = .nan ∧
    toNum (.text ['.', '5']) = .nan ∧ toNum (.text ['+', '1']) = .nan := by decide +kernel

/-- Vector A21. -/
theorem test_numText : numText (F64.ofNat 5).neg = ['-', '5'] ∧ numText (F64.zero true) = ['0'] ∧
    numText (F64.ofNat 9007199254740992) = ['9', '0', '0', '7', '1', '9', '9', '2', '5', '4', '7', '4', '0', '9', '9', '2'] ∧
    numText (.inf true) = ['-', 'I', 'n', 'f', 'i', 'n', 'i', 't', 'y'] := by decide +kernel

/-! ## Values that meet the hypotheses of the statements

One theorem per clause of a statement of Certificates/Slice0/Obligations.lean that has hypotheses. -/

/-- The program `$¶-¶c` of vector T11 loaded, with its two input lines. -/
def loaded : State := State.reset.startRun [0xA4, 0x2D, 0xE3] [['a', 'b'], ['c', 'd']]

theorem witness_CodePageContract :
    '+' ∈ Config.commandGlyphs ++ Config.digitGlyphs ∧ '9' ∈ Config.commandGlyphs ++ Config.digitGlyphs ∧
    refcfg.glyph 43 = '+' ∧ refcfg.glyph 57 = '9' := by decide +kernel

theorem witness_DecodeOfEncode :
    (Instr.num [1, 2]).wf refcfg = true ∧ mayFollow refcfg (.num [1, 2]) [0xAB] = true ∧
    (Instr.bad .sesc).wf refcfg = true ∧ mayFollow refcfg (.bad .sesc) [0x41] = true ∧
    (Instr.literal [65]).wf refcfg = true ∧ mayFollow refcfg (.literal [65]) [] = true ∧
    (Instr.unimplExt 127).wf refcfg = true ∧ mayFollow refcfg (.unimplExt 127) [0x00] = true ∧
    ∀ q, Instr.num [1, 2] ≠ .instructionByte q ∧ Instr.bad .sesc ≠ .instructionByte q ∧
      Instr.literal [65] ≠ .instructionByte q ∧ Instr.unimplExt 127 ≠ .instructionByte q :=
  ⟨by decide +kernel, by decide +kernel, by decide +kernel, by decide +kernel, by decide +kernel, by decide +kernel,
    by decide +kernel, by decide +kernel, fun _ => ⟨nofun, nofun, nofun, nofun⟩⟩

theorem witness_SplitIsLosslessAndAlternates :
    (split [0x41])[0]? = some ⟨.instruction, []⟩ ∧ (split [0x41])[1]? = some ⟨.literal, [65]⟩ := by decide +kernel

theorem witness_StepRunsWhatPcSelects_token :
    loaded.unlimited = true ∧ loaded.fetch = .token .drop ∧ exec .drop loaded = .next { loaded with icur := 1 } :=
  ⟨by decide +kernel, by decide +kernel, rfl⟩

theorem witness_StepRunsWhatPcSelects_literal :
    ({ loaded with pc := ⟨1, 0⟩ } : State).unlimited = true ∧ ({ loaded with pc := ⟨1, 0⟩ } : State).fetch = .literal [45] ∧
    ∃ t, exec (.literal [45]) { loaded with pc := ⟨1, 0⟩ } = .next t :=
  ⟨by decide +kernel, by decide +kernel, _, rfl⟩

theorem witness_StepRunsWhatPcSelects_boundary :
    ({ loaded with pc := ⟨0, 1⟩ } : State).unlimited = true ∧ ({ loaded with pc := ⟨0, 1⟩ } : State).fetch = .boundary := by
  decide +kernel

theorem witness_StepRunsWhatPcSelects_ended :
    ({ loaded with pc := ⟨3, 0⟩ } : State).unlimited = true ∧ ({ loaded with pc := ⟨3, 0⟩ } : State).fetch = .ended ∧
    ({ loaded with pc := ⟨3, 0⟩ } : State).result = none ∧
    ({ loaded with pc := ⟨3, 0⟩, result := some [] } : State).result = some [] := by
  decide +kernel

theorem witness_StepRunsTheDecodedInstruction_token :
    loaded.unlimited = true ∧ decode loaded.cfg.val loaded.bytesAtPc = .ok (.drop, [0x2D, 0xE3]) ∧
    loaded.fetch ≠ .boundary ∧ exec .drop loaded = .next { loaded with icur := 1 } :=
  ⟨by decide +kernel, by decide +kernel, by decide +kernel, rfl⟩

theorem witness_StepRunsTheDecodedInstruction_literal :
    ({ loaded with pc := ⟨1, 0⟩ } : State).unlimited = true ∧
    decode loaded.cfg.val ({ loaded with pc := ⟨1, 0⟩ } : State).bytesAtPc = .ok (.literal [45], [0xE3]) ∧
    ({ loaded with pc := ⟨1, 0⟩ } : State).fetch ≠ .boundary ∧
    ∃ t, exec (.literal [45]) { loaded with pc := ⟨1, 0⟩ } = .next t :=
  ⟨by decide +kernel, by decide +kernel, by decide +kernel, _, rfl⟩

/-- A state in the middle of a run: `$` done, its section not ended, a value on the stack. -/
theorem witness_StepKeepsInvariant :
    ({ loaded with pc := ⟨0, 1⟩, icur := 1, stk := [num 7] } : State).Inv ∧
    ∃ t, step { loaded with pc := ⟨0, 1⟩, icur := 1, stk := [num 7] } = .next t := by
  refine ⟨⟨by decide +kernel, by decide +kernel, by decide +kernel, ?_, ?_, ?_⟩, _, rfl⟩
  · intro sec _ _ h; exact absurd h (by decide)
  · intro sec h hk _
    have e : (⟨.instruction, [36]⟩ : Section) = sec := Option.some.inj ((by decide +kernel :
      ({ loaded with pc := ⟨0, 1⟩ } : State).sections[0]? = some ⟨.instruction, [36]⟩).symm.trans h)
    subst e; exact nomatch hk
  · intro r h; exact nomatch h

theorem witness_StepKeepsRunParameters : step loaded = .next { loaded with icur := 1, pc := ⟨0, 1⟩ } := rfl

theorem witness_PcOnlyMovesForward :
    (∃ t, step loaded = .next t) ∧ (∃ t, step { loaded with pc := ⟨1, 0⟩ } = .next t) ∧
    ∃ t, step { loaded with pc := ⟨3, 0⟩ } = .next t := ⟨⟨_, rfl⟩, ⟨_, rfl⟩, _, rfl⟩

theorem witness_NoStepTraps :
    loaded.unlimited = true ∧ step ((small.push (num 1)).withFetchWord 8 0xB1) = .refused .capacityExceeded ∧
    step ({ small with cmp := true }.withFetchWord 8 0x03) = .refused .capacityExceeded ∧
    step { loaded with pc := ⟨3, 0⟩, result := some [] } = .fault .runEnded :=
  ⟨by decide +kernel, rfl, rfl, rfl⟩

theorem witness_StepKeepsCapacity :
    (small.withFetchWord 8 0xB1).withinCapacity = true ∧ ∃ t, step (small.withFetchWord 8 0xD3) = .next t :=
  ⟨by decide +kernel, _, rfl⟩

theorem witness_EveryRunEnds : State.reset.unlimited = true ∧ loaded.unlimited = true := by decide +kernel

theorem witness_HostRunWritesResult : loaded.unlimited = true := by decide +kernel

theorem witness_HostRunForgetsTheState :
    ({ loaded with rNot := num 3 } : State).cfg = loaded.cfg ∧ ∃ t, hostRun [0xD3] [] loaded = .next t := ⟨rfl, _, rfl⟩

theorem witness_HostOperationsAreTotal :
    State.reset.unlimited = true ∧ loaded.cfg = State.reset.cfg ∧
    ∀ bytes input, HostOp.encode ['é'] ≠ .run bytes input := ⟨by decide +kernel, rfl, nofun⟩

theorem witness_NoStepReadsTheLog : ∃ t, step (State.reset.withFetchWord 8 0xA0) = .next t := ⟨_, rfl⟩

theorem witness_NoStepReadsHiddenState : ∃ t, step ({ State.reset with cmp := true }.withFetchWord 8 0x61) = .next t :=
  ⟨_, rfl⟩

/-- All three sources of the pop protocol. -/
theorem witness_PopAlwaysYieldsOneValue :
    PopsTo (onStack [num 1, num 2]) (num 2) (onStack [num 1]) ∧
    PopsTo (onInput [['x']]) (.text ['x']) { onInput [['x']] with icur := 1 } ∧
    PopsTo { State.reset with acc := ['y'] } (.text ['y']) State.reset :=
  ⟨.inl ⟨[num 1], rfl, rfl⟩, .inr (.inl ⟨rfl, ['x'], rfl, rfl, rfl⟩), .inr (.inr ⟨rfl, by decide, rfl, rfl⟩)⟩

theorem witness_EndOfSectionPrintsTheTop :
    ({ loaded with pc := ⟨0, 1⟩, pnl := true } : State).fetch = .boundary ∧
    ({ loaded with pc := ⟨0, 1⟩, pnl := false, stk := [] } : State).fetch = .boundary ∧
    ({ loaded with pc := ⟨0, 1⟩, stk := [num 1] ++ [num 2] } : State).fetch = .boundary ∧
    ({ loaded with pc := ⟨0, 1⟩ } : State).unlimited = true := by decide +kernel

theorem witness_PlainLiteralSubstitutesAndRoutes :
    State.reset.cmp = false ∧ ({ State.reset with pnl := true } : State).cmp = false := ⟨rfl, rfl⟩

theorem witness_CompressedLiteralDecodesAndRoutes :
    ({ State.reset with cmp := true } : State).cmp = true ∧ ({ State.reset with cmp := true, pnl := true } : State).cmp = true :=
  ⟨rfl, rfl⟩

/-- The digits of one turn of `DECODE`: the smallest and the largest character digit, the last word, the last flag. -/
theorem witness_CompressedLiteralDecodesAndRoutes_turn :
    (0 < 96 ∧ 0 < 96 * 1 + 0) ∧ (95 < 96 ∧ 0 < 96 * 0 + 95) ∧ (refcfg.dict .short)[4]? = some ['o', 'f'] ∧
    (refcfg.dict .long)[0]? = some ['c', 'h', 'o', 'i', 'r'] ∧ 2 < 3 := by decide +kernel

theorem witness_OneOperandArithmetic : PopsTo (onStack [num 5]) (num 5) (onStack []) := .inl ⟨[], rfl, rfl⟩

/-- The first operand from the stack, the second from the input. -/
theorem witness_TwoOperandArithmetic :
    PopsTo { onInput [['2']] with stk := [num 7] } (num 7) (onInput [['2']]) ∧
    PopsTo (onInput [['2']]) (.text ['2']) { onInput [['2']] with icur := 1 } :=
  ⟨.inl ⟨[], rfl, rfl⟩, .inr (.inl ⟨rfl, ['2'], rfl, rfl, rfl⟩)⟩

/-- Finite operands: 1 and −0, a zero divisor shut out, the smallest positive datum as divisor. -/
theorem witness_TwoOperandArithmetic_finite :
    F64.ofNat 1 = .fin false 1023 0 ∧ (F64.ofNat 1).units = some (2 ^ 1074) ∧ (F64.zero true).units = some 0 ∧
    (F64.fin false 0 1).units = some 1 ∧ (1 : Int) ≠ 0 := by decide +kernel

theorem witness_StackCommands :
    PopsTo (onStack [num 1, num 2]) (num 2) (onStack [num 1]) ∧ PopsTo (onStack [num 1]) (num 1) (onStack []) :=
  ⟨.inl ⟨[num 1], rfl, rfl⟩, .inl ⟨[], rfl, rfl⟩⟩

theorem witness_StoreCommandsWriteTheirRegister : PopsTo (onStack [num 5]) (num 5) (onStack []) := .inl ⟨[], rfl, rfl⟩

theorem witness_ConcatenationCommands :
    PopsTo (onStack [.text ['a'], .text ['b']]) (.text ['b']) (onStack [.text ['a']]) ∧
    PopsTo (onStack [.text ['a']]) (.text ['a']) (onStack []) := ⟨.inl ⟨[.text ['a']], rfl, rfl⟩, .inl ⟨[], rfl, rfl⟩⟩

/-- A fraction, and 2^53 + 2, the smallest datum above 2^53. -/
theorem witness_ConcatenationCommands_open :
    (F64.fin false 0 1).units = some 1 ∧ ¬ ((2 : Int) ^ 1074 ∣ 1) ∧
    (F64.fin false 1076 1).units = some ((2 ^ 53 + 2) * 2 ^ 1074) ∧
    2 ^ 53 * 2 ^ 1074 < ((2 ^ 53 + 2) * 2 ^ 1074 : Int).natAbs := by decide +kernel

/-- The number on top: the first and the last index, and one past the end. -/
theorem witness_IndexAndSliceCommands_number_on_top :
    PopsTo (onStack [.text ['a', 'b'], num 1]) (num 1) (onStack [.text ['a', 'b']]) ∧
    PopsTo (onStack [.text ['a', 'b']]) (.text ['a', 'b']) (onStack []) ∧
    (∃ y, num 1 = .num y ∧ F64.ofNat 1 = y ∧ (.text ['a', 'b'] : Value) = .text ['a', 'b']) ∧
    (F64.ofNat 0).units = some ((0 * 2 ^ 1074 : Nat) : Int) ∧ (F64.ofNat 1).units = some ((1 * 2 ^ 1074 : Nat) : Int) ∧
    1 < (asList (.text ['a', 'b'])).length ∧
    ∀ k : Nat, k < 2 → (F64.ofNat 2).units ≠ some ((k * 2 ^ 1074 : Nat) : Int) :=
  ⟨.inl ⟨[.text ['a', 'b']], rfl, rfl⟩, .inl ⟨[], rfl, rfl⟩, ⟨_, rfl, rfl, rfl⟩, by decide +kernel, by decide +kernel,
    by decide, by decide +kernel⟩

/-- The container on top: a Text that is no number is the container, the operand below it the count. -/
theorem witness_IndexAndSliceCommands_container_on_top :
    PopsTo (onStack [.text ['2'], .text ['a', 'b']]) (.text ['a', 'b']) (onStack [.text ['2']]) ∧
    PopsTo (onStack [.text ['2']]) (.text ['2']) (onStack []) ∧
    (∀ y, (.text ['a', 'b'] : Value) ≠ .num y) ∧ F64.ofNat 2 = toNum (.text ['2']) :=
  ⟨.inl ⟨[.text ['2']], rfl, rfl⟩, .inl ⟨[], rfl, rfl⟩, nofun, by decide +kernel⟩

/-- Counts: a negative number, −0, a fraction below 1. -/
theorem witness_IndexAndSliceCommands_count :
    (F64.ofNat 1).neg.units = some (-(2 ^ 1074)) ∧ (F64.zero true).units = some 0 ∧
    (F64.fin false 1022 0).units = some (2 ^ 1073) := by decide +kernel

theorem witness_TextSlicesByWholeNumbers :
    0 ≤ 2 ^ 53 ∧ (0 : Nat) = min 0 1 ∧ (onStack [.text ['a'], num 0]).stk = [] ++ [.text ['a'], .num (F64.ofNat 0)] ∧
    2 ^ 53 ≤ 2 ^ 53 ∧ (1 : Nat) = min (2 ^ 53) 1 ∧
    (onStack [num (2 ^ 53), .text ['a']]).stk = [] ++ [.num (F64.ofNat (2 ^ 53)), .text ['a']] :=
  ⟨by decide, by decide, rfl, by decide, by decide, rfl⟩

theorem witness_CaseCommands : PopsTo (onStack [.text ['a', ' ', 'b']]) (.text ['a', ' ', 'b']) (onStack []) :=
  .inl ⟨[], rfl, rfl⟩

/-- The second word of `a of` is lowered, its first is not. -/
theorem witness_WordsAndTitleCase :
    ([['a'], ['o', 'f']] : List Text)[0]? = some ['a'] ∧ ([['a'], ['o', 'f']] : List Text)[1]? = some ['o', 'f'] ∧
    ((([['a'], ['o', 'f']] : List Text).take 1).filter fun v => !v.isEmpty).getLast? = some ['a'] ∧
    ((([['a'], ['o', 'f']] : List Text).take 0).filter fun v => !v.isEmpty).getLast? = none := by decide

/-- A sequence on top; and a Text on top with the sequence below it. -/
theorem witness_JoinCommand :
    PopsTo (onStack [.text [','], Value.ofList [num 0]]) (.seq (Values.ofList [num 0])) (onStack [.text [',']]) ∧
    PopsTo (onStack [.text [',']]) (.text [',']) (onStack []) ∧
    PopsTo (onStack [Value.ofList [num 0], .text [',']]) (.text [',']) (onStack [Value.ofList [num 0]]) ∧
    PopsTo (onStack [Value.ofList [num 0]]) (Value.ofList [num 0]) (onStack []) ∧
    ∀ vs, (.text [','] : Value) ≠ .seq vs :=
  ⟨.inl ⟨[.text [',']], rfl, rfl⟩, .inl ⟨[], rfl, rfl⟩, .inl ⟨[Value.ofList [num 0]], rfl, rfl⟩, .inl ⟨[], rfl, rfl⟩, nofun⟩

theorem witness_RangeCommand_characters :
    PopsTo (onStack [.text ['c'], .text ['a']]) (.text ('a' :: [])) (onStack [.text ['c']]) ∧
    PopsTo (onStack [.text ['c']]) (.text ('c' :: [])) (onStack []) :=
  ⟨.inl ⟨[.text ['c']], rfl, rfl⟩, .inl ⟨[], rfl, rfl⟩⟩

/-- Numeric ranges: an end that is no number; two equal ends; a number on top of a Text. -/
theorem witness_RangeCommand_numbers :
    PopsTo (onStack [.text ['3'], num 3]) (num 3) (onStack [.text ['3']]) ∧
    PopsTo (onStack [.text ['3']]) (.text ['3']) (onStack []) ∧
    (∀ (a : Char) (as : Text) (b : Char) (bs : Text), ¬ (num 3 = .text (a :: as) ∧ Value.text ['3'] = .text (b :: bs))) ∧
    (toNum (num 3)).units = some ((3 * 2 ^ 1074 : Nat) : Int) ∧
    (toNum (.text ['3'])).units = some ((3 * 2 ^ 1074 : Nat) : Int) ∧
    (toNum (.text [])).units = none ∧ (toNum (.num (.inf true))).units = none :=
  ⟨.inl ⟨[.text ['3']], rfl, rfl⟩, .inl ⟨[], rfl, rfl⟩, (by rintro _ _ _ _ ⟨h, -⟩; cases h), by decide +kernel, by decide +kernel,
    by decide +kernel, by decide +kernel⟩

/-- First ends with a fraction: 0.5 and −0.5. -/
theorem witness_RangeCommand_elements :
    (F64.fin false 1022 0).units = some (2 ^ 1073) ∧ (F64.fin true 1022 0).units = some (-(2 ^ 1073)) := by
  decide +kernel

/-- No number; zero, the greatest number that gives nothing; the smallest positive number; 1. -/
theorem witness_ZeroRangeCommand :
    PopsTo (onStack [num 0]) (num 0) (onStack []) ∧ (toNum (.text [])).units = none ∧
    (toNum (num 0)).units = some 0 ∧ (toNum (.num (.fin false 0 1))).units = some ((1 : Nat) : Int) ∧
    (toNum (num 1)).units = some ((2 ^ 1074 : Nat) : Int) :=
  ⟨.inl ⟨[], rfl, rfl⟩, by decide +kernel, by decide +kernel, by decide +kernel, by decide +kernel⟩

theorem witness_WholeNumberRanges :
    (onStack [num 5, num 3]).stk = [] ++ [.num (F64.ofNat 5), .num (F64.ofNat 3)] ∧ 3 ≤ 2 ^ 53 ∧ 5 ≤ 2 ^ 53 ∧
    (onStack [num 0]).stk = [] ++ [.num (F64.ofNat 0)] ∧ 2 ^ 53 ≤ 2 ^ 53 :=
  ⟨rfl, by decide, by decide, rfl, by decide⟩

theorem witness_OnlyStoresWriteRegisters :
    exec .space State.reset = .next (onStack [.text [' ']]) ∧ selected refcfg .space ≠ .storeNot ∧
    selected refcfg .space ≠ .storeEq ∧ selected refcfg .space ≠ .storeN := ⟨rfl, nofun, nofun, nofun⟩

theorem witness_FlagWriters :
    exec .armCompress State.reset = .next { State.reset with cmp := true } ∧
    selected refcfg .armCompress = .armCompress ∧ exec .armPush State.reset = .next { State.reset with pnl := true } ∧
    selected refcfg .armPush = .armPush ∧ (∃ t, exec (.literal [65]) State.reset = .next t) ∧
    exec .space State.reset = .next (onStack [.text [' ']]) ∧ selected refcfg .space ≠ .armCompress ∧
    selected refcfg .space ≠ .armPush ∧ ∀ syms, Instr.space ≠ .literal syms :=
  ⟨rfl, rfl, rfl, rfl, ⟨_, rfl⟩, rfl, nofun, nofun, nofun⟩

theorem witness_NothingBelowTheOperandsChanges :
    (onStack [num 9, .text ['a'], .text ['b']]).stk = [num 9] ++ [.text ['a'], .text ['b']] ∧
    (∃ t, exec .concat (onStack [num 9, .text ['a'], .text ['b']]) = .next t) ∧
    selected refcfg .concat ≠ .clearAcc ∧ selected refcfg .concat ≠ .explode ∧ ∀ syms, Instr.concat ≠ .literal syms :=
  ⟨rfl, ⟨_, rfl⟩, nofun, nofun, nofun⟩

theorem witness_ExecFrame :
    exec .space State.reset = .next (onStack [.text [' ']]) ∧ (∀ syms, Instr.space ≠ .literal syms) ∧
    (∀ q, selected refcfg .space ≠ .unimplCmd q) ∧ (∀ e, selected refcfg .space ≠ .unimplExt e) ∧
    (∀ p, selected refcfg .space ≠ .bad p) ∧ selected refcfg .space ≠ .dump := ⟨rfl, nofun, nofun, nofun, nofun, nofun⟩

theorem witness_RoundingIsNearestTiesToEven : 0 < 1 := by decide

/-- The smallest and the largest nonzero finite magnitude. -/
theorem witness_SpecialValues : F64.magnitude 0 1 ≠ 0 ∧ F64.magnitude 2046 0xFFFFFFFFFFFFF ≠ 0 := by decide +kernel

theorem witness_WholeNumbersPrintAndReadBack : 0 ≤ 2 ^ 53 ∧ 0 < 1 ∧ 1 ≤ 2 ^ 53 ∧ 0 < 2 ^ 53 ∧ 2 ^ 53 ≤ 2 ^ 53 := by decide

theorem witness_ToNumFollowsTheGrammar :
    ([0] : List Digit) ≠ [] ∧ ([9] : List Digit) ≠ [] ∧
    ∃ ch ∈ ['1', 'e', '3'], ch ≠ '-' ∧ ch ≠ '.' ∧ ∀ d : Digit, ch ≠ digitGlyph d :=
  ⟨nofun, nofun, 'e', by simp, by decide, by decide, by decide⟩

/-- `-` alone is no numeral: it has no digit. -/
theorem witness_ToNumFollowsTheGrammar_shape :
    ¬ ∃ (neg : Bool) (w f : List Digit), w ≠ [] ∧
      (['-'] = (if neg then ['-'] else []) ++ w.map digitGlyph ∨
       f ≠ [] ∧ ['-'] = (if neg then ['-'] else []) ++ w.map digitGlyph ++ '.' :: f.map digitGlyph) := by
  have h : ∀ d : Digit, '-' ≠ digitGlyph d := by decide
  rintro ⟨neg, w, f, hw, e | ⟨-, e⟩⟩ <;> obtain ⟨d, w, rfl⟩ := List.exists_cons_of_ne_nil hw <;> cases neg <;>
    simp_all

/-- The two ends of 32..126. -/
theorem witness_CodecRoundTrip : ∀ ch ∈ [' ', '~'], 32 ≤ ch.toNat ∧ ch.toNat ≤ 126 := by simp

theorem witness_EncodeLogsItsSubstitutions : State.reset.unlimited = true := by decide +kernel

theorem witness_LongestMatchIsLongest :
    Config.dictWf [['t', 'h', 'e'], ['t', 'h', 'e', 'o', 'r', 'y']] = true ∧
    longestMatch [['t', 'h', 'e'], ['t', 'h', 'e', 'o', 'r', 'y']] ['t', 'h', 'e', 'm'] = (3, some 0) ∧
    ∀ w ∈ [['t', 'h', 'e'], ['t', 'h', 'e', 'o', 'r', 'y']], ¬ w <+: ['x'] := by
  refine ⟨by decide, by decide, ?_⟩
  simp

/-- A text whose best match is the word `the`, and one with none. -/
theorem witness_LongestMatchIsLongest_best :
    bestMatch refcfg ['t', 'h', 'e', 'm'] = some ⟨3, 2, .short, false⟩ ∧ bestMatch refcfg ['x'] = none := by
  decide +kernel

theorem witness_TrieLookupIsLongestMatch : Config.dictWf refcfg.dictS = true ∧ Config.dictWf refcfg.dictL = true := by
  decide +kernel

theorem witness_PackedTextRunsToItself :
    State.reset.unlimited = true ∧ ∀ ch ∈ ['H', 'i', '!'], 32 ≤ ch.toNat ∧ ch.toNat ≤ 126 :=
  ⟨by decide +kernel, by simp⟩

theorem witness_TranscoderRoundTrip :
    roundTrips refcfg [0xE4, 0x04, 0x47] = true ∧ roundTrips refcfg [0xE1, 0x08, 0x88, 0x7A] = true := by decide +kernel

end Sys2Proof.Tests
end

section
/-! What an instruction and the end-of-section action neither read nor write: one case split over the instructions, from
which a step's frame and its blindness to the tries (R29) follow. -/

namespace Sys2Proof.Machine

/-! ## The fields no instruction touches -/

/-- `s` with the program, `pc`, result, tries and encoder fields of `d`: what no instruction reads or writes. -/
def State.withBackdropOf (s d : State) : State :=
  { s with prog := d.prog, pc := d.pc, result := d.result, trieS := d.trieS, trieL := d.trieL,
           codecParts := d.codecParts, codecPos := d.codecPos }

/-- `s` with other tries in its cache (R29). -/
def State.withTries (s : State) (a b : Option Trie) : State := { s with trieS := a, trieL := b }

/-- A transition keeps `CFG` and `INPUT`, and commutes with replacing the backdrop, which it so neither reads nor
writes. The answer beside the state is the same on any backdrop. -/
structure Local {α : Type} (f : State → State × α) : Prop where
  cfg : ∀ s, (f s).1.cfg = s.cfg
  input : ∀ s, (f s).1.input = s.input
  backdrop : ∀ s d, f (s.withBackdropOf d) = ((f s).1.withBackdropOf d, (f s).2)

theorem State.pop_withBackdropOf (s d : State) :
    (s.withBackdropOf d).pop = (s.pop.1, s.pop.2.withBackdropOf d) := by
  rcases List.eq_nil_or_concat s.stk with he | ⟨xs, v, hs⟩
  · cases hl : s.input[s.icur]? with
    | some line => rw [s.pop_of_input line he hl, (s.withBackdropOf d).pop_of_input line he hl]; rfl
    | none =>
      have hle := List.getElem?_eq_none_iff.mp hl
      rw [s.pop_of_acc he hle, (s.withBackdropOf d).pop_of_acc he hle]; rfl
  · rw [List.concat_eq_append] at hs
    rw [s.pop_of_stack xs v hs, (s.withBackdropOf d).pop_of_stack xs v hs]; rfl

theorem State.pop_cfg (s : State) : s.pop.2.cfg = s.cfg := by rw [s.pop_frame]

theorem State.pop_input (s : State) : s.pop.2.input = s.input := by rw [s.pop_frame]

theorem State.pushResult_cfg (s : State) (r : Option Value) : (s.pushResult r).cfg = s.cfg := by cases r <;> rfl

theorem State.pushResult_input (s : State) (r : Option Value) : (s.pushResult r).input = s.input := by cases r <;> rfl

theorem State.pushResult_withBackdropOf (s d : State) (r : Option Value) :
    (s.withBackdropOf d).pushResult r = (s.pushResult r).withBackdropOf d := by cases r <;> rfl

theorem local_pure (v : Option Value) : Local fun s => (s, v) := ⟨fun _ => rfl, fun _ => rfl, fun _ _ => rfl⟩

theorem local_storeReg (r : Reg) (v : Value) : Local (storeReg r v) where
  cfg _ := by cases r <;> rfl
  input _ := by cases r <;> rfl
  backdrop _ _ := by cases r <;> rfl

/-- Pushing the characters of the drained accumulator (R222). -/
theorem local_explode (s : State) : ∀ (t : Text) (u : State),
    (t.foldl (fun s ch => s.push (.text [ch])) u).cfg = u.cfg ∧
    (t.foldl (fun s ch => s.push (.text [ch])) u).input = u.input ∧
    t.foldl (fun s ch => s.push (.text [ch])) (u.withBackdropOf s) =
      (t.foldl (fun s ch => s.push (.text [ch])) u).withBackdropOf s
  | [], _ => ⟨rfl, rfl, rfl⟩
  | ch :: t, u => local_explode s t (u.push (.text [ch]))

/-! ## Dispatch -/

/-- The state change `f` as a transition without an answer. -/
def silently (f : State → State) (s : State) : State × Unit := (f s, ())

theorem local_silently {f : State → State} (hc : ∀ s, (f s).cfg = s.cfg) (hi : ∀ s, (f s).input = s.input)
    (hb : ∀ s d, f (s.withBackdropOf d) = (f s).withBackdropOf d) : Local (silently f) :=
  ⟨hc, hi, fun s d => congrArg (·, ()) (hb s d)⟩

theorem local_dispatch0 {cmd : State → State × Option Value} (h : Local cmd) :
    Local (silently fun s => dispatch0 s cmd) :=
  local_silently (fun s => (State.pushResult_cfg _ _).trans (h.cfg s))
    (fun s => (State.pushResult_input _ _).trans (h.input s))
    fun s d => by simp only [dispatch0, h.backdrop, State.pushResult_withBackdropOf]

theorem local_dispatch1 {cmd : Value → State → State × Option Value} (h : ∀ v, Local (cmd v)) :
    Local (silently fun s => dispatch1 s cmd) :=
  local_silently (fun s => ((State.pushResult_cfg _ _).trans ((h _).cfg _)).trans s.pop_cfg)
    (fun s => ((State.pushResult_input _ _).trans ((h _).input _)).trans s.pop_input)
    fun s d => by simp only [dispatch1, State.pop_withBackdropOf, (h _).backdrop, State.pushResult_withBackdropOf]

theorem local_dispatch2 {cmd : Value → Value → State → State × Option Value} (h : ∀ v w, Local (cmd v w)) :
    Local (silently fun s => dispatch2 s cmd) :=
  local_silently
    (fun s => (((State.pushResult_cfg _ _).trans ((h _ _).cfg _)).trans (State.pop_cfg _)).trans s.pop_cfg)
    (fun s => (((State.pushResult_input _ _).trans ((h _ _).input _)).trans (State.pop_input _)).trans s.pop_input)
    fun s d => by simp only [dispatch2, State.pop_withBackdropOf, (h _ _).backdrop, State.pushResult_withBackdropOf]

theorem local_pure1 (f : Value → Value) : Local (silently fun s => dispatch1 s (pure1 f)) :=
  local_dispatch1 fun _ => local_pure _

theorem local_pure2 (f : Value → Value → Value) : Local (silently fun s => dispatch2 s (pure2 f)) :=
  local_dispatch2 fun _ _ => local_pure _

theorem local_unknown (syms : State → List Sym) (h : ∀ s d, syms (s.withBackdropOf d) = syms s) :
    Local (silently fun s => unknown s (syms s)) :=
  local_silently (fun _ => rfl) (fun _ => rfl) fun s d => by rw [h]; rfl

/-! ## Literal sections and the end of a section -/

theorem local_afterLiteral : Local (silently State.afterLiteral) :=
  local_silently (fun s => by rw [State.afterLiteral]; split <;> rfl)
    (fun s => by rw [State.afterLiteral]; split <;> rfl) fun s d => by
      cases h : s.cmp with
      | true => rw [s.afterLiteral_of_cmp h, (s.withBackdropOf d).afterLiteral_of_cmp h]; rfl
      | false => rw [s.afterLiteral_of_not_cmp h, (s.withBackdropOf d).afterLiteral_of_not_cmp h]

theorem local_routeLiteral (t : Text) : Local (silently fun s => s.routeLiteral t) :=
  local_silently (fun s => by rw [State.routeLiteral]; split <;> rfl)
    (fun s => by rw [State.routeLiteral]; split <;> rfl) fun s d => by
      cases h : s.pnl with
      | true => rw [s.routeLiteral_of_pnl t h, (s.withBackdropOf d).routeLiteral_of_pnl t h]; rfl
      | false => rw [s.routeLiteral_of_not_pnl t h, (s.withBackdropOf d).routeLiteral_of_not_pnl t h]; rfl

theorem local_literal (syms : List Sym) : Local (silently fun s => s.runLiteral syms) :=
  local_silently (fun s => ((local_routeLiteral _).cfg _).trans (local_afterLiteral.cfg s))
    (fun s => ((local_routeLiteral _).input _).trans (local_afterLiteral.input s)) fun s d => by
      have ha := congrArg Prod.fst (local_afterLiteral.backdrop s d)
      have hr := congrArg Prod.fst ((local_routeLiteral (s.literalText syms)).backdrop s.afterLiteral d)
      exact (congrArg (State.routeLiteral · (s.literalText syms)) ha).trans hr

theorem local_endOfSection : Local (silently State.endOfSection) :=
  local_silently
    (fun s => by
      rw [State.endOfSection]
      split
      · rfl
      · split <;> rfl)
    (fun s => by
      rw [State.endOfSection]
      split
      · rfl
      · split <;> rfl)
    fun s d => by
      cases hp : s.pnl with
      | true => rw [s.endOfSection_of_pnl hp, (s.withBackdropOf d).endOfSection_of_pnl hp]
      | false =>
        rcases List.eq_nil_or_concat s.stk with he | ⟨xs, v, hs⟩
        · rw [s.endOfSection_of_empty hp he, (s.withBackdropOf d).endOfSection_of_empty hp he]; rfl
        · rw [List.concat_eq_append] at hs
          rw [s.endOfSection_of_top xs v hp hs, (s.withBackdropOf d).endOfSection_of_top xs v hp hs]; rfl

/-! ## Every instruction is local -/

/-- An Instruction byte runs the row it selects, every other instruction is its own row. -/
theorem exec_eq_execSelected (i : Instr) (s : State) : exec i s = execSelected (selected s.cfg.val i) s := by
  cases i <;> rfl

theorem execSelected_local (i : Instr) :
    ∃ f, (∀ s, execSelected i s = .next (f s)) ∧ Local (silently f) := by
  cases i with
  | num | str | dup | upperAlpha | lowerAlpha | printable | space | armPush | clearAcc | armCompress | dump =>
    exact ⟨_, fun _ => rfl, local_dispatch0 ⟨fun _ => rfl, fun _ => rfl, fun _ _ => rfl⟩⟩
  | explode =>
    exact ⟨_, fun _ => rfl, local_dispatch0
      ⟨fun s => (local_explode s s.acc (s.setAcc [])).1, fun s => (local_explode s s.acc (s.setAcc [])).2.1,
        fun s d => congrArg (·, none) (local_explode d s.acc (s.setAcc [])).2.2⟩⟩
  | inc | dec | addTwo | subTwo | titleCase | apaTitle | capitalise | zeroRange =>
    exact ⟨_, fun _ => rfl, local_pure1 _⟩
  | add | sub | mul | div | concat | revConcat | index | head | tail | centre | join | range =>
    exact ⟨_, fun _ => rfl, local_pure2 _⟩
  | swap => exact ⟨_, fun _ => rfl, local_dispatch2 fun _ _ => ⟨fun _ => rfl, fun _ => rfl, fun _ _ => rfl⟩⟩
  | drop => exact ⟨_, fun _ => rfl, local_dispatch1 fun _ => local_pure none⟩
  | storeNot | storeEq | storeN => exact ⟨_, fun _ => rfl, local_dispatch1 (local_storeReg _)⟩
  | unimplCmd | unimplExt | bad | instructionByte =>
    exact ⟨_, fun _ => rfl, local_unknown _ fun _ _ => rfl⟩
  | literal syms => exact ⟨_, fun _ => rfl, local_literal syms⟩

/-- `t` has the configuration, the input and the backdrop of `s`. -/
structure State.Keeps (s t : State) : Prop where
  cfg : t.cfg = s.cfg
  input : t.input = s.input
  backdrop : t = t.withBackdropOf s

theorem State.Keeps.prog {s t : State} (h : s.Keeps t) : t.prog = s.prog := by rw [h.backdrop]; rfl

theorem State.Keeps.pc {s t : State} (h : s.Keeps t) : t.pc = s.pc := by rw [h.backdrop]; rfl

theorem State.Keeps.result {s t : State} (h : s.Keeps t) : t.result = s.result := by rw [h.backdrop]; rfl

/-- A local transition leaves alone what it does not read: put the state on its own backdrop. -/
theorem Local.keeps {f : State → State} (h : Local (silently f)) (s : State) : s.Keeps (f s) :=
  ⟨h.cfg s, h.input s, congrArg Prod.fst (h.backdrop s s)⟩

theorem Local.withTries {f : State → State} (h : Local (silently f)) (s : State) (a b : Option Trie) :
    f (s.withTries a b) = (f s).withTries a b := by
  have hd : f (s.withTries a b) = (f s).withBackdropOf (s.withTries a b) :=
    congrArg Prod.fst (h.backdrop s (s.withTries a b))
  rw [hd, (h.keeps s).backdrop]
  rfl

/-- Under one configuration an instruction is a local transition, whatever row an Instruction byte selects there. -/
theorem exec_eq_local (i : Instr) (c : WfConfig) :
    ∃ f, Local (silently f) ∧ ∀ s : State, s.cfg = c → exec i s = .next (f s) := by
  obtain ⟨f, hf, hl⟩ := execSelected_local (selected c.val i)
  exact ⟨f, hl, fun s hc => by rw [exec_eq_execSelected, hc, hf]⟩

/-- What an instruction leaves alone (R31). -/
theorem exec_keeps {i : Instr} {s t : State} (h : exec i s = .next t) : s.Keeps t := by
  obtain ⟨f, hl, hf⟩ := exec_eq_local i s.cfg
  obtain rfl : f s = t := Host.Outcome.next.inj ((hf s rfl).symm.trans h)
  exact hl.keeps s

/-- No instruction reads the tries (R29). -/
theorem exec_withTries {i : Instr} {s t : State} (h : exec i s = .next t) (a b : Option Trie) :
    exec i (s.withTries a b) = .next (t.withTries a b) := by
  obtain ⟨f, hl, hf⟩ := exec_eq_local i s.cfg
  obtain rfl : f s = t := Host.Outcome.next.inj ((hf s rfl).symm.trans h)
  rw [hf (s.withTries a b) rfl, hl.withTries]

end Sys2Proof.Machine
end

section
/-! Steps and runs from any state: a step under unlimited capacities, how many steps a run takes, that nothing reads the
trie cache; then the host operations, and the obligations
`StepKeepsCapacity` (R25, R294), `HostOperationsAreTotal` (R14, R120) and `TableWordsDecode` (R76, R80, R81). -/

namespace Sys2Proof.Machine

/-! ## A step under unlimited capacities -/

theorem State.unlimited_of_cfg {s t : State} (h : t.cfg = s.cfg) (hu : s.unlimited = true) : t.unlimited = true := by
  rwa [State.unlimited, h]

theorem retire_of_unlimited {t : State} {adv : State → State} (h : (adv t).unlimited = true) :
    retire (.next t) adv = .next (adv t) := if_pos (State.withinCapacity_of_unlimited _ h)

theorem step_token {s t : State} {i : Instr} (hu : s.unlimited = true) (hf : s.fetch = .token i)
    (h : exec i s = .next t) : step s = .next t.nextToken := by
  simp only [step, hf, h]
  exact retire_of_unlimited (State.unlimited_of_cfg (exec_keeps h).cfg hu)

theorem step_literal {s t : State} {syms : List Sym} (hu : s.unlimited = true) (hf : s.fetch = .literal syms)
    (h : exec (.literal syms) s = .next t) : step s = .next t.nextSection := by
  simp only [step, hf, h, State.codecFits_of_unlimited s _ hu, Bool.true_eq_false, and_false, if_false]
  exact retire_of_unlimited (State.unlimited_of_cfg (exec_keeps h).cfg hu)

theorem step_boundary {s : State} (hu : s.unlimited = true) (hf : s.fetch = .boundary) :
    step s = .next s.endOfSection.nextSection := by
  simp only [step, hf]
  exact retire_of_unlimited (State.unlimited_of_cfg (local_endOfSection.cfg s) hu)

theorem step_ended {s : State} (hu : s.unlimited = true) (hf : s.fetch = .ended) (hr : s.result = none) :
    step s = .next { s with result := some s.acc } := by
  simp only [step, hf, State.endOfRun, hr]
  exact retire_of_unlimited hu

/-! ## How many steps are left -/

/-- The steps a section takes from token `ti` on: one for a Literal section; one for each token left and one for the
end-of-section action of an Instruction section (R161). -/
def sectionSteps (c : Config) (ti : Nat) (sec : Section) : Nat :=
  match sec.kind with
  | .literal => 1
  | .instruction => (sectionInstrs c sec.text).length - ti + 1

/-- The steps from the start of section `si` to the end of the run (R160). -/
def State.stepsFromSection (s : State) (si : Nat) : Nat :=
  ((s.sections.drop si).map (sectionSteps s.cfg.val 0)).sum + 1

/-- The steps left until `RESULT` is written. -/
def State.stepsLeft (s : State) : Nat :=
  match s.sections[s.pc.si]? with
  | none => 1
  | some sec => sectionSteps s.cfg.val s.pc.ti sec + s.stepsFromSection (s.pc.si + 1)

/-- At the start of a section nothing of it is done. -/
theorem State.stepsLeft_sectionStart (s : State) (h : s.pc.ti = 0) : s.stepsLeft = s.stepsFromSection s.pc.si := by
  unfold State.stepsLeft State.stepsFromSection
  cases hs : s.sections[s.pc.si]? with
  | none => simp [List.drop_eq_nil_of_le (List.getElem?_eq_none_iff.mp hs)]
  | some sec =>
    obtain ⟨hlt, rfl⟩ := List.getElem?_eq_some_iff.mp hs
    simp only [List.drop_eq_getElem_cons hlt, List.map_cons, List.sum_cons, h, Nat.add_assoc]

/-- A fresh run has `runLength` steps to go (R160). -/
theorem State.stepsLeft_startRun (s : State) (bytes : List Byte) (input : List Text) :
    (s.startRun bytes input).stepsLeft = runLength s.cfg.val bytes := by
  rw [State.stepsLeft_sectionStart _ rfl]
  have hsec : (s.startRun bytes input).sections = split bytes := congrArg split (Memory.bytes_load bytes)
  simp only [State.stepsFromSection, hsec]
  rfl

/-! ## What `pc` selects (R161) -/

theorem State.fetch_token {s : State} {i : Instr} (h : s.fetch = .token i) :
    ∃ sec, s.sections[s.pc.si]? = some sec ∧ sec.kind = .instruction ∧
      (sectionInstrs s.cfg.val sec.text)[s.pc.ti]? = some i := by
  unfold State.fetch at h
  split at h
  · exact nomatch h
  next sec hs =>
    split at h
    · exact nomatch h
    next hk =>
      split at h
      next j hi => exact ⟨sec, hs, hk, Fetched.token.inj h ▸ hi⟩
      · exact nomatch h

theorem State.fetch_literal {s : State} {syms : List Sym} (h : s.fetch = .literal syms) :
    ∃ sec, s.sections[s.pc.si]? = some sec ∧ sec.kind = .literal ∧ sec.text = syms := by
  unfold State.fetch at h
  split at h
  · exact nomatch h
  next sec hs =>
    split at h
    next hk => exact ⟨sec, hs, hk, Fetched.literal.inj h⟩
    next => split at h <;> exact nomatch h

theorem State.fetch_boundary {s : State} (h : s.fetch = .boundary) :
    ∃ sec, s.sections[s.pc.si]? = some sec ∧ sec.kind = .instruction ∧
      (sectionInstrs s.cfg.val sec.text).length ≤ s.pc.ti := by
  unfold State.fetch at h
  split at h
  · exact nomatch h
  next sec hs =>
    split at h
    · exact nomatch h
    next hk =>
      split at h
      · exact nomatch h
      next hi => exact ⟨sec, hs, hk, List.getElem?_eq_none_iff.mp hi⟩

theorem State.fetch_ended {s : State} (h : s.fetch = .ended) : s.sections[s.pc.si]? = none := by
  unfold State.fetch at h
  split at h
  · assumption
  · split at h
    · exact nomatch h
    · split at h <;> exact nomatch h

/-! ## The steps left go down -/

/-- What a step of an unfinished run leaves behind: the last one writes `RESULT` at the end of the program; any other
leaves one step less. -/
structure State.Advanced (s t : State) : Prop where
  cfg : t.cfg = s.cfg
  progress : (s.stepsLeft = 1 ∧ t.result = some t.acc ∧ t.fetch = .ended) ∨
    (t.result = none ∧ s.stepsLeft = t.stepsLeft + 1)

theorem State.sections_eq {s t : State} (hp : t.prog = s.prog) : t.sections = s.sections := by
  rw [State.sections, hp, State.sections]

theorem State.stepsFromSection_eq {s t : State} (hc : t.cfg = s.cfg) (hp : t.prog = s.prog) (si : Nat) :
    t.stepsFromSection si = s.stepsFromSection si := by
  rw [State.stepsFromSection, State.sections_eq hp, hc, State.stepsFromSection]

theorem State.stepsLeft_eq {s : State} {sec : Section} (h : s.sections[s.pc.si]? = some sec) :
    s.stepsLeft = sectionSteps s.cfg.val s.pc.ti sec + s.stepsFromSection (s.pc.si + 1) := by
  rw [State.stepsLeft, h]

/-- After a token one token less is left of its section. -/
theorem State.advanced_nextToken {s u : State} {i : Instr} (hr : s.result = none) (hf : s.fetch = .token i)
    (h : s.Keeps u) : s.Advanced u.nextToken := by
  obtain ⟨sec, hs, hk, hi⟩ := State.fetch_token hf
  obtain ⟨hlt, -⟩ := List.getElem?_eq_some_iff.mp hi
  have hs' : u.nextToken.sections[u.nextToken.pc.si]? = some sec := by
    rw [State.sections_eq (t := u.nextToken) h.prog]; simpa [h.pc] using hs
  refine ⟨h.cfg, .inr ⟨h.result.trans hr, ?_⟩⟩
  rw [State.stepsLeft_eq hs, State.stepsLeft_eq hs', State.stepsFromSection_eq (t := u.nextToken) h.cfg h.prog]
  simp only [State.nextToken_pc, State.nextToken_cfg, h.pc, h.cfg, sectionSteps, hk]
  omega

/-- After the last step of a section the next section is at its start. -/
theorem State.advanced_nextSection {s u : State} {sec : Section} (hr : s.result = none)
    (hs : s.sections[s.pc.si]? = some sec) (hone : sectionSteps s.cfg.val s.pc.ti sec = 1) (h : s.Keeps u) :
    s.Advanced u.nextSection := by
  refine ⟨h.cfg, .inr ⟨h.result.trans hr, ?_⟩⟩
  rw [State.stepsLeft_eq hs, hone, State.stepsLeft_sectionStart _ (by simp),
    State.stepsFromSection_eq (t := u.nextSection) h.cfg h.prog, State.nextSection_pc, h.pc, Nat.add_comm]

/-- A run that is not over goes on, and comes one step nearer to its end (R160, R161). -/
theorem step_advances {s : State} (hu : s.unlimited = true) (hr : s.result = none) :
    ∃ t, step s = .next t ∧ s.Advanced t := by
  cases hf : s.fetch with
  | token i =>
    obtain ⟨u, h⟩ := exec_total i s
    exact ⟨_, step_token hu hf h, State.advanced_nextToken hr hf (exec_keeps h)⟩
  | literal syms =>
    obtain ⟨u, h⟩ := exec_total (.literal syms) s
    obtain ⟨sec, hs, hk, -⟩ := State.fetch_literal hf
    have hone : sectionSteps s.cfg.val s.pc.ti sec = 1 := by rw [sectionSteps, hk]
    exact ⟨_, step_literal hu hf h, State.advanced_nextSection hr hs hone (exec_keeps h)⟩
  | boundary =>
    obtain ⟨sec, hs, hk, hle⟩ := State.fetch_boundary hf
    have hone : sectionSteps s.cfg.val s.pc.ti sec = 1 := by
      simp only [sectionSteps, hk]
      omega
    exact ⟨_, step_boundary hu hf, State.advanced_nextSection hr hs hone (local_endOfSection.keeps s)⟩
  | ended =>
    have hleft : s.stepsLeft = 1 := by rw [State.stepsLeft, State.fetch_ended hf]
    exact ⟨_, step_ended hu hf hr, rfl, .inl ⟨hleft, rfl, hf⟩⟩

/-! ## Runs -/

theorem run_succ_next (M : Host.Core) (k : Nat) (s t : M.State) :
    M.run (k + 1) s = .next t ↔ ∃ u, M.step s = .next u ∧ M.run k u = .next t := by
  rw [Host.Core.run]
  cases M.step s <;> simp

/-- In as many steps as are left a run comes to its end, with `RESULT` written (R160, R171). -/
theorem run_stepsLeft (k : Nat) : ∀ s : State, s.unlimited = true → s.result = none → s.stepsLeft = k →
    ∃ t, core.run k s = .next t ∧ t.cfg = s.cfg ∧ t.result = some t.acc ∧ t.fetch = .ended := by
  induction k with
  | zero =>
    intro s hu hr hk
    obtain ⟨t, -, -, ⟨hone, -⟩ | ⟨-, hleft⟩⟩ := step_advances hu hr <;> omega
  | succ k ih =>
    intro s hu hr hk
    obtain ⟨t, hstep, hcfg, ⟨hone, hres, hend⟩ | ⟨hres, hleft⟩⟩ := step_advances hu hr
    · obtain rfl : k = 0 := by omega
      exact ⟨t, (run_succ_next core 0 s t).mpr ⟨t, hstep, rfl⟩, hcfg, hres, hend⟩
    · obtain ⟨v, hrun, hcfg', hv⟩ := ih t (State.unlimited_of_cfg hcfg hu) hres (by omega)
      exact ⟨v, (run_succ_next core k s v).mpr ⟨t, hstep, hrun⟩, hcfg'.trans hcfg, hv⟩

/-- Under unlimited capacities `RUN` answers a state at the end of the run (R160). -/
theorem hostRun_ends {s : State} (bytes : List Byte) (input : List Text) (hu : s.unlimited = true) :
    ∃ t, hostRun bytes input s = .next t ∧ t.cfg = s.cfg ∧ t.result = some t.acc ∧ t.fetch = .ended :=
  run_stepsLeft _ (s.startRun bytes input) hu rfl (s.stepsLeft_startRun bytes input)

/-! ## Nothing reads the trie cache (R29, R33) -/

theorem retire_withTries {o o' : Host.Outcome State Fault Refusal} {adv : State → State} {t : State} {a b : Option Trie}
    (h : retire o adv = .next t) (hadv : ∀ u, adv (u.withTries a b) = (adv u).withTries a b)
    (ho : ∀ u, o = .next u → o' = .next (u.withTries a b)) : retire o' adv = .next (t.withTries a b) := by
  obtain ⟨u, hu, rfl, hfit⟩ := retire_next o adv t h
  have hfit' : (adv (u.withTries a b)).withinCapacity = true := by rw [hadv]; exact hfit
  rw [ho u hu, ← hadv]
  exact if_pos hfit'

theorem step_withTries {s t : State} (h : step s = .next t) (a b : Option Trie) :
    step (s.withTries a b) = .next (t.withTries a b) := by
  have hfetch : (s.withTries a b).fetch = s.fetch := rfl
  cases hf : s.fetch with
  | token i =>
    simp only [step, hfetch, hf] at h ⊢
    exact retire_withTries h (fun _ => rfl) fun u hu => exec_withTries hu a b
  | literal syms =>
    simp only [step, hfetch, hf] at h ⊢
    split at h
    · exact nomatch h
    next hfits =>
      exact (if_neg hfits).trans (retire_withTries h (fun _ => rfl) fun u hu => exec_withTries hu a b)
  | boundary =>
    simp only [step, hfetch, hf] at h ⊢
    refine retire_withTries h (fun _ => rfl) fun u hu => ?_
    rw [← Host.Outcome.next.inj hu, local_endOfSection.withTries]
  | ended =>
    simp only [step, hfetch, hf] at h ⊢
    refine retire_withTries h (fun _ => rfl) fun u hu => ?_
    obtain ⟨hr, rfl⟩ := s.endOfRun_next u hu
    have hr' : (s.withTries a b).result = none := hr
    rw [State.endOfRun, hr']
    rfl

theorem run_withTries (a b : Option Trie) (k : Nat) : ∀ s t : State, core.run k s = .next t →
    core.run k (s.withTries a b) = .next (t.withTries a b) := by
  induction k with
  | zero =>
    intro s t h
    obtain rfl : s = t := Host.Outcome.next.inj h
    rfl
  | succ k ih =>
    intro s t h
    obtain ⟨u, hstep, hrun⟩ := (run_succ_next core k s t).mp h
    exact (run_succ_next core k _ _).mpr ⟨u.withTries a b, step_withTries hstep a b, ih u t hrun⟩

/-- From any two states of one configuration `RUN` ends in the same state, but for the trie cache (R33). -/
theorem hostRun_of_cfg {s s' t : State} {bytes : List Byte} {input : List Text} (hc : s'.cfg = s.cfg)
    (h : hostRun bytes input s = .next t) : hostRun bytes input s' = .next (t.withTries s'.trieS s'.trieL) := by
  have hstart : s'.startRun bytes input = (s.startRun bytes input).withTries s'.trieS s'.trieL := by
    rw [State.startRun, hc]; rfl
  rw [hostRun, hc, hstart]
  exact run_withTries _ _ _ _ _ h

/-! ## The host operations (R14) -/

/-- The stack machine and its parameters are the same in both states; `LOG`, the tries and the codec's working state
may differ. -/
structure State.SameMachine (s t : State) : Prop where
  cfg : t.cfg = s.cfg
  prog : t.prog = s.prog
  input : t.input = s.input
  rNot : t.rNot = s.rNot
  rEq : t.rEq = s.rEq
  rN : t.rN = s.rN
  pc : t.pc = s.pc
  cmp : t.cmp = s.cmp
  pnl : t.pnl = s.pnl
  icur : t.icur = s.icur
  stk : t.stk = s.stk
  acc : t.acc = s.acc
  result : t.result = s.result

/-- A host operation answers, with an answer that `CFG` and its arguments fix, and leaves the stack machine alone. -/
def AnswersByCfg {α : Type} (f : State → Host.Outcome (α × State) Fault Refusal) : Prop :=
  ∀ c : WfConfig, ∃ r, ∀ s : State, s.cfg = c → s.unlimited = true → ∃ t, f s = .next (r, t) ∧ s.SameMachine t

theorem AnswersByCfg.wrap {α : Type} {f : State → Host.Outcome (α × State) Fault Refusal} (h : AnswersByCfg f)
    (g : α → HostResult) : AnswersByCfg fun s => wrap g (f s) := fun c => by
  obtain ⟨r, hr⟩ := h c
  refine ⟨g r, fun s hs hu => ?_⟩
  obtain ⟨t, ht, hsame⟩ := hr s hs hu
  exact ⟨t, congrArg (Machine.wrap g) ht, hsame⟩

/-- An operation that answers a function of `CFG` unless a capacity forbids it. -/
theorem answersByCfg_ite {α : Type} (r : WfConfig → α) (fits : State → Bool) (next : State → State)
    (hfits : ∀ s, s.unlimited = true → fits s = true) (hnext : ∀ s : State, s.SameMachine (next s)) :
    AnswersByCfg fun s => if fits s then .next (r s.cfg, next s) else .refused .capacityExceeded := fun c =>
  ⟨r c, fun s hs hu => ⟨next s, by simp only [hfits s hu, if_true, hs], hnext s⟩⟩

theorem State.sameMachine_refl (s : State) : s.SameMachine s :=
  ⟨rfl, rfl, rfl, rfl, rfl, rfl, rfl, rfl, rfl, rfl, rfl, rfl, rfl⟩

theorem hostEncode_answers (t : Text) : AnswersByCfg (hostEncode t) :=
  answersByCfg_ite (fun c => encodeText c.val t) _ _
    (fun s hu => by rw [s.textFits_of_unlimited _ hu, s.codecFits_of_unlimited _ hu]; rfl)
    fun _ => ⟨rfl, rfl, rfl, rfl, rfl, rfl, rfl, rfl, rfl, rfl, rfl, rfl, rfl⟩

theorem hostPack_answers (n : Nat) : AnswersByCfg (hostPack n) :=
  answersByCfg_ite (fun c => pack c.val n) _ _ (fun s => s.codecFits_of_unlimited n) State.sameMachine_refl

theorem hostUnpack_answers (syms : List Sym) : AnswersByCfg (hostUnpack syms) :=
  answersByCfg_ite (fun _ => unpack syms) _ _ (fun s => s.codecFits_of_unlimited _)
    fun _ => ⟨rfl, rfl, rfl, rfl, rfl, rfl, rfl, rfl, rfl, rfl, rfl, rfl, rfl⟩

theorem hostDecode_answers (n : Nat) : AnswersByCfg (hostDecode n) :=
  answersByCfg_ite (fun c => decodeNat c.val n) _ _
    (fun s hu => by rw [s.textFits_of_unlimited _ hu, s.codecFits_of_unlimited _ hu]; rfl)
    fun _ => ⟨rfl, rfl, rfl, rfl, rfl, rfl, rfl, rfl, rfl, rfl, rfl, rfl, rfl⟩

theorem hostCompress_answers (t : Text) : AnswersByCfg (hostCompress t) := fun c => by
  obtain ⟨n, hn⟩ := hostEncode_answers t c
  refine ⟨compress c.val t, fun s hs hu => ?_⟩
  obtain ⟨u, henc, hsame⟩ := hn s hs hu
  refine ⟨u, ?_, hsame⟩
  simp only [hostCompress, henc, s.textFits_of_unlimited _ hu, if_true, hs]

theorem hostToBytes_answers (t : Text) : AnswersByCfg (hostToBytes t) :=
  answersByCfg_ite (fun c => toBytes c.val t) _ _ (fun s => s.textFits_of_unlimited t) State.sameMachine_refl

theorem hostToLiterate_answers (bytes : List Byte) : AnswersByCfg (hostToLiterate bytes) :=
  answersByCfg_ite (fun c => toLiterate c.val bytes) _ _ (fun s => s.textFits_of_unlimited _) State.sameMachine_refl

theorem hostOp_answers (op : HostOp) (h : ∀ bytes input, op ≠ .run bytes input) : AnswersByCfg (hostOp op) := by
  cases op with
  | run bytes input => exact absurd rfl (h bytes input)
  | split bytes => exact fun _ => ⟨.sections (split bytes), fun s _ _ => ⟨s, rfl, s.sameMachine_refl⟩⟩
  | encode t => exact (hostEncode_answers t).wrap _
  | pack n => exact (hostPack_answers n).wrap _
  | unpack syms => exact (hostUnpack_answers syms).wrap _
  | decode n => exact (hostDecode_answers n).wrap _
  | compress t => exact (hostCompress_answers t).wrap _
  | toBytes t => exact (hostToBytes_answers t).wrap _
  | toLiterate bytes => exact (hostToLiterate_answers bytes).wrap _

theorem hostOp_run {s t : State} {bytes : List Byte} {input : List Text} (h : hostRun bytes input s = .next t) :
    hostOp (.run bytes input) s = .next (.text (t.result.getD []), t) := by
  rw [hostOp, h]

/-! ## The obligations -/

/-- Settles O15: every way a step can end in a next state goes through the capacity check. -/
theorem stepKeepsCapacity : Obligations.StepKeepsCapacity := by
  unfold Obligations.StepKeepsCapacity
  intro s t _ h
  rcases step_next_cases s t h with ⟨_, _, _, _, _, hfits⟩ | ⟨_, _, _, hfits⟩ | ⟨_, _, hfits⟩ | ⟨_, _, _, hfits⟩
  all_goals exact hfits

/-- Settles O19: `RUN` ends in the steps counted, in a state that the tries alone can tell from another run's; every
other operation answers a function of `CFG` and writes `LOG`, tries and codec state only. -/
theorem hostOperationsAreTotal : Obligations.HostOperationsAreTotal := by
  unfold Obligations.HostOperationsAreTotal
  intro op s s' hu hc
  by_cases hop : ∃ bytes input, op = .run bytes input
  · obtain ⟨bytes, input, rfl⟩ := hop
    obtain ⟨t, hrun, hcfg, -, -⟩ := hostRun_ends bytes input hu
    exact ⟨.text (t.result.getD []), t, t.withTries s'.trieS s'.trieL, hostOp_run hrun,
      hostOp_run (hostRun_of_cfg hc hrun), hcfg, fun h => absurd rfl (h bytes input)⟩
  · have hne : ∀ bytes input, op ≠ .run bytes input := fun bytes input h => hop ⟨bytes, input, h⟩
    obtain ⟨r, hr⟩ := hostOp_answers op hne s.cfg
    obtain ⟨t, ht, hsame⟩ := hr s rfl hu
    obtain ⟨t', ht', -⟩ := hr s' hc (State.unlimited_of_cfg hc hu)
    obtain ⟨cfg, prog, input, rNot, rEq, rN, pc, cmp, pnl, icur, stk, acc, result⟩ := hsame
    exact ⟨r, t, t', ht, ht', cfg, fun _ => ⟨prog, input, rNot, rEq, rN, pc, cmp, pnl, icur, stk, acc, result⟩⟩

/-- Settles O1: the decoder, evaluated on each word. -/
theorem tableWordsDecode : Obligations.TableWordsDecode := by
  unfold Obligations.TableWordsDecode
  exact ⟨rfl, rfl, rfl, rfl, rfl, rfl, rfl, rfl, rfl, rfl, rfl, rfl, rfl⟩

end Sys2Proof.Machine
end

section
/-! The code page contract under every well-formed configuration (R71, R72, R89): the obligation `CodePageContract`. -/

namespace Sys2Proof

/-! ## What well-formedness says (R13) -/

/-- The parts of R13 that the code page contract rests on, for symbols instead of indices. -/
structure Config.CodePage (c : Config) : Prop where
  length : c.glyphs.length = 128
  nodup : c.glyphs.Nodup
  native : ∀ w ∈ c.ws, ∀ q : Sym, c.glyph q = nativeChar w → q = w
  present : ∀ g ∈ Config.commandGlyphs ++ Config.digitGlyphs, g ∈ c.glyphs

theorem Config.glyph_eq_getElem {c : Config} (h : c.glyphs.length = 128) (q : Sym) :
    c.glyph q = c.glyphs[q.toNat]'(h ▸ q.isLt) := List.getD_eq_getElem _ _ _

theorem Config.codePage_of_wf {c : Config} (h : c.wf = true) : c.CodePage := by
  simp only [Config.wf, Bool.and_eq_true] at h
  obtain ⟨⟨⟨⟨⟨hcp, hws⟩, -⟩, -⟩, hpresent⟩, -⟩ := h
  simp only [Config.codePageWf, Bool.and_eq_true, decide_eq_true_eq] at hcp
  simp only [Config.whitespaceWf, Bool.and_eq_true, List.all_eq_true, List.mem_range, Bool.or_eq_true,
    decide_eq_true_eq, Bool.not_eq_true', beq_eq_false_iff_ne] at hws
  simp only [Config.glyphsPresent, List.all_eq_true, List.contains_iff_mem] at hpresent
  refine ⟨hcp.1, hcp.2, fun w hw q hq => ?_, hpresent⟩
  exact BitVec.eq_of_toNat_eq ((hws.2 w hw q.toNat q.isLt).resolve_right fun hne => hne hq)

/-! ## The code page is injective and onto -/

theorem Config.CodePage.glyph_inj {c : Config} (h : c.CodePage) {q r : Sym} : c.glyph q = c.glyph r ↔ q = r := by
  rw [Config.glyph_eq_getElem h.length, Config.glyph_eq_getElem h.length, h.nodup.getElem_inj_iff]
  exact ⟨BitVec.eq_of_toNat_eq, congrArg _⟩

theorem Config.CodePage.exists_glyph {c : Config} (h : c.CodePage) {g : Char} (hg : g ∈ c.glyphs) :
    ∃ q, c.glyph q = g := by
  obtain ⟨i, hi, rfl⟩ := List.getElem_of_mem hg
  have hlt : i < 2 ^ 7 := hi.trans_eq h.length
  refine ⟨BitVec.ofNatLT i hlt, ?_⟩
  rw [Config.glyph_eq_getElem h.length]
  rfl

/-! ## `symbolIndex` (R71) -/

theorem Config.CodePage.findIdx?_glyph {c : Config} (h : c.CodePage) (q : Sym) :
    c.glyphs.findIdx? (· == c.glyph q) = some q.toNat := by
  rw [List.findIdx?_eq_some_iff_getElem]
  refine ⟨h.length ▸ q.isLt, by simp [Config.glyph_eq_getElem h.length], fun j hj => ?_⟩
  rw [Config.glyph_eq_getElem h.length]
  simpa [h.nodup.getElem_inj_iff] using hj.ne

/-- A slot whose native character is the glyph is the symbol itself, so both ways of `symbolIndex` agree (R71). -/
theorem Config.CodePage.symbolIndex_glyph {c : Config} (h : c.CodePage) (q : Sym) :
    c.symbolIndex (c.glyph q) = some q := by
  unfold Config.symbolIndex
  cases hf : c.ws.find? (fun w => nativeChar w == c.glyph q) with
  | some w =>
    have hw : nativeChar w = c.glyph q := by simpa using List.find?_some hf
    exact congrArg some (h.native w (List.mem_of_find?_eq_some hf) q hw.symm).symm
  | none => simp [h.findIdx?_glyph]

theorem Config.CodePage.op_eq_iff {c : Config} (h : c.CodePage) {g : Char} (hg : g ∈ c.glyphs) (q : Sym) :
    q = c.op g ↔ c.glyph q = g := by
  obtain ⟨r, rfl⟩ := h.exists_glyph hg
  rw [Config.op, h.symbolIndex_glyph, Option.getD_some, h.glyph_inj]

/-! ## `LitChar` and `normalizeOutput` (R72, R89) -/

theorem Config.CodePage.normalizeChar_of_ws {c : Config} (h : c.CodePage) {w : Sym} (hw : w ∈ c.ws) :
    c.normalizeChar (c.glyph w) = nativeChar w := by
  unfold Config.normalizeChar
  cases hf : c.ws.find? (fun v => c.glyph v == c.glyph w) with
  | some v =>
    have hv : c.glyph v = c.glyph w := by simpa using List.find?_some hf
    rw [h.glyph_inj.mp hv]
  | none => exact absurd (List.find?_eq_none.mp hf w hw) (by simp)

theorem Config.normalizeChar_of_not_ws {c : Config} {ch : Char} (h : ∀ w ∈ c.ws, c.glyph w ≠ ch) :
    c.normalizeChar ch = ch := by
  have hf : c.ws.find? (fun w => c.glyph w == ch) = none := List.find?_eq_none.mpr fun w hw => by simpa using h w hw
  rw [Config.normalizeChar, hf]

theorem Config.CodePage.litChar_eq {c : Config} (h : c.CodePage) (q : Sym) :
    c.litChar q = c.normalizeChar (c.glyph q) := by
  by_cases hq : q ∈ c.ws
  · rw [Config.litChar, if_pos hq, h.normalizeChar_of_ws hq]
  · have hne : ∀ w ∈ c.ws, c.glyph w ≠ c.glyph q := fun w hw he => hq (h.glyph_inj.mp he ▸ hw)
    rw [Config.litChar, if_neg hq, Config.normalizeChar_of_not_ws hne]

/-- A native character is no stand-in glyph, except where it is its own slot's (R13(b)). -/
theorem Config.CodePage.normalizeChar_nativeChar {c : Config} (h : c.CodePage) {w : Sym} (hw : w ∈ c.ws) :
    c.normalizeChar (nativeChar w) = nativeChar w := by
  by_cases he : c.glyph w = nativeChar w
  · rw [← he, h.normalizeChar_of_ws hw, he]
  · exact Config.normalizeChar_of_not_ws fun v _ hv => he (h.native w hw v hv ▸ hv)

theorem Config.CodePage.normalizeChar_idem {c : Config} (h : c.CodePage) (ch : Char) :
    c.normalizeChar (c.normalizeChar ch) = c.normalizeChar ch := by
  by_cases hch : ∃ w ∈ c.ws, c.glyph w = ch
  · obtain ⟨w, hw, rfl⟩ := hch
    rw [h.normalizeChar_of_ws hw, h.normalizeChar_nativeChar hw]
  · have hne : ∀ w ∈ c.ws, c.glyph w ≠ ch := fun w hw he => hch ⟨w, hw, he⟩
    rw [Config.normalizeChar_of_not_ws hne, Config.normalizeChar_of_not_ws hne]

/-- Settles O2: each clause from the code page's injectivity and R13(b). -/
theorem codePageContract : Obligations.CodePageContract := by
  unfold Obligations.CodePageContract
  intro c
  have h := Config.codePage_of_wf c.property
  refine ⟨h.symbolIndex_glyph, fun g hg q => h.op_eq_iff (h.present g hg) q, fun q => ?_, fun t => ?_⟩
  · simp [Config.normalizeOutput, h.litChar_eq]
  · simp [Config.normalizeOutput, h.normalizeChar_idem]

end Sys2Proof
end

section
/-! Letter case (R16), the words of a text (R241) and the title cases (R248 to R250): the obligation
`WordsAndTitleCase`. -/

namespace Sys2Proof

/-! ## Case of a character (R16, D34) -/

theorem toNat_ofNat_of_lt {n : Nat} (h : n < 0xD800) : (Char.ofNat n).toNat = n := by
  rw [Char.toNat_ofNat, if_pos (Or.inl h)]

theorem lowerChar_of_capital {ch : Char} (h : 65 ≤ ch.toNat ∧ ch.toNat ≤ 90) :
    lowerChar ch = Char.ofNat (ch.toNat + 32) := if_pos h

theorem lowerChar_of_not_capital {ch : Char} (h : ¬(65 ≤ ch.toNat ∧ ch.toNat ≤ 90)) : lowerChar ch = ch := if_neg h

theorem upperChar_of_small {ch : Char} (h : 97 ≤ ch.toNat ∧ ch.toNat ≤ 122) :
    upperChar ch = Char.ofNat (ch.toNat - 32) := if_pos h

theorem upperChar_of_not_small {ch : Char} (h : ¬(97 ≤ ch.toNat ∧ ch.toNat ≤ 122)) : upperChar ch = ch := if_neg h

@[simp] theorem lowerChar_lowerChar (ch : Char) : lowerChar (lowerChar ch) = lowerChar ch := by
  by_cases h : 65 ≤ ch.toNat ∧ ch.toNat ≤ 90
  · have hn : (Char.ofNat (ch.toNat + 32)).toNat = ch.toNat + 32 := toNat_ofNat_of_lt (by omega)
    rw [lowerChar_of_capital h, lowerChar_of_not_capital (by omega)]
  · rw [lowerChar_of_not_capital h, lowerChar_of_not_capital h]

@[simp] theorem lowerChar_upperChar (ch : Char) : lowerChar (upperChar ch) = lowerChar ch := by
  by_cases h : 97 ≤ ch.toNat ∧ ch.toNat ≤ 122
  · have hn : (Char.ofNat (ch.toNat - 32)).toNat = ch.toNat - 32 := toNat_ofNat_of_lt (by omega)
    rw [upperChar_of_small h, lowerChar_of_capital (by omega), lowerChar_of_not_capital (by omega), hn,
      Nat.sub_add_cancel (by omega), Char.ofNat_toNat]
  · rw [upperChar_of_not_small h]

@[simp] theorem lowerText_lowerText (t : Text) : lowerText (lowerText t) = lowerText t := by simp [lowerText]

@[simp] theorem lowerText_append (t u : Text) : lowerText (t ++ u) = lowerText t ++ lowerText u := List.map_append

namespace Machine

@[simp] theorem lowerText_cap (t : Text) : lowerText (cap t) = lowerText t := by
  cases t with
  | nil => rfl
  | cons ch rest => simp [cap, lowerText]

/-! ## Words and Unwords (R241) -/

theorem words_ne_nil (t : Text) : words t ≠ [] := by
  cases t with
  | nil => simp [words]
  | cons ch rest =>
    rw [words]
    split
    · simp
    · split <;> simp

theorem words_space (t : Text) : words (' ' :: t) = [] :: words t := by
  obtain ⟨w, ws, h⟩ := List.exists_cons_of_ne_nil (words_ne_nil t)
  simp [words, h]

/-- A character that is no space joins the first word of what follows. -/
theorem words_letter {ch : Char} (hch : ch ≠ ' ') (t : Text) :
    ∃ w ws, words t = w :: ws ∧ words (ch :: t) = (ch :: w) :: ws := by
  obtain ⟨w, ws, h⟩ := List.exists_cons_of_ne_nil (words_ne_nil t)
  exact ⟨w, ws, h, by simp [words, h, hch]⟩

theorem unwords_cons {ws : List Text} (h : ws ≠ []) (w : Text) : unwords (w :: ws) = w ++ ' ' :: unwords ws := by
  rw [unwords, List.intercalate_cons_of_ne_nil h, List.append_assoc]
  rfl

theorem unwords_singleton (w : Text) : unwords [w] = w := List.intercalate_singleton

theorem unwords_letter (ch : Char) (w : Text) (ws : List Text) :
    unwords ((ch :: w) :: ws) = ch :: unwords (w :: ws) := by
  cases ws with
  | nil => rw [unwords_singleton, unwords_singleton]
  | cons v vs => rw [unwords_cons (List.cons_ne_nil v vs), unwords_cons (List.cons_ne_nil v vs), List.cons_append]

theorem unwords_words (t : Text) : unwords (words t) = t := by
  induction t with
  | nil => rfl
  | cons ch t ih =>
    by_cases hch : ch = ' '
    · subst hch
      rw [words_space, unwords_cons (words_ne_nil t), ih, List.nil_append]
    · obtain ⟨w, ws, hw, hcw⟩ := words_letter hch t
      rw [hcw, unwords_letter, ← hw, ih]

theorem length_words (t : Text) : (words t).length = t.count ' ' + 1 := by
  induction t with
  | nil => rfl
  | cons ch t ih =>
    by_cases hch : ch = ' '
    · subst hch
      rw [words_space, List.length_cons, ih, List.count_cons_self]
    · obtain ⟨w, ws, hw, hcw⟩ := words_letter hch t
      rw [hcw, List.count_cons_of_ne hch, ← ih, hw, List.length_cons, List.length_cons]

theorem space_not_mem_words (t : Text) : ∀ w ∈ words t, ' ' ∉ w := by
  induction t with
  | nil => simp [words]
  | cons ch t ih =>
    by_cases hch : ch = ' '
    · subst hch
      rw [words_space]
      exact List.forall_mem_cons.mpr ⟨List.not_mem_nil, ih⟩
    · obtain ⟨w, ws, hw, hcw⟩ := words_letter hch t
      rw [hw, List.forall_mem_cons] at ih
      rw [hcw, List.forall_mem_cons]
      exact ⟨fun h => (List.mem_cons.mp h).elim (fun e => hch e.symm) ih.1, ih.2⟩

theorem lowerText_unwords : ∀ ws : List Text, lowerText (unwords ws) = unwords (ws.map lowerText)
  | [] => rfl
  | [w] => by rw [unwords_singleton, List.map_singleton, unwords_singleton]
  | w :: v :: ws => by
    have hne : (v :: ws).map lowerText ≠ [] := List.cons_ne_nil _ _
    rw [unwords_cons (List.cons_ne_nil v ws), lowerText_append, List.map_cons, unwords_cons hne,
      ← lowerText_unwords (v :: ws)]
    rfl

/-- Changing words in nothing but the case of their letters changes the text in nothing else (R248, R249). -/
theorem lowerText_unwords_of_map {ws vs : List Text} (h : vs.map lowerText = ws.map lowerText) :
    lowerText (unwords vs) = lowerText (unwords ws) := by
  rw [lowerText_unwords, lowerText_unwords, h]

/-! ## APA title case (R249) -/

/-- A word is lowered when it is a minor word and a word without final punctuation precedes it (R249, D28, D29). -/
def ApaLowered (prev : Option Text) (w : Text) : Prop :=
  lowerText w ∈ Config.apaMinor ∧ ∃ p, prev = some p ∧ ∀ ch, p.getLast? = some ch → ch ∉ Config.apaPunct

theorem any_getLast?_apaPunct (p : Text) :
    p.getLast?.any Config.apaPunct.contains = false ↔ ∀ ch, p.getLast? = some ch → ch ∉ Config.apaPunct := by
  cases p.getLast? <;> simp

theorem apaWord_of_lowered {prev : Option Text} {w : Text} (h : ApaLowered prev w) :
    apaWord prev w = lowerText w := by
  obtain ⟨hminor, p, rfl, hp⟩ := h
  rw [apaWord, (any_getLast?_apaPunct p).mpr hp, List.contains_iff_mem.mpr hminor]
  rfl

theorem apaWord_of_not_lowered {prev : Option Text} {w : Text} (h : ¬ApaLowered prev w) : apaWord prev w = cap w := by
  cases prev with
  | none => rfl
  | some p =>
    refine if_neg fun hc => h ?_
    simp only [Bool.and_eq_true, Bool.not_eq_true'] at hc
    exact ⟨List.contains_iff_mem.mp hc.1, p, rfl, (any_getLast?_apaPunct p).mp hc.2⟩

theorem lowerText_apaWord (prev : Option Text) (w : Text) : lowerText (apaWord prev w) = lowerText w := by
  by_cases h : ApaLowered prev w
  · rw [apaWord_of_lowered h, lowerText_lowerText]
  · rw [apaWord_of_not_lowered h, lowerText_cap]

theorem apaWord_nil (prev : Option Text) : apaWord prev [] = [] := by
  by_cases h : ApaLowered prev []
  · rw [apaWord_of_lowered h]; rfl
  · rw [apaWord_of_not_lowered h]; rfl

/-- The last non-empty word of `ws`, or `prev` if there is none. -/
def lastWord (prev : Option Text) (ws : List Text) : Option Text := (ws.filter fun v => !v.isEmpty).getLast?.or prev

theorem lastWord_cons {w : Text} (hw : w ≠ []) (prev : Option Text) (ws : List Text) :
    lastWord prev (w :: ws) = lastWord (some w) ws := by
  have hb : (!w.isEmpty) = true := by simpa using hw
  rw [lastWord, List.filter_cons_of_pos (p := fun v : Text => !v.isEmpty) hb, List.getLast?_cons, Option.some_or,
    lastWord, Option.or_some]

theorem apaWords_nil_cons (prev : Option Text) (ws : List Text) :
    apaWords prev ([] :: ws) = apaWord prev [] :: apaWords prev ws := by rw [apaWord_nil]; rfl

theorem apaWords_cons {w : Text} (hw : w ≠ []) (prev : Option Text) (ws : List Text) :
    apaWords prev (w :: ws) = apaWord prev w :: apaWords (some w) ws := by
  rw [apaWords, if_neg (by simpa using hw)]

/-- Each word keeps its place, and its case is decided by the last non-empty word before it. -/
theorem apaWords_getElem? (ws : List Text) : ∀ (prev : Option Text) (k : Nat),
    (apaWords prev ws)[k]? = ws[k]?.map (apaWord (lastWord prev (ws.take k))) := by
  induction ws with
  | nil => intro prev k; rfl
  | cons v ws ih =>
    intro prev k
    by_cases hv : v = []
    · subst hv
      rw [apaWords_nil_cons]
      cases k with
      | zero => rfl
      | succ k => exact ih prev k
    · rw [apaWords_cons hv]
      cases k with
      | zero => rfl
      | succ k =>
        rw [List.take_succ_cons, lastWord_cons hv]
        exact ih (some v) k

theorem length_apaWords (prev : Option Text) (ws : List Text) : (apaWords prev ws).length = ws.length := by
  induction ws generalizing prev with
  | nil => rfl
  | cons w ws ih => rw [apaWords]; split <;> simp [ih]

theorem map_lowerText_apaWords (prev : Option Text) (ws : List Text) :
    (apaWords prev ws).map lowerText = ws.map lowerText := by
  apply List.ext_getElem?
  intro k
  rw [List.getElem?_map, List.getElem?_map, apaWords_getElem?, Option.map_map]
  exact congrArg (Option.map · ws[k]?) (funext fun w => lowerText_apaWord _ w)

/-- Settles O37: `Words` by induction on the text, `⌂t` word by word. -/
theorem wordsAndTitleCase : Obligations.WordsAndTitleCase := by
  unfold Obligations.WordsAndTitleCase
  refine ⟨fun t => ⟨unwords_words t, length_words t, space_not_mem_words t, ?_, ?_, lowerText_cap t⟩, fun _ => rfl, rfl,
    fun _ _ => rfl, fun ws => ⟨length_apaWords none ws, fun k w lowered hw hlow => ?_⟩⟩
  · have hcap : ((words t).map cap).map lowerText = (words t).map lowerText := by simp
    rw [lowerText_unwords_of_map hcap, unwords_words]
  · rw [lowerText_unwords_of_map (map_lowerText_apaWords none _), unwords_words]
  · have hlow' : lowered ↔ ApaLowered (lastWord none (ws.take k)) w := by
      rw [hlow, lastWord, Option.or_none]; rfl
    rw [apaWords_getElem?, hw, Option.map_some]
    exact ⟨fun h => congrArg some (apaWord_of_lowered (hlow'.mp h)),
      fun h => congrArg some (apaWord_of_not_lowered fun h' => h (hlow'.mpr h'))⟩

end Machine
end Sys2Proof
end

section
/-! The encoder: `LM`, `BEST`, `PARSE` and `BUILD` (R110 to R119): the obligation `LongestMatchIsLongest`. -/

namespace Sys2Proof.Machine

/-! ## The longest match (R111) -/

/-- `r` is what the loop of `LM` may hold: nothing longer than `best` matched and `best` stands, or `r` is a longer
word of `ws` that matches, counted from index `i`; and no word of `ws` that matches is longer than `r`. -/
structure LongestFrom (t : Text) (i : Nat) (ws : List Text) (best r : Nat × Option Nat) : Prop where
  found : r = best ∨ ∃ j w, ws[j]? = some w ∧ w <+: t ∧ best.1 < w.length ∧ r = (w.length, some (i + j))
  longest : ∀ w ∈ ws, w <+: t → w.length ≤ r.1
  best_le : best.1 ≤ r.1

theorem longestFrom_spec (t : Text) (ws : List Text) : ∀ (i : Nat) (best : Nat × Option Nat),
    LongestFrom t i ws best (longestFrom t i ws best) := by
  induction ws with
  | nil => exact fun i best => ⟨.inl rfl, by simp, le_rfl⟩
  | cons w ws ih =>
    intro i best
    by_cases hw : w.isPrefixOf t = true ∧ best.1 < w.length
    · rw [longestFrom, if_pos hw]
      obtain ⟨hfound, hlongest, hle⟩ := ih (i + 1) (w.length, some i)
      refine ⟨.inr ?_, List.forall_mem_cons.mpr ⟨fun _ => hle, hlongest⟩, hw.2.le.trans hle⟩
      rcases hfound with h | ⟨j, v, hv, hpre, hlt, h⟩
      · exact ⟨0, w, rfl, List.isPrefixOf_iff_prefix.mp hw.1, hw.2, h⟩
      · exact ⟨j + 1, v, hv, hpre, hw.2.trans hlt, by rw [h, Nat.add_assoc, Nat.add_comm 1]⟩
    · rw [longestFrom, if_neg hw]
      obtain ⟨hfound, hlongest, hle⟩ := ih (i + 1) best
      refine ⟨?_, List.forall_mem_cons.mpr ⟨fun hpre => ?_, hlongest⟩, hle⟩
      · rcases hfound with h | ⟨j, v, hv, hpre, hlt, h⟩
        · exact .inl h
        · exact .inr ⟨j + 1, v, hv, hpre, hlt, by rw [h, Nat.add_assoc, Nat.add_comm 1]⟩
      · have hnot : ¬best.1 < w.length := fun hlt => hw ⟨List.isPrefixOf_iff_prefix.mpr hpre, hlt⟩
        omega

/-- `LM` finds nothing, or a word that the text starts with, at its index; no such word is longer than it says. -/
theorem longestMatch_cases (d : List Text) (t : Text) :
    (∀ w ∈ d, w <+: t → w.length ≤ (longestMatch d t).1) ∧
    (longestMatch d t = (0, none) ∨
      ∃ idx w, d[idx]? = some w ∧ w <+: t ∧ 1 ≤ w.length ∧ longestMatch d t = (w.length, some idx)) := by
  obtain ⟨hfound, hlongest, -⟩ := longestFrom_spec t d 0 (0, none)
  refine ⟨hlongest, hfound.imp id ?_⟩
  rintro ⟨j, w, hj, hpre, hlt, h⟩
  exact ⟨j, w, hj, hpre, hlt, by rwa [Nat.zero_add] at h⟩

theorem longestMatch_some {d : List Text} {t : Text} {len idx : Nat} (h : longestMatch d t = (len, some idx)) :
    1 ≤ len ∧ len ≤ t.length ∧ d[idx]? = some (t.take len) ∧ ∀ w ∈ d, w <+: t → w.length ≤ len := by
  obtain ⟨hlongest, h0 | ⟨j, w, hj, hpre, hpos, hw⟩⟩ := longestMatch_cases d t
  · exact absurd (congrArg Prod.snd (h.symm.trans h0)) (by simp)
  · obtain ⟨rfl, hidx⟩ := Prod.mk.inj (h.symm.trans hw)
    obtain rfl := Option.some.inj hidx
    refine ⟨hpos, hpre.length_le, ?_, fun v hv hp => (hlongest v hv hp).trans_eq (congrArg Prod.fst h)⟩
    rw [hj, ← List.prefix_iff_eq_take.mp hpre]

theorem longestMatch_none {d : List Text} {t : Text} (h : (longestMatch d t).2 = none) : longestMatch d t = (0, none) :=
  (longestMatch_cases d t).2.resolve_right fun ⟨_, _, _, _, _, hw⟩ => by simp [hw] at h

/-- In a dictionary without an empty word and without repeats (R13(c), D36) the index is the word's only one. -/
theorem longestMatch_eq_some_iff {d : List Text} {t : Text} (hd : Config.dictWf d = true) (len idx : Nat) :
    longestMatch d t = (len, some idx) ↔
      (1 ≤ len ∧ len ≤ t.length ∧ d[idx]? = some (t.take len) ∧ ∀ w ∈ d, w <+: t → w.length ≤ len) := by
  refine ⟨longestMatch_some, fun ⟨hpos, hle, hidx, hmax⟩ => ?_⟩
  have hlen : (t.take len).length = len := List.length_take_of_le hle
  obtain ⟨hlongest, h⟩ := longestMatch_cases d t
  have hge := hlongest _ (List.mem_of_getElem? hidx) (List.take_prefix len t)
  rcases h with h | ⟨j, w, hj, hpre, -, h⟩
  · rw [h, hlen] at hge
    omega
  · rw [h, hlen] at hge
    have hwlen : w.length = len := le_antisymm (hmax w (List.mem_of_getElem? hj) hpre) hge
    have hw : w = t.take len := hwlen ▸ List.prefix_iff_eq_take.mp hpre
    have hnodup : d.Nodup := by
      simp only [Config.dictWf, Bool.and_eq_true, decide_eq_true_eq] at hd
      exact hd.1.2
    have hjlt : j < d.length := (List.getElem?_eq_some_iff.mp hj).1
    have hji : j = idx := (List.getElem?_inj hjlt hnodup).mp (by rw [hj, hidx, hw])
    rw [h, hwlen, hji]

theorem longestMatch_of_no_prefix {d : List Text} {t : Text} (h : ∀ w ∈ d, ¬w <+: t) : longestMatch d t = (0, none) :=
  (longestMatch_cases d t).2.resolve_right fun ⟨_, w, hj, hpre, _, _⟩ => h w (List.mem_of_getElem? hj) hpre

/-! ## The best match (R112) -/

/-- A candidate of `BEST`: the longest match in one dictionary, the case swapped or not. -/
def candidate (c : Config) (t : Text) (sw : Bool) (sel : Dict) : Nat × Option Nat :=
  longestMatch (c.dict sel) (if sw then swapText t else t)

/-- The place of a candidate in R112's order. -/
def candidateRank (sw : Bool) (sel : Dict) : Nat := 2 * sw.toNat + selDigit sel

theorem candidateRank_inj {sw sw' : Bool} {sel sel' : Dict} (h : candidateRank sw sel = candidateRank sw' sel') :
    sw = sw' ∧ sel = sel' := by
  revert h
  cases sw <;> cases sel <;> cases sw' <;> cases sel' <;> decide

theorem candidateRank_lt (sw : Bool) (sel : Dict) : candidateRank sw sel < 4 := by
  cases sw <;> cases sel <;> decide

/-- `m` is the first among the longest of the candidates before rank `k`. -/
def IsBest (c : Config) (t : Text) (k : Nat) (m : Match) : Prop :=
  candidate c t m.sw m.sel = (m.len, some m.idx) ∧ ∀ sw sel, candidateRank sw sel < k →
    (candidate c t sw sel).1 < m.len ∨
      ((candidate c t sw sel).1 = m.len ∧ candidateRank m.sw m.sel ≤ candidateRank sw sel)

/-- What the loop of `BEST` holds after the candidates before rank `k`. -/
def BestBefore (c : Config) (t : Text) (k : Nat) : Option Match → Prop
  | none => ∀ sw sel, candidateRank sw sel < k → candidate c t sw sel = (0, none)
  | some m => IsBest c t k m ∧ candidateRank m.sw m.sel < k

theorem candidate_pos {c : Config} {t : Text} {sw : Bool} {sel : Dict} {len idx : Nat}
    (h : candidate c t sw sel = (len, some idx)) : 1 ≤ len := (longestMatch_some h).1

theorem candidate_cases (c : Config) (t : Text) (sw : Bool) (sel : Dict) :
    candidate c t sw sel = (0, none) ∨ ∃ len idx, candidate c t sw sel = (len, some idx) := by
  rcases h : candidate c t sw sel with ⟨len, _ | idx⟩
  · exact .inl (h.symm.trans (longestMatch_none (congrArg Prod.snd h)))
  · exact .inr ⟨len, idx, rfl⟩

theorem bestStep_of_none {c : Config} {t : Text} {sw : Bool} {sel : Dict} (best : Option Match)
    (h : candidate c t sw sel = (0, none)) : bestStep c t best sw sel = best := by
  rw [candidate] at h
  rw [bestStep, h]

theorem bestStep_of_some {c : Config} {t : Text} {sw : Bool} {sel : Dict} {len idx : Nat} (best : Option Match)
    (h : candidate c t sw sel = (len, some idx)) :
    bestStep c t best sw sel = if best.elim 0 Match.len < len then some ⟨len, idx, sel, sw⟩ else best := by
  rw [candidate] at h
  rw [bestStep, h]

/-- A claim about the candidates up to rank `k` is one about those before and the one of rank `k`. -/
theorem forall_rank_lt_succ {P : Bool → Dict → Prop} {k : Nat} {sw : Bool} {sel : Dict} (hk : candidateRank sw sel = k)
    (hlt : ∀ sw' sel', candidateRank sw' sel' < k → P sw' sel') (hlast : P sw sel) (sw' : Bool) (sel' : Dict)
    (h : candidateRank sw' sel' < k + 1) : P sw' sel' := by
  rcases Nat.lt_succ_iff_lt_or_eq.mp h with h | h
  · exact hlt sw' sel' h
  · obtain ⟨rfl, rfl⟩ := candidateRank_inj (h.trans hk.symm)
    exact hlast

/-- One turn of `BEST`'s loop. -/
theorem bestBefore_step {c : Config} {t : Text} {k : Nat} {best : Option Match} {sw : Bool} {sel : Dict}
    (hk : candidateRank sw sel = k) (hb : BestBefore c t k best) :
    BestBefore c t (k + 1) (bestStep c t best sw sel) := by
  rcases candidate_cases c t sw sel with h | ⟨len, idx, h⟩
  · rw [bestStep_of_none best h]
    cases best with
    | none => exact forall_rank_lt_succ hk hb h
    | some m =>
      obtain ⟨⟨hm, hmax⟩, hrank⟩ := hb
      have hpos := candidate_pos hm
      exact ⟨⟨hm, forall_rank_lt_succ hk hmax (.inl (by rw [h]; exact hpos))⟩, by omega⟩
  · have hpos := candidate_pos h
    have hself : (candidate c t sw sel).1 = len := congrArg Prod.fst h
    rw [bestStep_of_some best h]
    split
    next hlt =>
      refine ⟨⟨h, forall_rank_lt_succ hk (fun sw' sel' hr => .inl ?_) (.inr ⟨hself, le_rfl⟩)⟩, by rw [hk]; omega⟩
      cases best with
      | none => rw [hb sw' sel' hr]; exact hpos
      | some m =>
        have hle : (candidate c t sw' sel').1 ≤ m.len := (hb.1.2 sw' sel' hr).elim Nat.le_of_lt fun h => h.1.le
        exact hle.trans_lt hlt
    next hnot =>
      cases best with
      | none => exact absurd hpos hnot
      | some m =>
        obtain ⟨⟨hm, hmax⟩, hrank⟩ := hb
        have hle : len ≤ m.len := Nat.le_of_not_lt hnot
        refine ⟨⟨hm, forall_rank_lt_succ hk hmax ?_⟩, by omega⟩
        rw [hself, hk]
        omega

theorem bestMatch_bestBefore (c : Config) (t : Text) : BestBefore c t 4 (bestMatch c t) := by
  have h0 : BestBefore c t 0 none := fun _ _ h => absurd h (Nat.not_lt_zero _)
  have h1 := bestBefore_step (sw := false) (sel := .short) rfl h0
  have h2 := bestBefore_step (sw := false) (sel := .long) rfl h1
  have h3 := bestBefore_step (sw := true) (sel := .short) rfl h2
  exact bestBefore_step (sw := true) (sel := .long) rfl h3

/-- Two candidates that are both best have the same length and the same rank. -/
theorem IsBest.unique {c : Config} {t : Text} {m m' : Match} (h : IsBest c t 4 m) (h' : IsBest c t 4 m') : m = m' := by
  obtain ⟨hm, hmax⟩ := h
  obtain ⟨hm', hmax'⟩ := h'
  have h1 := hmax m'.sw m'.sel (candidateRank_lt _ _)
  have h2 := hmax' m.sw m.sel (candidateRank_lt _ _)
  rw [hm'] at h1
  rw [hm] at h2
  obtain ⟨hsw, hsel⟩ : m.sw = m'.sw ∧ m.sel = m'.sel := candidateRank_inj (by omega)
  rw [hsw, hsel, hm', Prod.mk.injEq, Option.some.injEq] at hm
  obtain ⟨len, idx, sel, sw⟩ := m
  obtain ⟨len', idx', sel', sw'⟩ := m'
  obtain ⟨rfl, rfl⟩ := hm
  rw [show sw = sw' from hsw, show sel = sel' from hsel]

theorem bestMatch_eq_some_iff {c : Config} {t : Text} {m : Match} : bestMatch c t = some m ↔ IsBest c t 4 m := by
  have hb := bestMatch_bestBefore c t
  constructor
  · intro h
    rw [h] at hb
    exact hb.1
  · intro h
    cases hm : bestMatch c t with
    | none =>
      rw [hm] at hb
      have h0 := h.1.symm.trans (hb m.sw m.sel (candidateRank_lt _ _))
      exact absurd (congrArg Prod.snd h0) (by simp)
    | some m' =>
      rw [hm] at hb
      rw [hb.1.unique h]

theorem bestMatch_eq_none_iff {c : Config} {t : Text} :
    bestMatch c t = none ↔ ∀ sw sel, candidate c t sw sel = (0, none) := by
  have hb := bestMatch_bestBefore c t
  constructor
  · intro h sw sel
    rw [h] at hb
    exact hb sw sel (candidateRank_lt _ _)
  · intro h
    cases hm : bestMatch c t with
    | none => rfl
    | some m =>
      rw [hm] at hb
      exact absurd (congrArg Prod.snd (hb.1.1.symm.trans (h m.sw m.sel))) (by simp)

/-! ## The parse (R113) -/

/-- What a turn of `PARSE` looks at: the text, without its first character if that is a space (D52). -/
def parseBody (ch : Char) (rest : Text) : Text := if ch = ' ' then rest else ch :: rest

theorem parseAux_word {c : Config} {ch : Char} {rest : Text} {m : Match} (h : bestMatch c (parseBody ch rest) = some m)
    (fuel : Nat) (first : Bool) : parseAux c (fuel + 1) first (ch :: rest) =
      .word m.idx m.sel m.sw first (decide (ch = ' ')) ::
        parseAux c fuel false ((parseBody ch rest).drop m.len) := by
  simp only [parseBody] at h ⊢
  simp only [parseAux, decide_eq_true_eq, h]

theorem parseAux_chr {c : Config} {ch : Char} {rest : Text} (h : bestMatch c (parseBody ch rest) = none)
    (fuel : Nat) (first : Bool) :
    parseAux c (fuel + 1) first (ch :: rest) = .chr ch :: parseAux c fuel false rest := by
  simp only [parseBody] at h
  simp only [parseAux, decide_eq_true_eq, h]

/-- A match takes at least one character. -/
theorem length_drop_parseBody_le {c : Config} {ch : Char} {rest : Text} {m : Match}
    (h : bestMatch c (parseBody ch rest) = some m) : ((parseBody ch rest).drop m.len).length ≤ rest.length := by
  have hpos := candidate_pos (bestMatch_eq_some_iff.mp h).1
  rw [List.length_drop, parseBody]
  split
  · omega
  · rw [List.length_cons]; omega

/-- As many turns as the text has characters are enough: more change nothing. -/
theorem parseAux_of_le (c : Config) (fuel : Nat) : ∀ (first : Bool) (t : Text), t.length ≤ fuel →
    parseAux c fuel first t = parseAux c t.length first t := by
  induction fuel using Nat.strong_induction_on with
  | _ fuel ih =>
    intro first t hle
    cases t with
    | nil => cases fuel <;> rfl
    | cons ch rest =>
      obtain ⟨fuel, rfl⟩ := Nat.exists_eq_succ_of_ne_zero (n := fuel) (by rintro rfl; simp at hle)
      have hrest : rest.length ≤ fuel := Nat.le_of_succ_le_succ hle
      cases hb : bestMatch c (parseBody ch rest) with
      | none =>
        rw [List.length_cons, parseAux_chr hb, parseAux_chr hb, ih fuel (Nat.lt_succ_self _) _ _ hrest]
      | some m =>
        have hdrop := length_drop_parseBody_le hb
        rw [List.length_cons, parseAux_word hb, parseAux_word hb, ih fuel (Nat.lt_succ_self _) _ _ (hdrop.trans hrest),
          ih rest.length (by omega) _ _ hdrop]

/-- `PARSE`'s loop without a bound on its turns. -/
def parseFrom (c : Config) (first : Bool) (t : Text) : List Part := parseAux c t.length first t

theorem parseFrom_word {c : Config} {ch : Char} {rest : Text} {m : Match} (h : bestMatch c (parseBody ch rest) = some m)
    (first : Bool) : parseFrom c first (ch :: rest) =
      .word m.idx m.sel m.sw first (decide (ch = ' ')) :: parseFrom c false ((parseBody ch rest).drop m.len) := by
  rw [parseFrom, List.length_cons, parseAux_word h, parseAux_of_le c _ _ _ (length_drop_parseBody_le h), parseFrom]

theorem parseFrom_chr {c : Config} {ch : Char} {rest : Text} (h : bestMatch c (parseBody ch rest) = none)
    (first : Bool) : parseFrom c first (ch :: rest) = .chr ch :: parseFrom c false rest := by
  rw [parseFrom, List.length_cons, parseAux_chr h, parseFrom]

/-! ## The digits (R115 to R119) -/

theorem chrDigit_eq (ch : Char) : chrDigit ch = if 32 ≤ ch.toNat ∧ ch.toNat ≤ 126 then ch.toNat - 31 else 1 := by
  by_cases h : 32 ≤ ch.toNat ∧ ch.toNat ≤ 126
  · have he : encodable ch = true := by simpa [encodable] using h
    rw [chrDigit, substituted, if_pos he, if_pos h]
    omega
  · have he : ¬encodable ch = true := by simpa [encodable] using h
    rw [chrDigit, substituted, if_neg he, if_neg h]
    rfl

theorem build_chr (c : Config) (ch : Char) (ps : List Part) :
    build c (.chr ch :: ps) =
      (build c ps * 96 + (if 32 ≤ ch.toNat ∧ ch.toNat ≤ 126 then ch.toNat - 31 else 1)) * 3 := by
  rw [← chrDigit_eq]; rfl

/-- The mode trit of a `Word` part, and before it the flag trit of one that is not the default (R117, R118). -/
theorem build_word (c : Config) (idx : Nat) (sel : Dict) (sw first sp : Bool) (ps : List Part) (n : Nat)
    (h : n = (build c ps * c.dictLen sel + idx) * 2 + selDigit sel) :
    build c (.word idx sel sw first sp :: ps) =
      if sp = !first then (if sw then (n * 3 + 0) * 3 + 2 else n * 3 + 1)
      else (n * 3 + (if sw then 2 else 1)) * 3 + 2 := by
  subst h
  cases sw <;> cases first <;> cases sp <;> rfl

theorem swapChar_eq (ch : Char) : swapChar ch =
    if 97 ≤ ch.toNat ∧ ch.toNat ≤ 122 then Char.ofNat (ch.toNat - 32)
    else if 65 ≤ ch.toNat ∧ ch.toNat ≤ 90 then Char.ofNat (ch.toNat + 32) else ch := by
  rw [swapChar]
  split
  next h => exact upperChar_of_small h
  next => split <;> [exact lowerChar_of_capital ‹_›; rfl]

/-! ## The obligation -/

/-- Settles O55: `LM` by induction on the dictionary, `BEST` by its four turns, `PARSE` without its bound on turns,
`BUILD` digit by digit. -/
theorem longestMatchIsLongest : Obligations.LongestMatchIsLongest := by
  unfold Obligations.LongestMatchIsLongest
  refine ⟨fun d t hd => ⟨longestMatch_eq_some_iff hd, longestMatch_of_no_prefix⟩, fun c t => ?_, fun c => ?_,
    fun c ps => ⟨rfl, fun ch => build_chr c ch ps, fun idx sel sw first sp n h => ?_⟩, fun c t => ⟨rfl, ?_⟩⟩
  · refine ⟨bestMatch_eq_none_iff, fun m => bestMatch_eq_some_iff.trans ?_⟩
    exact and_congr_right fun _ => ⟨fun h sw sel => h sw sel (candidateRank_lt sw sel), fun h sw sel _ => h sw sel⟩
  · refine ⟨parseFrom c.val, fun _ => rfl, fun _ => rfl, fun first ch rest body hbody => ?_⟩
    subst hbody
    exact ⟨fun m h => parseFrom_word h first, fun h => parseFrom_chr h first⟩
  · exact build_word c idx sel sw first sp ps n (by rw [h]; cases sel <;> rfl)
  · exact List.map_congr_left fun ch _ => swapChar_eq ch

end Sys2Proof.Machine
end

section
/-! What an instruction can do, said once: it computes on its operands, or it is one of the commands with an effect of
their own. From it follow the frames over all instructions: the obligations `OnlyStoresWriteRegisters` (R21),
`FlagWriters` (R23), `NothingBelowTheOperandsChanges` (R25, R26, R166), `ExecFrame` (R31, R54, R55) and
`StoreCommandsWriteTheirRegister` (R219 to R221). -/

namespace Sys2Proof.Machine

/-! ## Several pops, several pushes -/

/-- The state after `k` pops (R169). -/
def State.popN : Nat → State → State
  | 0, s => s
  | k + 1, s => popN k s.pop.2

/-- The state after the Values are pushed, the first first. -/
def State.pushAll (s : State) (vs : List Value) : State := { s with stk := s.stk ++ vs }

theorem State.foldl_push (vs : List Value) : ∀ s : State, vs.foldl State.push s = s.pushAll vs := by
  induction vs with
  | nil => intro s; simp [State.pushAll]
  | cons v vs ih => intro s; simp [ih, State.pushAll, State.push]

/-- What pops can change: the stack, the cursor and the accumulator. -/
theorem State.popN_frame (k : Nat) : ∀ s : State,
    s.popN k = { s with stk := (s.popN k).stk, icur := (s.popN k).icur, acc := (s.popN k).acc } := by
  induction k with
  | zero => exact fun _ => rfl
  | succ k ih =>
    intro s
    have h := ih s.pop.2
    rw [popN]
    generalize s.pop.2.popN k = u at h ⊢
    rwa [s.pop_frame] at h

@[simp] theorem State.popN_cfg (s : State) (k : Nat) : (s.popN k).cfg = s.cfg := by rw [s.popN_frame]
@[simp] theorem State.popN_rNot (s : State) (k : Nat) : (s.popN k).rNot = s.rNot := by rw [s.popN_frame]
@[simp] theorem State.popN_rEq (s : State) (k : Nat) : (s.popN k).rEq = s.rEq := by rw [s.popN_frame]
@[simp] theorem State.popN_rN (s : State) (k : Nat) : (s.popN k).rN = s.rN := by rw [s.popN_frame]
@[simp] theorem State.popN_cmp (s : State) (k : Nat) : (s.popN k).cmp = s.cmp := by rw [s.popN_frame]
@[simp] theorem State.popN_pnl (s : State) (k : Nat) : (s.popN k).pnl = s.pnl := by rw [s.popN_frame]
@[simp] theorem State.popN_log (s : State) (k : Nat) : (s.popN k).log = s.log := by rw [s.popN_frame]
@[simp] theorem State.popN_codecN (s : State) (k : Nat) : (s.popN k).codecN = s.codecN := by rw [s.popN_frame]

/-- Popping never brings the cursor past the input's end (R24, R169). -/
theorem State.pop_icur_le {s : State} (h : s.icur ≤ s.input.length) : s.pop.2.icur ≤ s.input.length := by
  rcases List.eq_nil_or_concat s.stk with he | ⟨xs, v, hs⟩
  · cases hl : s.input[s.icur]? with
    | some line =>
      rw [s.pop_of_input line he hl]
      exact (List.getElem?_eq_some_iff.mp hl).1
    | none => rwa [s.pop_of_acc he (List.getElem?_eq_none_iff.mp hl)]
  · rwa [s.pop_of_stack xs v (hs.trans List.concat_eq_append)]

theorem State.popN_icur_le (k : Nat) : ∀ s : State, s.icur ≤ s.input.length → (s.popN k).icur ≤ s.input.length := by
  induction k with
  | zero => exact fun _ h => h
  | succ k ih =>
    intro s h
    have hk := ih s.pop.2
    rw [s.pop_input] at hk
    exact hk (State.pop_icur_le h)

/-- With two values on top of `xs`, up to two pops take from these alone (R166). -/
theorem State.popN_of_two {s : State} {xs : List Value} {p2 p1 : Value} (h : s.stk = xs ++ [p2, p1]) {k : Nat}
    (hk : k ≤ 2) : xs <+: (s.popN k).stk ∧ (s.popN k).icur = s.icur ∧ (s.popN k).acc = s.acc := by
  have h1 : s.pop.2 = { s with stk := xs ++ [p2] } := by rw [s.pop_of_stack (xs ++ [p2]) p1 (by simp [h])]
  have h2 : s.pop.2.pop.2 = { s with stk := xs } := by
    rw [h1, State.pop_of_stack { s with stk := xs ++ [p2] } xs p2 rfl]
  match k, hk with
  | 0, _ => exact ⟨⟨[p2, p1], h.symm⟩, rfl, rfl⟩
  | 1, _ => simp [State.popN, h1]
  | 2, _ => simp [State.popN, h2]

/-- The relation `PopsTo` gives what `State.pop` computes (R169). -/
theorem PopsTo.pop_eq {s t : State} {v : Value} (h : PopsTo s v t) : s.pop = (v, t) := by
  rcases h with ⟨xs, hs, rfl⟩ | ⟨he, line, hl, rfl, rfl⟩ | ⟨he, hle, rfl, rfl⟩
  · exact s.pop_of_stack xs v hs
  · exact s.pop_of_input line he hl
  · exact s.pop_of_acc he hle

/-! ## What else a state on the same backdrop keeps (R27, R29) -/

theorem State.Keeps.trieS {s t : State} (h : s.Keeps t) : t.trieS = s.trieS := by rw [h.backdrop]; rfl

theorem State.Keeps.trieL {s t : State} (h : s.Keeps t) : t.trieL = s.trieL := by rw [h.backdrop]; rfl

theorem State.Keeps.codecParts {s t : State} (h : s.Keeps t) : t.codecParts = s.codecParts := by
  rw [h.backdrop]; rfl

theorem State.Keeps.codecPos {s t : State} (h : s.Keeps t) : t.codecPos = s.codecPos := by rw [h.backdrop]; rfl

/-! ## The effect of each row -/

/-- The rows that only compute: they pop operands and push Values that `CFG` and two pops' answers fix. -/
def computes : Instr → Bool
  | .armPush | .armCompress | .clearAcc | .explode | .storeNot | .storeEq | .storeN | .dump | .unimplCmd _
  | .unimplExt _ | .bad _ | .literal _ | .instructionByte _ => false
  | _ => true

/-- The rows that append a record to `LOG` (R281). -/
def logs : Instr → Bool
  | .dump | .unimplCmd _ | .unimplExt _ | .bad _ => true
  | _ => false

/-- The store command of a register (R219 to R221). -/
def storeInstr : Reg → Instr
  | .not => .storeNot
  | .eq => .storeEq
  | .n => .storeN

/-- What the record of a row that logs is made of: `CFG`, and for `⌂D` the stack machine (R212, R295). -/
def logRecord (s : State) : Instr → Diag
  | .unimplCmd q => .unknownCommand [q]
  | .unimplExt e => .unknownCommand [s.cfg.val.symExt, e]
  | .bad p => .unknownCommand [s.cfg.val.pfxSym p]
  | _ => s.dumpRecord

/-- The state change that a row is. -/
inductive Effect : Instr → (State → State) → Prop
  | compute {i : Instr} (k : Nat) (vs : WfConfig → Value → Value → List Value) (hi : computes i = true) (hk : k ≤ 2) :
      Effect i fun s => (s.popN k).pushAll (vs s.cfg s.pop.1 s.pop.2.pop.1)
  | store (r : Reg) : Effect (storeInstr r) fun s => ((s.popN 1).writeReg r s.pop.1).push s.pop.1
  | armPush : Effect .armPush fun s => s.setPnl true
  | armCompress : Effect .armCompress fun s => s.setCmp true
  | clearAcc : Effect .clearAcc fun s => s.setAcc []
  | explode : Effect .explode fun s => (s.setAcc []).pushAll (s.acc.map fun ch => .text [ch])
  | log {i : Instr} (hi : logs i = true) : Effect i fun s => s.raise (logRecord s i)
  | literal (syms : List Sym) : Effect (.literal syms) fun s => s.runLiteral syms

theorem explode_eq (s : State) :
    s.acc.foldl (fun s ch => s.push (.text [ch])) (s.setAcc []) =
      (s.setAcc []).pushAll (s.acc.map fun ch => .text [ch]) := by
  rw [← State.foldl_push, List.foldl_map]

theorem effect_pure0 {i : Instr} (hi : computes i = true) (v : WfConfig → Value) :
    Effect i fun s => dispatch0 s fun s => (s, some (v s.cfg)) :=
  .compute 0 (fun c _ _ => [v c]) hi (by decide)

theorem effect_pure1 {i : Instr} (hi : computes i = true) (f : Value → Value) :
    Effect i fun s => dispatch1 s (pure1 f) := .compute 1 (fun _ p1 _ => [f p1]) hi (by decide)

theorem effect_pure2 {i : Instr} (hi : computes i = true) (f : Value → Value → Value) :
    Effect i fun s => dispatch2 s (pure2 f) := .compute 2 (fun _ p1 p2 => [f p1 p2]) hi (by decide)

theorem execSelected_effect {i : Instr} (hi : ∀ q, i ≠ .instructionByte q) :
    ∃ f, Effect i f ∧ ∀ s, execSelected i s = .next (f s) := by
  cases i with
  | num ds => exact ⟨_, effect_pure0 rfl fun _ => .num (numLiteral ds), fun _ => rfl⟩
  | str q => exact ⟨_, effect_pure0 rfl fun c => .text [c.val.glyph q], fun _ => rfl⟩
  | upperAlpha | lowerAlpha | printable | space => exact ⟨_, effect_pure0 rfl fun _ => .text _, fun _ => rfl⟩
  | inc | dec | addTwo | subTwo | titleCase | apaTitle | capitalise | zeroRange =>
    exact ⟨_, effect_pure1 rfl _, fun _ => rfl⟩
  | add | sub | mul | div | concat | revConcat | index | head | tail | centre | join | range =>
    exact ⟨_, effect_pure2 rfl _, fun _ => rfl⟩
  | dup =>
    refine ⟨_, .compute 0 (fun _ p1 _ => [p1]) rfl (by decide), fun s => ?_⟩
    rw [← s.peek_eq_pop]
    rfl
  | swap =>
    exact ⟨_, .compute 2 (fun _ p1 p2 => [p1, p2]) rfl (by decide), fun s =>
      congrArg Host.Outcome.next (State.foldl_push [s.pop.1, s.pop.2.pop.1] s.pop.2.pop.2)⟩
  | drop =>
    exact ⟨_, .compute 1 (fun _ _ _ => []) rfl (by decide), fun s =>
      congrArg Host.Outcome.next (State.foldl_push [] s.pop.2)⟩
  | storeNot => exact ⟨_, .store .not, fun _ => rfl⟩
  | storeEq => exact ⟨_, .store .eq, fun _ => rfl⟩
  | storeN => exact ⟨_, .store .n, fun _ => rfl⟩
  | armPush => exact ⟨_, .armPush, fun _ => rfl⟩
  | armCompress => exact ⟨_, .armCompress, fun _ => rfl⟩
  | clearAcc => exact ⟨_, .clearAcc, fun _ => rfl⟩
  | explode => exact ⟨_, .explode, fun s => congrArg Host.Outcome.next (explode_eq s)⟩
  | dump | unimplCmd | unimplExt | bad => exact ⟨_, .log rfl, fun _ => rfl⟩
  | literal syms => exact ⟨_, .literal syms, fun _ => rfl⟩
  | instructionByte q => exact absurd rfl (hi q)

/-! ## An Instruction byte is a token's row (R70, R76) -/

/-- The instruction can be a token of an Instruction section. -/
def isToken : Instr → Bool
  | .literal _ | .instructionByte _ => false
  | _ => true

theorem commandOf_isToken {g : Char} {i : Instr} (h : commandOf g = some i) : isToken i = true := by
  unfold commandOf at h
  split at h <;> cases h <;> rfl

theorem extCommandOf_isToken {g : Char} {i : Instr} (h : extCommandOf g = some i) : isToken i = true := by
  unfold extCommandOf at h
  split at h <;> cases h <;> rfl

theorem isToken_instr (c : Config) (t : Token) : isToken (t.instr c) = true := by
  cases t with
  | num | str | bad => rfl
  | ext e =>
    cases h : extCommandOf (c.glyph e) with
    | none => simp [Token.instr, h, isToken]
    | some i => simp [Token.instr, h, extCommandOf_isToken h]
  | cmd q =>
    cases h : commandOf (c.glyph q) with
    | none => simp [Token.instr, h, isToken]
    | some i => simp [Token.instr, h, commandOf_isToken h]

theorem byteInstr_isToken (c : Config) (q : Sym) : isToken (byteInstr c q) = true := by
  unfold byteInstr
  split
  · exact isToken_instr c _
  · rfl

/-- The row an instruction is: a token's, or a Literal section's, which only that section itself is. -/
theorem selected_cases (c : Config) (i : Instr) :
    isToken (selected c i) = true ∨ ∃ syms, i = .literal syms ∧ selected c i = .literal syms := by
  cases i with
  | instructionByte q => exact .inl (byteInstr_isToken c q)
  | literal syms => exact .inr ⟨syms, rfl, rfl⟩
  | _ => exact .inl rfl

theorem selected_ne_instructionByte (c : Config) (i : Instr) (q : Sym) : selected c i ≠ .instructionByte q := by
  intro h
  rcases selected_cases c i with ht | ⟨syms, -, hl⟩
  · rw [h] at ht
    exact nomatch ht
  · exact nomatch h.symm.trans hl

theorem eq_literal_of_selected {c : Config} {i : Instr} {syms : List Sym} (h : selected c i = .literal syms) :
    i = .literal syms := by
  rcases selected_cases c i with ht | ⟨syms', hi, hl⟩
  · rw [h] at ht
    exact nomatch ht
  · exact hi.trans (hl.symm.trans h)

/-- Under one configuration an instruction is the effect of the row it is there. -/
theorem exec_eq_effect (i : Instr) (c : WfConfig) :
    ∃ f, Effect (selected c.val i) f ∧ ∀ s : State, s.cfg = c → exec i s = .next (f s) := by
  obtain ⟨f, hf, he⟩ := execSelected_effect (selected_ne_instructionByte c.val i)
  exact ⟨f, hf, fun s hc => by rw [exec_eq_execSelected, hc, he]⟩

theorem exec_effect {i : Instr} {s t : State} (h : exec i s = .next t) :
    ∃ f, Effect (selected s.cfg.val i) f ∧ t = f s := by
  obtain ⟨f, hf, he⟩ := exec_eq_effect i s.cfg
  exact ⟨f, hf, Host.Outcome.next.inj (h.symm.trans (he s rfl))⟩

/-! ## What the effects leave alone -/

/-- A Literal section leaves both flags clear and appends its text to the accumulator or pushes it (R162 to R164). -/
theorem State.runLiteral_eq (s : State) (syms : List Sym) : s.runLiteral syms =
    { s with
      cmp := false
      pnl := false
      codecN := if s.cmp then 0 else s.codecN
      stk := if s.pnl then s.stk ++ [.text (s.literalText syms)] else s.stk
      acc := if s.pnl then s.acc else s.acc ++ s.literalText syms } := by
  have ha : s.afterLiteral = { s with cmp := false, codecN := if s.cmp then 0 else s.codecN } := by
    cases hc : s.cmp with
    | true => exact s.afterLiteral_of_cmp hc
    | false => exact (s.afterLiteral_of_not_cmp hc).trans (by cases s; cases hc; rfl)
  rw [State.runLiteral]
  generalize s.literalText syms = t
  cases hp : s.pnl with
  | true =>
    rw [s.afterLiteral.routeLiteral_of_pnl t (by rw [ha, hp]), ha]
    rfl
  | false =>
    rw [s.afterLiteral.routeLiteral_of_not_pnl t (by rw [ha, hp]), ha]
    simp [← hp]

section
variable {i : Instr} {f : State → State}

/-- Only the store commands write the registers (R21). -/
theorem Effect.registers (h : Effect i f) (s : State) :
    (i ≠ .storeNot → (f s).rNot = s.rNot) ∧ (i ≠ .storeEq → (f s).rEq = s.rEq) ∧
    (i ≠ .storeN → (f s).rN = s.rN) := by
  cases h with
  | store r => cases r <;> simp [storeInstr, State.writeReg]
  | compute k => simp [State.pushAll]
  | literal syms => simp [s.runLiteral_eq]
  | armPush | armCompress | clearAcc | explode | log => exact ⟨fun _ => rfl, fun _ => rfl, fun _ => rfl⟩

theorem ne_flag_row (hi : computes i = true ∨ logs i = true) :
    i ≠ .armCompress ∧ i ≠ .armPush ∧ ∀ syms, i ≠ .literal syms := by
  cases i with
  | armCompress | armPush | literal => simp [computes, logs] at hi
  | _ => simp

/-- The flags' writers (R23). -/
theorem Effect.flags (h : Effect i f) (s : State) :
    (i = .armCompress → (f s).cmp = true ∧ (f s).pnl = s.pnl) ∧
    (i = .armPush → (f s).pnl = true ∧ (f s).cmp = s.cmp) ∧
    (∀ syms, i = .literal syms → (f s).cmp = false ∧ (f s).pnl = false) ∧
    (i ≠ .armCompress → i ≠ .armPush → (∀ syms, i ≠ .literal syms) → (f s).cmp = s.cmp ∧ (f s).pnl = s.pnl) := by
  cases h with
  | armPush | armCompress | clearAcc | explode => simp [State.pushAll]
  | literal syms => simp [s.runLiteral_eq]
  | store r => cases r <;> simp [storeInstr]
  | compute k vs hi =>
    obtain ⟨hc, hp, hl⟩ := ne_flag_row (.inl hi)
    simp [State.pushAll, hc, hp, hl]
  | log hi =>
    obtain ⟨hc, hp, hl⟩ := ne_flag_row (.inr hi)
    simp [hc, hp, hl]

/-- With two values on top of `xs` every row works on what stands above `xs`; only `#`, `…` and a Literal section
write the accumulator (R25, R26, R166). -/
theorem Effect.operands (h : Effect i f) {s : State} {xs : List Value} {p2 p1 : Value} (hs : s.stk = xs ++ [p2, p1]) :
    xs <+: (f s).stk ∧ (f s).icur = s.icur ∧
    (i ≠ .clearAcc → i ≠ .explode → (∀ syms, i ≠ .literal syms) → (f s).acc = s.acc) := by
  have hxs : xs <+: s.stk := ⟨[p2, p1], hs.symm⟩
  cases h with
  | compute k _ _ hk =>
    obtain ⟨hstk, hicur, hacc⟩ := State.popN_of_two hs hk
    exact ⟨hstk.trans (List.prefix_append _ _), hicur, fun _ _ _ => hacc⟩
  | store r =>
    obtain ⟨hstk, hicur, hacc⟩ := State.popN_of_two hs (k := 1) (by decide)
    simpa [hicur, hacc] using hstk.trans (List.prefix_append _ _)
  | explode => exact ⟨hxs.trans (List.prefix_append _ _), rfl, fun _ h => absurd rfl h⟩
  | literal syms =>
    have hstk : s.stk <+: (s.runLiteral syms).stk := by
      rw [s.runLiteral_eq]
      cases s.pnl <;> simp
    exact ⟨hxs.trans hstk, (congrArg State.icur (s.runLiteral_eq syms) :), fun _ _ h => absurd rfl (h syms)⟩
  | armPush | armCompress | clearAcc | log => simp [hxs]

/-- Only a Literal section writes `N`, and only an unimplemented or dangling token or `⌂D` writes `LOG` (R54). -/
theorem Effect.codecN_log (h : Effect i f) (s : State) :
    ((∀ syms, i ≠ .literal syms) → (f s).codecN = s.codecN) ∧ (logs i = false → (f s).log = s.log) := by
  cases h with
  | compute k => simp [State.pushAll]
  | literal syms => simp [s.runLiteral_eq]
  | log hi => simp [hi]
  | store | armPush | armCompress | clearAcc | explode => simp [State.pushAll]

/-- No row brings the cursor past the input's end (R24). -/
theorem Effect.icur_le (h : Effect i f) {s : State} (hs : s.icur ≤ s.input.length) :
    (f s).icur ≤ s.input.length := by
  cases h with
  | compute k => exact s.popN_icur_le k hs
  | store r => simpa using s.popN_icur_le 1 hs
  | literal syms => simpa [s.runLiteral_eq] using hs
  | armPush | armCompress | clearAcc | explode | log => exact hs

end

/-! ## The obligations -/

/-- Settles O44: the row's effect, store commands apart. -/
theorem onlyStoresWriteRegisters : Obligations.OnlyStoresWriteRegisters := by
  unfold Obligations.OnlyStoresWriteRegisters
  intro i s t h
  obtain ⟨f, hf, rfl⟩ := exec_effect h
  exact hf.registers s

/-- Settles O45: the row's effect; a Literal section is its own row. -/
theorem flagWriters : Obligations.FlagWriters := by
  unfold Obligations.FlagWriters
  intro i s t h
  obtain ⟨f, hf, rfl⟩ := exec_effect h
  obtain ⟨hcompress, hpush, hlit, hother⟩ := hf.flags s
  refine ⟨hcompress, hpush, ?_, fun hc hp hl => hother hc hp fun syms hs => hl syms (eq_literal_of_selected hs)⟩
  rintro syms rfl
  exact hlit syms rfl

/-- Settles O46: no row pops more than two. -/
theorem nothingBelowTheOperandsChanges : Obligations.NothingBelowTheOperandsChanges := by
  unfold Obligations.NothingBelowTheOperandsChanges
  intro i s t xs p2 p1 hs h
  obtain ⟨f, hf, rfl⟩ := exec_effect h
  obtain ⟨hstk, hicur, hacc⟩ := hf.operands hs
  exact ⟨hstk, hicur, fun hc he hl => hacc hc he fun syms hs => hl syms (eq_literal_of_selected hs)⟩

/-- A row that is none of the four that log. -/
theorem logs_eq_false {i : Instr} (hc : ∀ q, i ≠ .unimplCmd q) (he : ∀ e, i ≠ .unimplExt e) (hb : ∀ p, i ≠ .bad p)
    (hd : i ≠ .dump) : logs i = false := by
  cases i with
  | unimplCmd q => exact absurd rfl (hc q)
  | unimplExt e => exact absurd rfl (he e)
  | bad p => exact absurd rfl (hb p)
  | dump => exact absurd rfl hd
  | _ => rfl

/-- Settles O47: every instruction is local, and the row's effect says who logs. -/
theorem execFrame : Obligations.ExecFrame := by
  unfold Obligations.ExecFrame
  intro i s t h
  have hk := exec_keeps h
  obtain ⟨f, hf, rfl⟩ := exec_effect h
  obtain ⟨hn, hlog⟩ := hf.codecN_log s
  refine ⟨hk.cfg, hk.prog, fun a => by rw [hk.prog], hk.input, hk.pc, hk.result, hk.trieS, hk.trieL, hk.codecParts,
    hk.codecPos, fun hl => hn fun syms hs => hl syms (eq_literal_of_selected hs),
    fun hc he hb hd => hlog (logs_eq_false hc he hb hd)⟩

/-- Settles O31: the pop, then the write and the push. -/
theorem storeCommandsWriteTheirRegister : Obligations.StoreCommandsWriteTheirRegister := by
  unfold Obligations.StoreCommandsWriteTheirRegister
  intro s t v h
  have hstore : ∀ r, dispatch1 s (storeReg r) = (t.writeReg r v).push v := fun r => by
    rw [dispatch1_storeReg, h.pop_eq]
  exact ⟨congrArg Host.Outcome.next (hstore .not), congrArg Host.Outcome.next (hstore .eq),
    congrArg Host.Outcome.next (hstore .n)⟩

end Sys2Proof.Machine
end

section
/-! Steps: what `pc` selects is run and `pc` advances (R161), what a step leaves alone (R27, R29, R31), that it never
traps (R280), and that it reads neither `LOG` nor the hidden state: the obligations `StepRunsWhatPcSelects`,
`EndOfSectionPrintsTheTop`, `StepKeepsRunParameters`, `PcOnlyMovesForward`, `NoStepTraps`, `HostRunForgetsTheState`,
`NoStepReadsTheLog`, `NoStepReadsHiddenState` and `ResetState`. -/

namespace Sys2Proof.Machine

/-! ## What a step keeps and where it brings `pc` -/

theorem runLiteral_keeps (s : State) (syms : List Sym) : s.Keeps (s.runLiteral syms) := (local_literal syms).keeps s

theorem endOfSection_keeps (s : State) : s.Keeps s.endOfSection := local_endOfSection.keeps s

/-- What a step that gives a next state did, for what it leaves alone: it went on from a state with the same parameters
to the next token or section, or it ended the run. -/
theorem step_keeps_cases {s t : State} (h : step s = .next t) :
    (∃ u, s.Keeps u ∧ (t = u.nextToken ∨ t = u.nextSection)) ∨
    (s.fetch = .ended ∧ s.result = none ∧ t = { s with result := some s.acc }) := by
  rcases step_next_cases s t h with ⟨i, u, -, hu, rfl, -⟩ | ⟨syms, -, rfl, -⟩ | ⟨-, rfl, -⟩ | ⟨hf, hr, rfl, -⟩
  · exact .inl ⟨u, exec_keeps hu, .inl rfl⟩
  · exact .inl ⟨_, runLiteral_keeps s syms, .inr rfl⟩
  · exact .inl ⟨_, endOfSection_keeps s, .inr rfl⟩
  · exact .inr ⟨hf, hr, rfl⟩

/-! ## Steps that stop -/

theorem step_of_result {s : State} {r : Text} (hf : s.fetch = .ended) (hr : s.result = some r) :
    step s = .fault .runEnded := by
  simp only [step, hf, State.endOfRun, hr, retire]

/-- Under unlimited capacities a step gives a next state, unless the run is over. -/
theorem step_safe {s : State} (hu : s.unlimited = true) : s.SafeStep := by
  cases hf : s.fetch with
  | token i =>
    obtain ⟨u, h⟩ := exec_total i s
    exact .inl ⟨_, step_token hu hf h⟩
  | literal syms => exact .inl ⟨_, step_literal hu hf rfl⟩
  | boundary => exact .inl ⟨_, step_boundary hu hf⟩
  | ended =>
    cases hr : s.result with
    | none => exact .inl ⟨_, step_ended hu hf hr⟩
    | some r => exact .inr ⟨step_of_result hf hr, hf, by rw [hr]; rfl⟩

theorem retire_cases (u : State) (adv : State → State) :
    retire (.next u) adv = .next (adv u) ∨ retire (.next u) adv = .refused .capacityExceeded := by
  rw [retire]
  split
  · exact .inl rfl
  · exact .inr rfl

/-- A step gives a next state, or is refused for a capacity, or the run is over. -/
theorem step_cases (s : State) : (∃ t, step s = .next t) ∨ step s = .refused .capacityExceeded ∨
    (step s = .fault .runEnded ∧ s.fetch = .ended ∧ s.result.isSome = true) := by
  have hretire : ∀ {u adv}, step s = retire (.next u) adv →
      (∃ t, step s = .next t) ∨ step s = .refused .capacityExceeded := fun {u adv} h =>
    (retire_cases u adv).imp (fun hr => ⟨adv u, h.trans hr⟩) h.trans
  cases hf : s.fetch with
  | token i =>
    obtain ⟨u, h⟩ := exec_total i s
    exact (hretire (u := u) (adv := State.nextToken) (by simp only [step, hf, h])).imp_right .inl
  | literal syms =>
    by_cases hfits : s.cmp = true ∧ s.codecFits (unpack syms) = false
    · exact .inr (.inl (by simp only [step, hf, if_pos hfits]))
    · have hstep : step s = retire (.next (s.runLiteral syms)) State.nextSection := by
        simp only [step, hf]
        exact if_neg hfits
      exact (hretire hstep).imp_right .inl
  | boundary =>
    exact (hretire (u := s.endOfSection) (adv := State.nextSection) (by simp only [step, hf])).imp_right .inl
  | ended =>
    cases hr : s.result with
    | none =>
      have hstep : step s = retire (.next { s with result := some s.acc }) id := by
        simp only [step, hf, State.endOfRun, hr]
      exact (hretire hstep).imp_right .inl
    | some r => exact .inr (.inr ⟨step_of_result hf hr, rfl, rfl⟩)

/-! ## What no step reads -/

/-- `s` with another log, and the tries and the codec's working state of `u` but with `n` in `N`. -/
def State.withUnread (s : State) (l : List Diag) (n : Nat) (u : State) : State :=
  { s with log := l, codecN := n, trieS := u.trieS, trieL := u.trieL, codecParts := u.codecParts,
           codecPos := u.codecPos }

theorem State.pop_withUnread (s : State) (l : List Diag) (n : Nat) (u : State) :
    (s.withUnread l n u).pop = (s.pop.1, s.pop.2.withUnread l n u) := by
  rcases List.eq_nil_or_concat s.stk with he | ⟨xs, v, hs⟩
  · cases hl : s.input[s.icur]? with
    | some line => rw [s.pop_of_input line he hl, (s.withUnread l n u).pop_of_input line he hl]; rfl
    | none =>
      have hle := List.getElem?_eq_none_iff.mp hl
      rw [s.pop_of_acc he hle, (s.withUnread l n u).pop_of_acc he hle]; rfl
  · rw [List.concat_eq_append] at hs
    rw [s.pop_of_stack xs v hs, (s.withUnread l n u).pop_of_stack xs v hs]; rfl

theorem State.popN_withUnread (l : List Diag) (n : Nat) (u : State) (k : Nat) : ∀ s : State,
    (s.withUnread l n u).popN k = (s.popN k).withUnread l n u := by
  induction k with
  | zero => exact fun _ => rfl
  | succ k ih => intro s; rw [popN, State.pop_withUnread, ih, popN]

theorem logRecord_withUnread (s : State) (l : List Diag) (n : Nat) (u : State) {i : Instr} :
    logRecord (s.withUnread l n u) i = logRecord s i := by
  cases i <;> rfl

/-- With other unread state a transition does the same, appends the same to `LOG`, and leaves that state as it was, but
for `N`, whose end value the log does not change. -/
def Blind (f : State → State) : Prop :=
  ∀ s, ∃ d, (f s).log = s.log ++ d ∧ ∀ n, ∃ n', ∀ l u,
    f (s.withUnread l n u) = (f s).withUnread (l ++ d) n' u

/-- A transition that writes neither `LOG` nor `N`. -/
theorem blind_of_silent {f : State → State} (hlog : ∀ s, (f s).log = s.log)
    (hf : ∀ s l n u, f (s.withUnread l n u) = (f s).withUnread l n u) : Blind f := fun s =>
  ⟨[], by rw [hlog, List.append_nil], fun n => ⟨n, fun l u => by rw [hf, List.append_nil]⟩⟩

theorem blind_runLiteral (syms : List Sym) : Blind fun s => s.runLiteral syms := fun s => by
  refine ⟨[], by simp [s.runLiteral_eq], fun n => ⟨if s.cmp then 0 else n, fun l u => ?_⟩⟩
  have htext : (s.withUnread l n u).literalText syms = s.literalText syms := rfl
  simp only [State.runLiteral_eq, htext, List.append_nil]
  rfl

theorem Effect.blind {i : Instr} {f : State → State} (h : Effect i f) : Blind f := by
  cases h with
  | compute k vs =>
    refine blind_of_silent (fun s => s.popN_log k) fun s l n u => ?_
    rw [State.popN_withUnread, State.pop_withUnread, State.pop_withUnread]
    rfl
  | store r =>
    refine blind_of_silent (fun s => by simp) fun s l n u => ?_
    rw [State.popN_withUnread, State.pop_withUnread]
    cases r <;> rfl
  | log =>
    refine fun s => ⟨[logRecord s i], rfl, fun n => ⟨n, fun l u => ?_⟩⟩
    simp only [logRecord_withUnread]
    rfl
  | literal syms => exact blind_runLiteral syms
  | armPush | armCompress | clearAcc | explode => exact blind_of_silent (fun _ => rfl) fun _ _ _ _ => rfl

theorem blind_endOfSection : Blind State.endOfSection := by
  have hfields : ∀ s : State, s.endOfSection.log = s.log ∧
      ∀ l n u, (s.withUnread l n u).endOfSection = s.endOfSection.withUnread l n u := fun s => by
    cases hp : s.pnl with
    | true =>
      exact ⟨by rw [s.endOfSection_of_pnl hp], fun l n u => by
        rw [s.endOfSection_of_pnl hp, (s.withUnread l n u).endOfSection_of_pnl hp]⟩
    | false =>
      rcases List.eq_nil_or_concat s.stk with he | ⟨xs, v, hs⟩
      · exact ⟨by rw [s.endOfSection_of_empty hp he]; rfl, fun l n u => by
          rw [s.endOfSection_of_empty hp he, (s.withUnread l n u).endOfSection_of_empty hp he]; rfl⟩
      · rw [List.concat_eq_append] at hs
        exact ⟨by rw [s.endOfSection_of_top xs v hp hs]; rfl, fun l n u => by
          rw [s.endOfSection_of_top xs v hp hs, (s.withUnread l n u).endOfSection_of_top xs v hp hs]; rfl⟩
  exact blind_of_silent (fun s => (hfields s).1) fun s => (hfields s).2

/-- A step that is a blind transition and an advance of `pc` does not show what it does not read. -/
theorem blind_retire {s t : State} {f adv : State → State} (hf : Blind f)
    (hadv : ∀ v l n u, adv (v.withUnread l n u) = (adv v).withUnread l n u)
    (hstep : ∀ l n u, step (s.withUnread l n u) = retire (.next (f (s.withUnread l n u))) adv)
    (h : step s = .next t) : ∃ d, t.log = s.log ++ d ∧ ∀ n, ∃ n', ∀ l u,
      step (s.withUnread l n u) = .next (t.withUnread (l ++ d) n' u) := by
  obtain ⟨d, hd, hn⟩ := hf s
  obtain ⟨v, hv, rfl, hfit⟩ := retire_next _ _ t ((hstep s.log s.codecN s).symm.trans h)
  obtain rfl : f s = v := Host.Outcome.next.inj hv
  have hlog : (adv (f s)).log = (f s).log := (congrArg State.log (hadv (f s) (f s).log (f s).codecN (f s)) :)
  refine ⟨d, hlog.trans hd, fun n => ?_⟩
  obtain ⟨n', hn'⟩ := hn n
  refine ⟨n', fun l u => ?_⟩
  rw [hstep, hn', ← hadv]
  exact if_pos (by rw [hadv]; exact hfit)

theorem step_withUnread {s t : State} (h : step s = .next t) : ∃ d, t.log = s.log ++ d ∧ ∀ n, ∃ n', ∀ l u,
    step (s.withUnread l n u) = .next (t.withUnread (l ++ d) n' u) := by
  have hfetch : ∀ l n u, (s.withUnread l n u).fetch = s.fetch := fun _ _ _ => rfl
  cases hf : s.fetch with
  | token i =>
    obtain ⟨f, he, hexec⟩ := exec_eq_effect i s.cfg
    refine blind_retire he.blind (adv := State.nextToken) (fun _ _ _ _ => rfl) (fun l n u => ?_) h
    simp only [step, hfetch, hf, hexec (s.withUnread l n u) rfl]
  | literal syms =>
    by_cases hfits : s.cmp = true ∧ s.codecFits (unpack syms) = false
    · simp only [step, hf, if_pos hfits] at h
      exact nomatch h
    · refine blind_retire (blind_runLiteral syms) (adv := State.nextSection) (fun _ _ _ _ => rfl) (fun l n u => ?_) h
      simp only [step, hfetch, hf]
      exact if_neg hfits
  | boundary =>
    refine blind_retire blind_endOfSection (adv := State.nextSection) (fun _ _ _ _ => rfl) (fun l n u => ?_) h
    simp only [step, hfetch, hf]
  | ended =>
    cases hr : s.result with
    | some r => exact nomatch h.symm.trans (step_of_result hf hr)
    | none =>
      have hblind : Blind fun s => { s with result := some s.acc } :=
        blind_of_silent (fun _ => rfl) fun _ _ _ _ => rfl
      refine blind_retire hblind (adv := id) (fun _ _ _ _ => rfl) (fun l n u => ?_) h
      have hr' : (s.withUnread l n u).result = none := hr
      simp only [step, hfetch, hf, State.endOfRun, hr']

/-! ## The obligations -/

/-- Settles O7: one lemma for each thing that `pc` can select. -/
theorem stepRunsWhatPcSelects : Obligations.StepRunsWhatPcSelects := by
  unfold Obligations.StepRunsWhatPcSelects
  intro s hu
  refine ⟨fun i t => step_token hu, fun syms t => step_literal hu, fun hf => ?_, step_ended hu,
    fun hf r => step_of_result hf⟩
  rw [step_boundary hu hf, State.nextSection, (endOfSection_keeps s).pc]
  rfl

/-- Settles O9: the reset state, field by field. -/
theorem resetState : Obligations.ResetState := ⟨rfl, rfl, rfl, rfl, rfl, rfl, rfl, rfl, rfl, rfl⟩

/-- Settles O12: the state that the step goes on from keeps the parameters, the tries and the encoder's state. -/
theorem stepKeepsRunParameters : Obligations.StepKeepsRunParameters := by
  unfold Obligations.StepKeepsRunParameters
  intro s t h
  rcases step_keeps_cases h with ⟨u, hk, ht⟩ | ⟨-, -, rfl⟩
  · rcases ht with rfl | rfl <;>
      exact ⟨hk.cfg, hk.input, fun a => congrArg (Memory.read · a) hk.prog, hk.prog, hk.trieS, hk.trieL, hk.codecParts,
        hk.codecPos⟩
  · exact ⟨rfl, rfl, fun _ => rfl, rfl, rfl, rfl, rfl, rfl⟩

/-- Settles O13: `pc` advances from where the step found it, or the step writes `RESULT`. -/
theorem pcOnlyMovesForward : Obligations.PcOnlyMovesForward := by
  unfold Obligations.PcOnlyMovesForward
  intro s t h
  rcases step_keeps_cases h with ⟨u, hk, rfl | rfl⟩ | ⟨hf, hr, rfl⟩
  · exact .inl (by rw [State.nextToken_pc, hk.pc])
  · exact .inr (.inl (by rw [State.nextSection_pc, hk.pc]))
  · exact .inr (.inr ⟨rfl, hf, hr, rfl⟩)

/-- Settles O14: the three ways a step can end, and that without limits there is no refusal. -/
theorem noStepTraps : Obligations.NoStepTraps := by
  unfold Obligations.NoStepTraps
  intro s
  refine ⟨step_safe, fun r hr => ⟨?_, ?_⟩, fun f hf => ?_⟩
  · rcases step_cases s with ⟨t, h⟩ | h | ⟨h, -⟩
    · exact nomatch h.symm.trans hr
    · exact (Host.Outcome.refused.inj (h.symm.trans hr)).symm
    · exact nomatch h.symm.trans hr
  · refine Bool.eq_false_iff.mpr fun hu => ?_
    rcases step_safe hu with ⟨t, h⟩ | ⟨h, -⟩ <;> exact nomatch h.symm.trans hr
  · rcases step_cases s with ⟨t, h⟩ | h | ⟨-, hend⟩
    · exact nomatch h.symm.trans hf
    · exact nomatch h.symm.trans hf
    · exact hend

/-- Settles O18: the two runs start alike but for the trie cache, which no step reads. -/
theorem hostRunForgetsTheState : Obligations.HostRunForgetsTheState := by
  unfold Obligations.HostRunForgetsTheState
  exact fun _ _ _ _ _ hc h => hostRun_of_cfg hc h

/-- Settles O20: the step is blind to the log; taken with the old log it shows what is left in the other fields. -/
theorem noStepReadsTheLog : Obligations.NoStepReadsTheLog := by
  unfold Obligations.NoStepReadsTheLog
  intro s t l h
  obtain ⟨d, hd, hn⟩ := step_withUnread h
  obtain ⟨n', hn'⟩ := hn s.codecN
  have ht : t = t.withUnread (s.log ++ d) n' s := Host.Outcome.next.inj (h.symm.trans (hn' s.log s))
  exact ⟨d, hd, (hn' l s).trans (congrArg (fun v : State => Host.Outcome.next { v with log := l ++ d }) ht.symm)⟩

/-- Settles O21: the step is blind to the tries and the codec's working state. -/
theorem noStepReadsHiddenState : Obligations.NoStepReadsHiddenState := by
  unfold Obligations.NoStepReadsHiddenState
  intro s t a b n ps p h
  obtain ⟨d, hd, hn⟩ := step_withUnread h
  obtain ⟨n', hn'⟩ := hn n
  refine ⟨n', (hn' s.log { s with trieS := a, trieL := b, codecParts := ps, codecPos := p }).trans ?_⟩
  rw [← hd]
  rfl

/-- Settles O23: the three ways the action can go. -/
theorem endOfSectionPrintsTheTop : Obligations.EndOfSectionPrintsTheTop := by
  unfold Obligations.EndOfSectionPrintsTheTop
  intro s hf hu
  have hstep := step_boundary hu hf
  refine ⟨fun hp => ?_, fun hp he => ?_, fun xs v hp hs => ?_⟩
  · rw [hstep, s.endOfSection_of_pnl hp]; rfl
  · have hreset : s.boundaryReset = { s with icur := 0 } := by rw [State.boundaryReset, he]
    rw [hstep, s.endOfSection_of_empty hp he, hreset]; rfl
  · rw [hstep, s.endOfSection_of_top xs v hp hs]; rfl

end Sys2Proof.Machine
end

section
/-! Sections and tokens in their place (R22, R74 to R77): where `pc` stands in `PROG`, what decodes there, and what
holds of every state of a run: the obligations `StepKeepsInvariant`, `LoadedResetMeetsInvariant` (R22 to R24, R34, R55) and
`StepRunsTheDecodedInstruction` (R22, R161). -/

namespace Sys2Proof

/-! ## The splitter (R74, R75) -/

/-- What stands after a section: one of the other kind, not empty. -/
def Follows (a b : Section) : Prop := b.kind ≠ a.kind ∧ b.text ≠ []

theorem isChain_splitAux (bs : List Byte) : ∀ (k : Kind) (text : List Sym) (sec : Section), sec.kind ≠ k → text ≠ [] →
    List.IsChain Follows (sec :: splitAux k text bs) := by
  induction bs with
  | nil =>
    intro k text sec hk ht
    simp [splitAux, ht, Follows, hk.symm]
  | cons b bs ih =>
    intro k text sec hk ht
    rw [splitAux]
    split
    next => exact ih k _ sec hk (by simp)
    next hb => exact .cons_cons ⟨hk.symm, ht⟩ (ih _ _ ⟨k, text⟩ (Ne.symm hb) (by simp))

/-- Kinds alternate, and no section but the first is empty (R75). -/
theorem isChain_split (bytes : List Byte) : List.IsChain Follows (split bytes) := by
  cases bytes with
  | nil => exact .nil
  | cons b bs =>
    rw [split, splitAux]
    split
    next => exact (isChain_splitAux bs .instruction [symOf b] ⟨.literal, []⟩ (by decide) (by simp)).tail
    next hb => exact isChain_splitAux bs (kindOf b) [symOf b] ⟨.instruction, []⟩ (Ne.symm hb) (by simp)

theorem split_follows {bytes : List Byte} {k : Nat} {a b : Section} (ha : (split bytes)[k]? = some a)
    (hb : (split bytes)[k + 1]? = some b) : Follows a b := by
  obtain ⟨hlt, rfl⟩ := List.getElem?_eq_some_iff.mp hb
  obtain ⟨-, rfl⟩ := List.getElem?_eq_some_iff.mp ha
  exact List.isChain_iff_getElem.mp (isChain_split bytes) k hlt

theorem splitAux_head (bs : List Byte) : ∀ (k : Kind) (text : List Sym) (sec : Section),
    (splitAux k text bs)[0]? = some sec → sec.kind = k := by
  induction bs with
  | nil =>
    intro k text sec h
    rw [splitAux] at h
    split at h <;> cases h
    rfl
  | cons b bs ih =>
    intro k text sec h
    rw [splitAux] at h
    split at h
    · exact ih _ _ _ h
    · cases h
      rfl

/-- A Literal section has a symbol: the one section that can be empty is an Instruction section (R75). -/
theorem split_literal_ne_nil {bytes : List Byte} {k : Nat} {sec : Section} (h : (split bytes)[k]? = some sec)
    (hk : sec.kind = .literal) : sec.text ≠ [] := by
  cases k with
  | zero => exact nomatch hk.symm.trans (splitAux_head bytes _ _ sec h)
  | succ k =>
    obtain ⟨hlt, -⟩ := List.getElem?_eq_some_iff.mp h
    exact (split_follows (List.getElem?_eq_getElem (Nat.lt_of_succ_lt hlt)) h).2

theorem splitAux_bytes (bs : List Byte) : ∀ (k : Kind) (text : List Sym),
    (splitAux k text bs).flatMap Section.bytes = text.map (byteOf k) ++ bs := by
  induction bs with
  | nil => intro k text; cases text <;> simp [splitAux, Section.bytes]
  | cons b bs ih =>
    intro k text
    rw [splitAux]
    split
    next hb => subst hb; simp [ih]
    next => simp [ih, Section.bytes]

/-- The splitter loses nothing (R75). -/
theorem split_bytes (bytes : List Byte) : (split bytes).flatMap Section.bytes = bytes := splitAux_bytes bytes _ _

/-- Past the sections before index `k` stand the bytes of the others. -/
theorem drop_flatMap_bytes (secs : List Section) (k : Nat) :
    (secs.flatMap Section.bytes).drop ((secs.take k).map fun sec => sec.text.length).sum =
      (secs.drop k).flatMap Section.bytes := by
  have hsplit : secs.flatMap Section.bytes =
      (secs.take k).flatMap Section.bytes ++ (secs.drop k).flatMap Section.bytes := by
    rw [← List.flatMap_append, List.take_append_drop]
  have hlen : ((secs.take k).flatMap Section.bytes).length = ((secs.take k).map fun sec => sec.text.length).sum := by
    simp [List.length_flatMap, Section.bytes]
  rw [hsplit, ← hlen, List.drop_left]

/-- The bytes after a section do not go on with its kind. -/
theorem head_after_section {bytes : List Byte} {k : Nat} {sec : Section} (h : (split bytes)[k]? = some sec) (b : Byte)
    (hb : b ∈ (((split bytes).drop (k + 1)).flatMap Section.bytes).head?) : kindOf b ≠ sec.kind := by
  cases hn : (split bytes)[k + 1]? with
  | none => simp [List.drop_eq_nil_of_le (List.getElem?_eq_none_iff.mp hn)] at hb
  | some next =>
    obtain ⟨hkind, htext⟩ := split_follows h hn
    obtain ⟨hlt, rfl⟩ := List.getElem?_eq_some_iff.mp hn
    obtain ⟨q, qs, hq⟩ := List.exists_cons_of_ne_nil htext
    obtain rfl : byteOf _ q = b := by simpa only [List.drop_eq_getElem_cons hlt, List.flatMap_cons, Section.bytes, hq,
      List.map_cons, List.cons_append, List.head?_cons, Option.mem_some_iff] using hb
    rwa [kindOf_byteOf]

/-! ## Tokens in their section (R76, R77) -/

theorem takeDigits_rest (c : Config) (text : List Sym) :
    (takeDigits c text).2 = text.drop (takeDigits c text).1.length := by
  induction text with
  | nil => rfl
  | cons q text ih =>
    rw [takeDigits]
    split
    · exact ih
    · rfl

end Sys2Proof

namespace Sys2Proof.Machine

theorem instrLength_of_commandOf {c : Config} {g : Char} {i : Instr} (h : commandOf g = some i) :
    instrLength c i = 1 := by
  unfold commandOf at h
  split at h <;> cases h <;> rfl

theorem instrLength_of_extCommandOf {c : Config} {g : Char} {i : Instr} (h : extCommandOf g = some i) :
    instrLength c i = 2 := by
  unfold extCommandOf at h
  split at h <;> cases h <;> rfl

theorem instrLength_cmd (c : Config) (q : Sym) : instrLength c ((Token.cmd q).instr c) = 1 := by
  cases h : commandOf (c.glyph q) with
  | none => simp [Token.instr, h, instrLength, encode]
  | some i => simp [Token.instr, h, instrLength_of_commandOf h]

theorem instrLength_ext (c : Config) (e : Sym) : instrLength c ((Token.ext e).instr c) = 2 := by
  cases h : extCommandOf (c.glyph e) with
  | none => simp [Token.instr, h, instrLength, encode]
  | some i => simp [Token.instr, h, instrLength_of_extCommandOf h]

/-- A token takes as many symbols as its instruction has bytes. -/
theorem nextToken_rest {c : Config} {text rest : List Sym} {t : Token} (h : nextToken c text = some (t, rest)) :
    rest = text.drop (instrLength c (t.instr c)) := by
  unfold nextToken at h
  split at h
  · exact nomatch h
  next q text =>
    split at h
    next =>
      cases h
      simp [Token.instr, instrLength, encode, takeDigits_rest]
    next =>
      split at h
      next => split at h <;> cases h <;> rfl
      next =>
        split at h
        next =>
          split at h <;> cases h
          · rw [instrLength_ext]; rfl
          · rfl
        next =>
          cases h
          rw [instrLength_cmd]; rfl

/-- Past the tokens before index `k` stands the token of that index. -/
theorem nextToken_drop {c : Config} (fuel : Nat) : ∀ {text : List Sym} {k : Nat} {t : Token},
    (tokensAux c fuel text)[k]? = some t → ∃ rest, nextToken c
      (text.drop (((tokensAux c fuel text).take k).map fun t => instrLength c (t.instr c)).sum) = some (t, rest) := by
  induction fuel with
  | zero => intro text k t h; simp [tokensAux] at h
  | succ fuel ih =>
    intro text k t h
    rw [tokensAux] at h ⊢
    cases hn : nextToken c text with
    | none => simp [hn] at h
    | some p =>
      obtain ⟨t0, rest⟩ := p
      simp only [hn] at h ⊢
      cases k with
      | zero =>
        obtain rfl : t0 = t := by simpa using h
        exact ⟨rest, hn⟩
      | succ k =>
        obtain ⟨rest', hrest'⟩ := ih (k := k) (by simpa using h)
        rw [nextToken_rest hn, List.drop_drop] at hrest'
        exact ⟨rest', by simpa [nextToken_rest hn] using hrest'⟩

theorem sectionInstrs_token {c : Config} {text : List Sym} {k : Nat} {i : Instr}
    (h : (sectionInstrs c text)[k]? = some i) : ∃ t rest, i = t.instr c ∧
      nextToken c (text.drop (((sectionInstrs c text).take k).map (instrLength c)).sum) = some (t, rest) := by
  rw [sectionInstrs, List.getElem?_map, Option.map_eq_some_iff] at h
  obtain ⟨t, ht, rfl⟩ := h
  obtain ⟨rest, hrest⟩ := nextToken_drop _ ht
  refine ⟨t, rest, rfl, ?_⟩
  rw [sectionInstrs, ← List.map_take, List.map_map]
  exact hrest

/-! ## The decoder on a section's bytes (R75, R84) -/

theorem runOf_append {k : Kind} (text : List Sym) {later : List Byte} (h : ∀ b ∈ later.head?, kindOf b ≠ k) :
    (runOf k (text.map (byteOf k) ++ later)).map symOf = text := by
  have hlater : later.takeWhile (fun b => kindOf b = k) = [] := by
    cases later with
    | nil => rfl
    | cons b bs => simp [h b rfl]
  rw [runOf, List.takeWhile_append_of_pos (by simp), hlater]
  simp [Function.comp_def]

theorem decode_token {c : Config} {text rest : List Sym} {t : Token} {later : List Byte}
    (h : nextToken c text = some (t, rest)) (hl : ∀ b ∈ later.head?, kindOf b ≠ .instruction) :
    ∃ rest', decode c (text.map (byteOf .instruction) ++ later) = .ok (t.instr c, rest') := by
  cases text with
  | nil => exact nomatch h
  | cons q text =>
    have hrun := runOf_append (q :: text) hl
    simp only [List.map_cons, List.cons_append] at hrun ⊢
    rw [decode]
    simp only [kindOf_byteOf, hrun, h]
    exact ⟨_, rfl⟩

theorem decode_literal (c : Config) {text : List Sym} {later : List Byte} (h : text ≠ [])
    (hl : ∀ b ∈ later.head?, kindOf b ≠ .literal) :
    ∃ rest', decode c (text.map (byteOf .literal) ++ later) = .ok (.literal text, rest') := by
  obtain ⟨q, qs, rfl⟩ := List.exists_cons_of_ne_nil h
  have hrun := runOf_append (q :: qs) hl
  simp only [List.map_cons, List.cons_append] at hrun ⊢
  rw [decode]
  simp only [kindOf_byteOf, hrun]
  exact ⟨_, rfl⟩

/-! ## What decodes at `pc` (R22) -/

/-- The bytes from the start of the section at `pc` on. -/
theorem State.drop_sections {s : State} {sec : Section} (h : s.sections[s.pc.si]? = some sec) :
    s.prog.bytes.drop ((s.sections.take s.pc.si).map fun sec => sec.text.length).sum =
      sec.bytes ++ (s.sections.drop (s.pc.si + 1)).flatMap Section.bytes := by
  have hdrop := drop_flatMap_bytes s.sections s.pc.si
  obtain ⟨hlt, rfl⟩ := List.getElem?_eq_some_iff.mp h
  have hbytes : s.sections.flatMap Section.bytes = s.prog.bytes := split_bytes _
  rwa [List.drop_eq_getElem_cons hlt, List.flatMap_cons, hbytes] at hdrop

theorem decode_bytesAtPc_token {s : State} {i : Instr} (h : s.fetch = .token i) :
    isToken i = true ∧ ∃ rest, decode s.cfg.val s.bytesAtPc = .ok (i, rest) := by
  obtain ⟨⟨kind, text⟩, hs, rfl, hi⟩ := State.fetch_token h
  obtain ⟨t, rest, rfl, ht⟩ := sectionInstrs_token hi
  refine ⟨isToken_instr _ t, ?_⟩
  generalize hn : (((sectionInstrs s.cfg.val text).take s.pc.ti).map (instrLength s.cfg.val)).sum = n at ht
  have hle : n ≤ text.length := by
    by_contra hlt
    rw [List.drop_eq_nil_of_le (Nat.le_of_not_le hlt)] at ht
    exact nomatch ht
  have hbytes : s.bytesAtPc = (text.drop n).map (byteOf .instruction) ++
      (s.sections.drop (s.pc.si + 1)).flatMap Section.bytes := by
    rw [State.bytesAtPc, State.pcOffset, hs, ← List.drop_drop, State.drop_sections hs]
    simp only [hn, Section.bytes]
    rw [List.drop_append_of_le_length (by rwa [List.length_map]), List.map_drop]
  rw [hbytes]
  exact decode_token ht (head_after_section hs)

theorem decode_bytesAtPc_literal {s : State} {syms : List Sym} (h : s.fetch = .literal syms) :
    ∃ rest, decode s.cfg.val s.bytesAtPc = .ok (.literal syms, rest) := by
  obtain ⟨⟨kind, text⟩, hs, rfl, rfl⟩ := State.fetch_literal h
  rw [State.bytesAtPc, State.pcOffset, hs, Nat.add_zero, State.drop_sections hs]
  exact decode_literal _ (split_literal_ne_nil hs rfl) (head_after_section hs)

theorem bytesAtPc_ended {s : State} (h : s.fetch = .ended) : s.bytesAtPc = [] := by
  have hs := State.fetch_ended h
  have hdrop := drop_flatMap_bytes s.sections s.pc.si
  have hbytes : s.sections.flatMap Section.bytes = s.prog.bytes := split_bytes _
  rw [List.drop_eq_nil_of_le (List.getElem?_eq_none_iff.mp hs), hbytes] at hdrop
  rw [State.bytesAtPc, State.pcOffset, hs]
  exact hdrop

/-! ## The invariant of a run -/

/-- `pc` at the start of a section, or just past the last one, is in range (R22). -/
theorem State.pcWf_of_start {s : State} (hsi : s.pc.si ≤ s.sections.length) (hti : s.pc.ti = 0) : s.pcWf = true := by
  unfold State.pcWf
  split
  next hs => simp [hti, hsi.antisymm (List.getElem?_eq_none_iff.mp hs)]
  next => split <;> simp [hti]

/-- Before the end of a run nothing is written to `RESULT` (R55). -/
theorem State.Inv.result_none {s : State} (h : s.Inv) (hf : s.fetch ≠ .ended) : s.result = none :=
  Option.eq_none_iff_forall_ne_some.mpr fun r hr => hf (h.resultAtEnd r hr).1

/-- The invariant at the start of a section: what is left of it there. -/
theorem State.inv_of_start {s : State} (hprog : s.prog.wf = true) (hicur : s.icur ≤ s.input.length)
    (hsi : s.pc.si ≤ s.sections.length) (hti : s.pc.ti = 0) (hres : s.result = none)
    (hclear : ∀ sec, s.sections[s.pc.si]? = some sec → sec.kind = .instruction → s.cmp = false ∧ s.pnl = false)
    (hepoch : ∀ sec, s.sections[s.pc.si]? = some sec → sec.kind = .literal → s.pnl = false → s.stk = [] ∧ s.icur = 0) :
    s.Inv where
  progWf := hprog
  icurLe := hicur
  pcWf := State.pcWf_of_start hsi hti
  startClear sec hs hk _ := hclear sec hs hk
  literalEpoch := hepoch
  resultAtEnd _ hr := nomatch hres.symm.trans hr

/-- After a token: the section at `pc` is the same. -/
theorem State.Inv.nextToken {s u : State} {i : Instr} (h : s.Inv) (hf : s.fetch = .token i) (hk : s.Keeps u)
    (hicur : u.icur ≤ u.input.length) : u.nextToken.Inv := by
  obtain ⟨sec, hs, hkind, hi⟩ := State.fetch_token hf
  have hs' : u.nextToken.sections[u.nextToken.pc.si]? = some sec := by
    rw [State.nextToken_pc, hk.pc, State.sections_eq (t := u.nextToken) hk.prog]; exact hs
  have hres : u.result = none := hk.result.trans (h.result_none (by rw [hf]; simp))
  refine ⟨?_, hicur, ?_, fun _ _ _ hti => ?_, fun sec' hsec' hlit => ?_, fun r hr => nomatch hres.symm.trans hr⟩
  · rw [State.nextToken_prog, hk.prog]; exact h.progWf
  · obtain ⟨hlt, -⟩ := List.getElem?_eq_some_iff.mp hi
    rw [State.pcWf, hs', State.nextToken_pc, State.nextToken_cfg, hk.pc, hk.cfg]
    simpa [hkind] using hlt
  · exact absurd hti (Nat.succ_ne_zero _)
  · obtain rfl : sec = sec' := Option.some.inj (hs'.symm.trans hsec')
    exact nomatch hkind.symm.trans hlit

/-- After the last step of a section, at the next one, which is of the other kind (R75): flags cleared by a Literal
section (R163, R164), or stack and cursor reset by an Instruction section unless `PNL` is armed (R168). -/
theorem State.Inv.nextSection {s u : State} {sec : Section} (h : s.Inv) (hs : s.sections[s.pc.si]? = some sec)
    (hf : s.fetch ≠ .ended) (hk : s.Keeps u) (hicur : u.icur ≤ u.input.length)
    (hclear : sec.kind = .literal → u.cmp = false ∧ u.pnl = false)
    (hepoch : sec.kind = .instruction → u.pnl = false → u.stk = [] ∧ u.icur = 0) : u.nextSection.Inv := by
  have hsec : u.nextSection.sections = s.sections := State.sections_eq (t := u.nextSection) hk.prog
  have hnext : ∀ sec', u.nextSection.sections[u.nextSection.pc.si]? = some sec' → sec'.kind ≠ sec.kind := by
    intro sec' hs'
    rw [hsec, State.nextSection_pc, hk.pc] at hs'
    exact (split_follows hs hs').1
  refine State.inv_of_start ?_ hicur ?_ rfl (hk.result.trans (h.result_none hf)) (fun sec' hs' hi => ?_)
    fun sec' hs' hl => ?_
  · rw [State.nextSection_prog, hk.prog]; exact h.progWf
  · rw [hsec, State.nextSection_pc, hk.pc]
    exact (List.getElem?_eq_some_iff.mp hs).1
  · refine hclear ?_
    cases hkind : sec.kind with
    | literal => rfl
    | instruction => exact absurd (hi.trans hkind.symm) (hnext sec' hs')
  · refine hepoch ?_
    cases hkind : sec.kind with
    | instruction => rfl
    | literal => exact absurd (hl.trans hkind.symm) (hnext sec' hs')

/-- The end-of-section action does nothing with `PNL` armed, and otherwise leaves an empty stack and the input rewound
(R168, R34). -/
theorem State.endOfSection_cases (s : State) : (s.pnl = true ∧ s.endOfSection = s) ∨
    (s.pnl = false ∧ s.endOfSection.stk = [] ∧ s.endOfSection.icur = 0) := by
  cases hp : s.pnl with
  | true => exact .inl ⟨rfl, s.endOfSection_of_pnl hp⟩
  | false =>
    refine .inr ⟨rfl, ?_⟩
    rcases List.eq_nil_or_concat s.stk with he | ⟨xs, v, hs⟩
    · rw [s.endOfSection_of_empty hp he]; exact ⟨rfl, rfl⟩
    · rw [s.endOfSection_of_top xs v hp (hs.trans List.concat_eq_append)]; exact ⟨rfl, rfl⟩

/-! ## The obligations -/

/-- Settles O11: the three ways a step goes on, and the step that ends the run. -/
theorem stepKeepsInvariant : Obligations.StepKeepsInvariant := by
  unfold Obligations.StepKeepsInvariant
  intro s t h hstep
  rcases step_next_cases s t hstep with ⟨i, u, hf, hu, rfl, -⟩ | ⟨syms, hf, rfl, -⟩ | ⟨hf, rfl, -⟩ | ⟨hf, -, rfl, -⟩
  · have hk := exec_keeps hu
    obtain ⟨f, he, rfl⟩ := exec_effect hu
    exact h.nextToken hf hk (by rw [hk.input]; exact he.icur_le h.icurLe)
  · obtain ⟨sec, hs, hlit, -⟩ := State.fetch_literal hf
    have hrun := s.runLiteral_eq syms
    refine h.nextSection hs (by simp [hf]) (runLiteral_keeps s syms) ?_ (fun _ => by simp [hrun]) fun hi => ?_
    · simpa [hrun] using h.icurLe
    · exact nomatch hlit.symm.trans hi
  · obtain ⟨sec, hs, hinstr, -⟩ := State.fetch_boundary hf
    have hnext := h.nextSection hs (by simp [hf]) (endOfSection_keeps s)
    rcases s.endOfSection_cases with ⟨hp, heq⟩ | ⟨-, hreset⟩
    · refine hnext (by rw [heq]; exact h.icurLe) (fun hl => nomatch hinstr.symm.trans hl) fun _ hp' => ?_
      exact nomatch hp.symm.trans ((congrArg State.pnl heq).symm.trans hp')
    · exact hnext (by rw [hreset.2]; exact Nat.zero_le _) (fun hl => nomatch hinstr.symm.trans hl) fun _ _ => hreset
  · exact { h with resultAtEnd := fun r hr => ⟨hf, (Option.some.inj hr).symm⟩ }

/-- Settles O10: a run starts at the first section with everything clear. -/
theorem loadedResetMeetsInvariant : Obligations.LoadedResetMeetsInvariant := by
  unfold Obligations.LoadedResetMeetsInvariant
  have hstart : ∀ s : State, s.prog.wf = true → s.pc = ⟨0, 0⟩ → s.icur = 0 → s.stk = [] → s.cmp = false →
      s.pnl = false → s.result = none → s.Inv := fun s hprog hpc hicur hstk hcmp hpnl hres =>
    State.inv_of_start hprog (by simp [hicur]) (by simp [hpc]) (by simp [hpc]) hres (fun _ _ _ => ⟨hcmp, hpnl⟩)
      fun _ _ _ _ => ⟨hstk, hicur⟩
  exact ⟨hstart _ State.reset_prog_wf rfl rfl rfl rfl rfl rfl, fun s bytes input =>
    hstart _ (s.startRun_prog_wf bytes input) rfl rfl rfl rfl rfl rfl⟩

/-- Settles O8: where `pc` selects an instruction, the bytes there decode to it; past the last section there is none. -/
theorem stepRunsTheDecodedInstruction : Obligations.StepRunsTheDecodedInstruction := by
  unfold Obligations.StepRunsTheDecodedInstruction
  intro s t i rest hu hd hb hexec
  cases hf : s.fetch with
  | token j =>
    obtain ⟨htoken, rest', hj⟩ := decode_bytesAtPc_token hf
    obtain ⟨rfl, -⟩ := Prod.mk.inj (Except.ok.inj (hd.symm.trans hj))
    rw [step_token hu hf hexec]
    cases i with
    | literal => exact nomatch htoken
    | _ => rfl
  | literal syms =>
    obtain ⟨rest', hlit⟩ := decode_bytesAtPc_literal hf
    obtain ⟨rfl, -⟩ := Prod.mk.inj (Except.ok.inj (hd.symm.trans hlit))
    exact step_literal hu hf hexec
  | boundary => exact absurd hf hb
  | ended =>
    rw [bytesAtPc_ended hf] at hd
    exact nomatch hd

end Sys2Proof.Machine
end

section
/-! The dictionary trie (R29, R111): what word a path spells, what adding a word changes, and what the walk finds: the
obligation `TrieLookupIsLongestMatch`. -/

namespace Sys2Proof.Machine

/-- The index of the word that a text spells in a trie, if one ends there. -/
def trieFind : Trie → Text → Option Nat
  | .leaf, _ => none
  | .node _ _ _ _, [] => none
  | .node c' word child sibling, ch :: rest =>
    if ch = c' then if rest = [] then word else trieFind child rest else trieFind sibling (ch :: rest)

@[simp] theorem trieFind_leaf (v : Text) : trieFind .leaf v = none := by rw [trieFind]

@[simp] theorem trieFind_nil (t : Trie) : trieFind t [] = none := by cases t <;> rw [trieFind]

theorem trieFind_node (c' ch : Char) (word : Option Nat) (child sibling : Trie) (rest : Text) :
    trieFind (.node c' word child sibling) (ch :: rest) =
      if ch = c' then if rest = [] then word else trieFind child rest else trieFind sibling (ch :: rest) := by
  rw [trieFind]

/-! ## Adding a word -/

theorem trieFind_chain (i : Nat) (w : Text) : ∀ v : Text,
    trieFind (trieChain i w) v = if v = w ∧ w ≠ [] then some i else none := by
  induction w with
  | nil => intro v; simp [trieChain]
  | cons c w ih =>
    intro v
    cases v with
    | nil => simp
    | cons ch v =>
      cases w with
      | nil => by_cases hc : ch = c <;> by_cases hv : v = [] <;> simp [trieChain, trieFind_node, hc, hv]
      | cons c2 w =>
        have hstep : trieChain i (c :: c2 :: w) = .node c none (trieChain i (c2 :: w)) .leaf := rfl
        rw [hstep, trieFind_node, ih]
        by_cases hc : ch = c <;> by_cases hv : v = [] <;> simp [hc, hv]

/-- Adding a word changes what that word spells and nothing else (R29). -/
theorem trieFind_insert (i : Nat) (t : Trie) : ∀ {w : Text}, w ≠ [] → ∀ v : Text,
    trieFind (trieInsert i t w) v = if v = w then some i else trieFind t v := by
  induction t with
  | leaf => intro w hw v; simp [trieInsert, trieFind_chain, hw]
  | node c' word child sibling ihc ihs =>
    intro w hw v
    obtain ⟨c, w, rfl⟩ := List.exists_cons_of_ne_nil hw
    cases v with
    | nil => simp
    | cons ch v =>
      by_cases hc : c = c'
      · subst hc
        by_cases hwe : w = []
        · subst hwe
          have hins : trieInsert i (.node c word child sibling) [c] = .node c (some i) child sibling := by
            simp [trieInsert]
          rw [hins, trieFind_node, trieFind_node]
          by_cases hch : ch = c <;> by_cases hv : v = [] <;> simp [hch, hv]
        · have hins : trieInsert i (.node c word child sibling) (c :: w) =
              .node c word (trieInsert i child w) sibling := by
            simp [trieInsert, hwe]
          rw [hins, trieFind_node, trieFind_node, ihc hwe]
          by_cases hch : ch = c <;> by_cases hv : v = [] <;> simp [hch, hv, Ne.symm hwe]
      · have hins : trieInsert i (.node c' word child sibling) (c :: w) =
            .node c' word child (trieInsert i sibling (c :: w)) := by
          simp [trieInsert, hc]
        rw [hins, trieFind_node, trieFind_node, ihs (by simp)]
        by_cases hch : ch = c'
        · simp [hch, Ne.symm hc]
        · simp [hch]

/-- In a list without an empty word and without repeats, the trie gives each word its index and keeps what it had for
every other text. -/
theorem trieFind_buildFrom (d : List Text) : ∀ (i : Nat) (t : Trie), (∀ w ∈ d, w ≠ []) → d.Nodup → ∀ v : Text,
    (∀ k, d[k]? = some v → trieFind (trieBuildFrom i d t) v = some (i + k)) ∧
    (v ∉ d → trieFind (trieBuildFrom i d t) v = trieFind t v) := by
  induction d with
  | nil => exact fun i t _ _ v => ⟨fun k h => (nomatch h), fun _ => rfl⟩
  | cons w d ih =>
    intro i t hne hnodup v
    obtain ⟨hw, hd⟩ := List.forall_mem_cons.mp hne
    obtain ⟨hwd, hdn⟩ := List.nodup_cons.mp hnodup
    obtain ⟨hin, hout⟩ := ih (i + 1) (trieInsert i t w) hd hdn v
    rw [trieBuildFrom]
    refine ⟨fun k hk => ?_, fun hv => ?_⟩
    · cases k with
      | zero =>
        obtain rfl : w = v := Option.some.inj hk
        rw [hout hwd, trieFind_insert i t hw, if_pos rfl, Nat.add_zero]
      | succ k => rw [hin k hk, Nat.add_assoc, Nat.add_comm 1]
    · obtain ⟨hvw, hvd⟩ := not_or.mp (mt List.mem_cons.mpr hv)
      rw [hout hvd, trieFind_insert i t hw, if_neg hvw]

/-- A trie holds exactly its dictionary (R29). -/
theorem trieFind_build {d : List Text} (hd : Config.dictWf d = true) (v : Text) (k : Nat) :
    trieFind (trieBuild d) v = some k ↔ d[k]? = some v := by
  simp only [Config.dictWf, Bool.and_eq_true, List.all_eq_true, decide_eq_true_eq, Bool.not_eq_true',
    List.isEmpty_eq_false_iff] at hd
  obtain ⟨⟨⟨-, hne⟩, hnodup⟩, -⟩ := hd
  obtain ⟨hin, hout⟩ := trieFind_buildFrom d 0 .leaf hne hnodup v
  rw [← trieBuild] at hin hout
  refine ⟨fun h => ?_, fun h => by rw [hin k h, Nat.zero_add]⟩
  by_cases hv : v ∈ d
  · obtain ⟨j, hj⟩ := List.mem_iff_getElem?.mp hv
    rw [hin j hj, Nat.zero_add] at h
    rwa [← Option.some.inj h]
  · rw [hout hv, trieFind_leaf] at h
    exact nomatch h

/-! ## The walk -/

/-- `r` is what a walk along `text` may answer: `best` when no beginning of the text is a word, else the longest
beginning that is one, with its index; lengths are counted from `depth`. -/
def WalksTo (t : Trie) (depth : Nat) (text : Text) (best r : Nat × Option Nat) : Prop :=
  (r = best ∧ ∀ n ≤ text.length, trieFind t (text.take n) = none) ∨
  ∃ n ≤ text.length, r = (depth + n, trieFind t (text.take n)) ∧ (trieFind t (text.take n)).isSome = true ∧
    ∀ m ≤ text.length, n < m → trieFind t (text.take m) = none

/-- Along the edge that the walk takes, the text's beginnings are the child's, one character longer. -/
theorem trieFind_take_same (ch : Char) (word : Option Nat) (child sibling : Trie) {rest : Text} {n : Nat}
    (hn : n ≤ rest.length) : trieFind (.node ch word child sibling) ((ch :: rest).take (n + 1)) =
      if n = 0 then word else trieFind child (rest.take n) := by
  have hnil : rest.take n = [] ↔ n = 0 := by rw [← List.length_eq_zero_iff, List.length_take_of_le hn]
  simp only [List.take_succ_cons, trieFind_node, if_true, hnil]

theorem trieFind_take_other {c' ch : Char} (h : ch ≠ c') (word : Option Nat) (child sibling : Trie) (rest : Text)
    (n : Nat) : trieFind (.node c' word child sibling) ((ch :: rest).take n) =
      trieFind sibling ((ch :: rest).take n) := by
  cases n with
  | zero => simp
  | succ n => rw [List.take_succ_cons, trieFind_node, if_neg h]

/-- Going down an edge: the word that ends there is the best until the child has a longer one. -/
theorem WalksTo.down {ch : Char} {word : Option Nat} {child : Trie} (sibling : Trie) {depth : Nat} {rest : Text}
    {best r : Nat × Option Nat}
    (h : WalksTo child (depth + 1) rest (if word.isSome then (depth + 1, word) else best) r) :
    WalksTo (.node ch word child sibling) depth (ch :: rest) best r := by
  have htake : ∀ {n}, n ≤ rest.length → _ := trieFind_take_same ch word child sibling (rest := rest)
  rcases h with ⟨rfl, hnone⟩ | ⟨n, hn, rfl, hsome, hlast⟩
  · have hlong : ∀ m ≤ rest.length + 1, 1 < m →
        trieFind (.node ch word child sibling) ((ch :: rest).take m) = none := by
      rintro (_ | m) hm hlt
      · omega
      · rw [htake (by omega), if_neg (by omega), hnone m (by omega)]
    have hone := htake (Nat.zero_le _)
    rw [if_pos rfl] at hone
    cases hw : word with
    | some k =>
      subst hw
      exact .inr ⟨1, by simp, by rw [hone]; rfl, by rw [hone]; rfl, hlong⟩
    | none =>
      subst hw
      refine .inl ⟨rfl, fun n hn => ?_⟩
      rcases n with _ | _ | n
      · simp
      · exact hone
      · exact hlong _ hn (by omega)
  · have hpos : n ≠ 0 := by
      rintro rfl
      simp at hsome
    have hfind : trieFind (.node ch word child sibling) ((ch :: rest).take (n + 1)) = trieFind child (rest.take n) := by
      rw [htake hn, if_neg hpos]
    refine .inr ⟨n + 1, Nat.succ_le_succ hn, ?_, by rwa [hfind], ?_⟩
    · rw [hfind, Nat.add_assoc, Nat.add_comm 1]
    · rintro (_ | m) hm hlt
      · omega
      · have hm' : m ≤ rest.length := Nat.le_of_succ_le_succ hm
        rw [htake hm', if_neg (by omega), hlast m hm' (by omega)]

theorem trieWalk_walksTo (t : Trie) : ∀ (depth : Nat) (text : Text) (best : Nat × Option Nat),
    WalksTo t depth text best (trieWalk t depth text best) := by
  induction t with
  | leaf => exact fun depth text best => .inl ⟨by rw [trieWalk], fun _ _ => trieFind_leaf _⟩
  | node c' word child sibling ihc ihs =>
    intro depth text best
    cases text with
    | nil => exact .inl ⟨by rw [trieWalk], fun n _ => by simp⟩
    | cons ch rest =>
      rw [trieWalk]
      split
      next hch =>
        subst hch
        exact (ihc (depth + 1) rest _).down sibling
      next hch =>
        simpa only [WalksTo, trieFind_take_other hch] using ihs depth (ch :: rest) best

/-- Settles O56: a trie holds its dictionary, and the walk finds the longest beginning of the text that it holds. -/
theorem trieLookupIsLongestMatch : Obligations.TrieLookupIsLongestMatch := by
  unfold Obligations.TrieLookupIsLongestMatch
  intro d t hd
  have hprefix : ∀ w ∈ d, w <+: t → ∃ k, trieFind (trieBuild d) (t.take w.length) = some k := by
    intro w hw hpre
    obtain ⟨k, hk⟩ := List.mem_iff_getElem?.mp hw
    exact ⟨k, (trieFind_build hd _ k).mpr (List.prefix_iff_eq_take.mp hpre ▸ hk)⟩
  rw [trieLookup]
  rcases trieWalk_walksTo (trieBuild d) 0 t (0, none) with ⟨hr, hnone⟩ | ⟨n, hn, hr, hsome, hlast⟩
  · rw [hr, longestMatch_of_no_prefix]
    intro w hw hpre
    obtain ⟨k, hk⟩ := hprefix w hw hpre
    exact nomatch (hnone w.length hpre.length_le).symm.trans hk
  · obtain ⟨k, hk⟩ := Option.isSome_iff_exists.mp hsome
    rw [hr, hk, Nat.zero_add]
    refine ((longestMatch_eq_some_iff hd n k).mpr ⟨?_, hn, (trieFind_build hd _ k).mp hk, fun w hw hpre => ?_⟩).symm
    · refine Nat.one_le_iff_ne_zero.mpr ?_
      rintro rfl
      simp at hk
    · by_contra hlt
      obtain ⟨j, hj⟩ := hprefix w hw hpre
      exact nomatch (hlast w.length hpre.length_le (Nat.lt_of_not_le hlt)).symm.trans hj

end Sys2Proof.Machine
end

section
/-! The end of a whole run: the obligation `HostRunWritesResult` (R55, R160, R171). -/

namespace Sys2Proof.Machine

/-- Settles O17: in the steps counted the run reaches its end with `RESULT` written, and from there no step goes on. -/
theorem hostRunWritesResult : Obligations.HostRunWritesResult := by
  unfold Obligations.HostRunWritesResult
  intro s bytes input hu
  obtain ⟨t, hrun, -, hres, hend⟩ := hostRun_ends bytes input hu
  have hstop : step t = .fault .runEnded := step_of_result hend hres
  exact ⟨t, hrun, hres, hend, hstop⟩

end Sys2Proof.Machine
end

section
/-! Decode and encode agree (R70, R74 to R84): what one turn of the tokenizer takes, both ways, and from it the
obligations `DecodeOfEncode`, `EncodeOfDecode`, `TokensCoverTheirSection` and `InstructionByteRunsItsRow`. -/

namespace Sys2Proof

/-! ## Symbols with a fixed role (R6, R13, R73) -/

theorem Config.CodePage.glyph_op {c : Config} (h : c.CodePage) {g : Char}
    (hg : g ∈ Config.commandGlyphs ++ Config.digitGlyphs) : c.glyph (c.op g) = g :=
  (h.op_eq_iff (h.present g hg) _).mp rfl

theorem Config.CodePage.eq_op {c : Config} (h : c.CodePage) {g : Char}
    (hg : g ∈ Config.commandGlyphs ++ Config.digitGlyphs) {q : Sym} (hq : c.glyph q = g) : q = c.op g :=
  (h.op_eq_iff (h.present g hg) q).mpr hq

/-- R13(f) as propositions: the three special symbols carry no glyph with a role of its own. -/
structure Config.Specials (c : Config) : Prop where
  sep : c.glyph c.symSep ∉ Config.commandGlyphs ++ Config.digitGlyphs
  lesc : c.glyph c.symLesc ∉ Config.commandGlyphs ++ Config.digitGlyphs
  sesc : c.glyph c.symSesc ∉ Config.commandGlyphs ++ Config.digitGlyphs
  sep_ne_lesc : c.symSep ≠ c.symLesc
  sep_ne_quote : c.symSep ≠ c.symQuote

theorem Config.specials_of_wf {c : Config} (h : c.wf = true) : c.Specials := by
  simp only [Config.wf, Bool.and_eq_true] at h
  obtain ⟨-, hspecials⟩ := h
  simp only [Config.specialsWf, Bool.and_eq_true, List.all_eq_true, List.forall_mem_cons, Bool.not_eq_true',
    ← Bool.not_eq_true, List.contains_iff_mem, decide_eq_true_eq] at hspecials
  obtain ⟨⟨⟨hsep, hlesc, hsesc, -⟩, hne⟩, hquote⟩ := hspecials
  exact ⟨hsep, hlesc, hsesc, hne, hquote⟩

theorem Config.glyph_symExt {c : Config} (h : c.wf = true) : c.glyph c.symExt = '⌂' :=
  (Config.codePage_of_wf h).glyph_op (by decide)

/-! ## Digits (R73, R76) -/

theorem digitGlyph_mem (d : Digit) : digitGlyph d ∈ Config.digitGlyphs := by revert d; decide

theorem Config.digitOf_eq_none_iff {c : Config} {q : Sym} : c.digitOf q = none ↔ c.glyph q ∉ Config.digitGlyphs := by
  rw [Config.digitOf, Option.map_eq_none_iff, List.findIdx?_eq_none_iff]
  exact ⟨fun h hq => by simpa using h _ hq, fun h g hg => beq_eq_false_iff_ne.mpr fun he => h (he ▸ hg)⟩

theorem Config.digitOf_eq_some_iff {c : Config} {q : Sym} {d : Digit} :
    c.digitOf q = some d ↔ c.glyph q = digitGlyph d := by
  rw [Config.digitOf]
  generalize c.glyph q = g
  constructor
  · intro h
    obtain ⟨i, hi, rfl⟩ := Option.map_eq_some_iff.mp h
    obtain ⟨hlt, hg, -⟩ := List.findIdx?_eq_some_iff_getElem.mp hi
    have hglyphs : ∀ j : Fin 10, Config.digitGlyphs[j.val]'j.isLt = digitGlyph (Fin.ofNat 10 j.val) := by decide
    exact (eq_of_beq hg).symm.trans (hglyphs ⟨i, hlt⟩)
  · rintro rfl
    revert d
    decide +kernel

theorem Config.digitOf_eq_some_iff_op {c : Config} (h : c.CodePage) {q : Sym} {d : Digit} :
    c.digitOf q = some d ↔ q = c.op (digitGlyph d) := by
  have hmem := List.mem_append_right Config.commandGlyphs (digitGlyph_mem d)
  rw [Config.digitOf_eq_some_iff, h.op_eq_iff (h.present _ hmem)]

/-- The digit run at the front is maximal (R76). -/
theorem takeDigits_eq_iff {c : Config} (h : c.CodePage) {ds : List Digit} {rest : List Sym} : ∀ {text : List Sym},
    takeDigits c text = (ds, rest) ↔
      text = ds.map (fun d => c.op (digitGlyph d)) ++ rest ∧ ∀ q ∈ rest.head?, c.digitOf q = none := by
  induction ds with
  | nil =>
    intro text
    cases text with
    | nil => simp +contextual [takeDigits, eq_comm]
    | cons q text =>
      cases hq : c.digitOf q with
      | none => simp +contextual [takeDigits, hq, eq_comm]
      | some d =>
        simp only [takeDigits, hq, List.map_nil, List.nil_append]
        refine iff_of_false (by simp) ?_
        rintro ⟨rfl, hrest⟩
        exact nomatch hq.symm.trans (hrest q rfl)
  | cons d ds ih =>
    intro text
    cases text with
    | nil => simp [takeDigits]
    | cons q text =>
      rw [List.map_cons, List.cons_append, List.cons.injEq, ← Config.digitOf_eq_some_iff_op h, and_assoc, ← ih]
      cases hq : c.digitOf q with
      | none => simp [takeDigits, hq]
      | some d' => simp [takeDigits, hq, Prod.ext_iff, and_assoc]

/-! ## One turn of the tokenizer (R77) -/

/-- The symbols that a token takes (R76). -/
def Token.syms (c : Config) : Token → List Sym
  | .num ds => ds.map fun d => c.op (digitGlyph d)
  | .str q => [c.symSesc, q]
  | .ext e => [c.symExt, e]
  | .cmd q => [q]
  | .bad p => [c.pfxSym p]

/-- The tokens that R77's loop gives: a `NUM` has a digit, and a `CMD` is none of the other formats. -/
def Token.Wf (c : Config) : Token → Prop
  | .num ds => ds ≠ []
  | .cmd q => c.digitOf q = none ∧ q ≠ c.symSesc ∧ c.glyph q ≠ '⌂'
  | .str _ | .ext _ | .bad _ => True

/-- The token is over before `rest`: a digit run is maximal (R76), a `BAD` token is the last symbol (R83). -/
def Token.EndsBefore (c : Config) (rest : List Sym) : Token → Prop
  | .num _ => ∀ q ∈ rest.head?, c.digitOf q = none
  | .bad _ => rest = []
  | .str _ | .ext _ | .cmd _ => True

theorem nextToken_of_digit {c : Config} {q : Sym} {d : Digit} (hq : c.digitOf q = some d) (text : List Sym) :
    nextToken c (q :: text) = some (.num (d :: (takeDigits c text).1), (takeDigits c text).2) := by
  simp only [nextToken, hq]

/-- The token that `SYM_SESC` or `SYM_EXT` begins, and the symbols after it (R77, R83). -/
def prefixToken : Pfx → List Sym → Token × List Sym
  | p, [] => (.bad p, [])
  | .sesc, q :: rest => (.str q, rest)
  | .ext, e :: rest => (.ext e, rest)

theorem nextToken_of_prefix {c : Config} (h : c.wf = true) (p : Pfx) (text : List Sym) :
    nextToken c (c.pfxSym p :: text) = some (prefixToken p text) := by
  have hsesc := (Config.specials_of_wf h).sesc
  cases p with
  | sesc =>
    have hd : c.digitOf c.symSesc = none :=
      Config.digitOf_eq_none_iff.mpr fun hg => hsesc (List.mem_append_right _ hg)
    cases text <;> simp [nextToken, Config.pfxSym, hd, prefixToken]
  | ext =>
    have hglyph := Config.glyph_symExt h
    have hd : c.digitOf c.symExt = none := Config.digitOf_eq_none_iff.mpr (by rw [hglyph]; decide)
    have hne : c.symExt ≠ c.symSesc := fun he => hsesc (by rw [← he, hglyph]; decide)
    cases text <;> simp [nextToken, Config.pfxSym, hd, hne, hglyph, prefixToken]

theorem nextToken_of_cmd {c : Config} {q : Sym} (hq : (Token.cmd q).Wf c) (text : List Sym) :
    nextToken c (q :: text) = some (.cmd q, text) := by
  obtain ⟨hd, hsesc, hext⟩ := hq
  simp only [nextToken, hd, if_neg hsesc, if_neg hext]

/-- The formats of R76 by their first symbol: a digit, one of the two that take a second symbol, or a
command's. -/
theorem symbol_cases {c : Config} (h : c.wf = true) (q : Sym) :
    (∃ d, c.digitOf q = some d) ∨ (∃ p, q = c.pfxSym p) ∨ (Token.cmd q).Wf c := by
  cases hd : c.digitOf q with
  | some d => exact .inl ⟨d, rfl⟩
  | none =>
    by_cases hsesc : q = c.symSesc
    · exact .inr (.inl ⟨.sesc, hsesc⟩)
    · by_cases hext : c.glyph q = '⌂'
      · exact .inr (.inl ⟨.ext, (Config.codePage_of_wf h).eq_op (by decide) hext⟩)
      · exact .inr (.inr ⟨hd, hsesc, hext⟩)

/-- What a turn takes from the front is the token's symbols, up to where the token ends (R76, R77). -/
theorem nextToken_sound {c : Config} (h : c.wf = true) {text rest : List Sym} {t : Token}
    (ht : nextToken c text = some (t, rest)) : text = t.syms c ++ rest ∧ t.Wf c ∧ t.EndsBefore c rest := by
  have hcp := Config.codePage_of_wf h
  cases text with
  | nil => exact nomatch ht
  | cons q text =>
    rcases symbol_cases h q with ⟨d, hq⟩ | ⟨p, rfl⟩ | hq
    · rw [nextToken_of_digit hq] at ht
      cases ht
      obtain ⟨htext, hend⟩ := (takeDigits_eq_iff hcp).mp (Prod.eta (takeDigits c text)).symm
      refine ⟨?_, List.cons_ne_nil _ _, hend⟩
      rw [Token.syms, List.map_cons, List.cons_append, ← htext, (Config.digitOf_eq_some_iff_op hcp).mp hq]
    · rw [nextToken_of_prefix h] at ht
      cases p <;> cases text <;> cases ht <;> exact ⟨rfl, trivial, by trivial⟩
    · rw [nextToken_of_cmd hq] at ht
      cases ht
      exact ⟨rfl, hq, trivial⟩

theorem nextToken_complete {c : Config} (h : c.wf = true) {rest : List Sym} {t : Token} (hwf : t.Wf c)
    (hend : t.EndsBefore c rest) : nextToken c (t.syms c ++ rest) = some (t, rest) := by
  have hcp := Config.codePage_of_wf h
  cases t with
  | num ds =>
    obtain ⟨d, ds, rfl⟩ := List.exists_cons_of_ne_nil hwf
    have hrun := (takeDigits_eq_iff hcp (ds := ds)).mpr ⟨rfl, hend⟩
    have hd := (Config.digitOf_eq_some_iff_op hcp (d := d)).mpr rfl
    rw [Token.syms, List.map_cons, List.cons_append, nextToken_of_digit hd, hrun]
  | str q => exact nextToken_of_prefix h .sesc _
  | ext e => exact nextToken_of_prefix h .ext _
  | cmd q => exact nextToken_of_cmd hwf _
  | bad p =>
    obtain rfl : rest = [] := hend
    rw [Token.syms, List.append_nil, nextToken_of_prefix h, prefixToken]

theorem Token.Wf.syms_ne_nil {c : Config} {t : Token} (h : t.Wf c) : t.syms c ≠ [] := by
  cases t with
  | num ds => exact fun he => h (List.map_eq_nil_iff.mp he)
  | str | ext | cmd | bad => exact List.cons_ne_nil _ _

theorem exists_nextToken {c : Config} (h : c.wf = true) {text : List Sym} (htext : text ≠ []) :
    ∃ t rest, nextToken c text = some (t, rest) := by
  obtain ⟨q, text, rfl⟩ := List.exists_cons_of_ne_nil htext
  rcases symbol_cases h q with ⟨d, hq⟩ | ⟨p, rfl⟩ | hq
  · exact ⟨_, _, nextToken_of_digit hq text⟩
  · exact ⟨_, _, nextToken_of_prefix h p text⟩
  · exact ⟨_, _, nextToken_of_cmd hq text⟩

/-! ## The opcode map (R80, R81) -/

theorem commandOf_mem {g : Char} {i : Instr} (h : commandOf g = some i) :
    g ∈ Config.commandGlyphs ∧ g ∉ Config.digitGlyphs ∧ g ≠ 'D' ∧ g ≠ '⌂' := by
  unfold commandOf at h
  split at h <;> cases h <;> decide

/-- The glyphs of R6 that name no one-byte command are `D` and `⌂`. -/
theorem exists_commandOf {g : Char} (hg : g ∈ Config.commandGlyphs) (hD : g ≠ 'D') (hext : g ≠ '⌂') :
    ∃ i, commandOf g = some i := by
  unfold commandOf
  split
  all_goals try exact ⟨_, rfl⟩
  -- The default arm: the glyph is none of the 33.
  simp_all [Config.commandGlyphs]

theorem extCommandOf_mem {g : Char} {i : Instr} (h : extCommandOf g = some i) : g ∈ Config.commandGlyphs := by
  unfold extCommandOf at h
  split at h <;> cases h <;> decide

theorem extCommandOf_eq_none {g : Char} (ht : g ≠ 't') (hD : g ≠ 'D') : extCommandOf g = none := by
  unfold extCommandOf
  split
  · exact absurd rfl ht
  · exact absurd rfl hD
  · rfl

/-- A command of R81: its one byte, and anything may follow it. -/
theorem commandOf_row {g : Char} {i : Instr} (h : commandOf g = some i) (c : Config) :
    encode c i = [instrByte (c.op g)] ∧ i.wf c = true ∧ ∀ rest, mayFollow c i rest = true := by
  unfold commandOf at h
  split at h <;> cases h <;> exact ⟨rfl, rfl, fun rest => by cases rest <;> rfl⟩

/-- An extended command of R80: `⌂` and its symbol's byte, and anything may follow it. -/
theorem extCommandOf_row {g : Char} {i : Instr} (h : extCommandOf g = some i) (c : Config) :
    encode c i = [instrByte c.symExt, instrByte (c.op g)] ∧ i.wf c = true ∧ ∀ rest, mayFollow c i rest = true := by
  unfold extCommandOf at h
  split at h <;> cases h <;> exact ⟨rfl, rfl, fun rest => by cases rest <;> rfl⟩

theorem Instr.wf_unimplCmd_iff {c : Config} {q : Sym} : (Instr.unimplCmd q).wf c = true ↔
    (q ≠ c.symSesc ∧ c.glyph q ∉ Config.digitGlyphs) ∧ ¬(c.glyph q ∈ Config.commandGlyphs ∧ c.glyph q ≠ 'D') := by
  simp only [Instr.wf, Bool.and_eq_true, decide_eq_true_eq, Bool.not_eq_true', ← Bool.not_eq_true,
    List.contains_iff_mem, List.mem_filter]

theorem Instr.wf_unimplExt_iff {c : Config} {e : Sym} :
    (Instr.unimplExt e).wf c = true ↔ c.glyph e ≠ 't' ∧ c.glyph e ≠ 'D' := by
  simp only [Instr.wf, Bool.and_eq_true, decide_eq_true_eq]

/-! ## A token's instruction (R76, R81, R165) -/

/-- The bytes of a token's instruction are the token's symbols as Instruction bytes (R76, R81). -/
theorem encode_instr {c : Config} (h : c.wf = true) (t : Token) : encode c (t.instr c) = (t.syms c).map instrByte := by
  have hcp := Config.codePage_of_wf h
  cases t with
  | num ds => simp [Token.instr, Token.syms, encode, Function.comp_def]
  | str | bad => rfl
  | ext e =>
    cases he : extCommandOf (c.glyph e) with
    | none => simp [Token.instr, he, Token.syms, encode]
    | some i =>
      obtain ⟨henc, -, -⟩ := extCommandOf_row he c
      have hop := hcp.eq_op (List.mem_append_left _ (extCommandOf_mem he)) rfl
      simp [Token.instr, he, Token.syms, henc, ← hop]
  | cmd q =>
    cases hq : commandOf (c.glyph q) with
    | none => simp [Token.instr, hq, Token.syms, encode]
    | some i =>
      obtain ⟨hg, -⟩ := commandOf_mem hq
      obtain ⟨henc, -, -⟩ := commandOf_row hq c
      have hop := hcp.eq_op (List.mem_append_left _ hg) rfl
      simp [Token.instr, hq, Token.syms, henc, ← hop]

theorem Token.Wf.instr_wf {c : Config} {t : Token} (h : t.Wf c) : (t.instr c).wf c = true := by
  cases t with
  | num ds =>
    obtain ⟨d, ds, rfl⟩ := List.exists_cons_of_ne_nil h
    rfl
  | str | bad => rfl
  | ext e =>
    cases he : extCommandOf (c.glyph e) with
    | some i =>
      obtain ⟨-, hwf, -⟩ := extCommandOf_row he c
      simp [Token.instr, he, hwf]
    | none =>
      rw [Token.instr, he, Option.getD_none, Instr.wf_unimplExt_iff]
      exact ⟨fun hg => by simp [hg, extCommandOf] at he, fun hg => by simp [hg, extCommandOf] at he⟩
  | cmd q =>
    cases hq : commandOf (c.glyph q) with
    | some i =>
      obtain ⟨-, hwf, -⟩ := commandOf_row hq c
      simp [Token.instr, hq, hwf]
    | none =>
      obtain ⟨hd, hsesc, hext⟩ := h
      rw [Token.instr, hq, Option.getD_none, Instr.wf_unimplCmd_iff]
      refine ⟨⟨hsesc, Config.digitOf_eq_none_iff.mp hd⟩, fun ⟨hg, hD⟩ => ?_⟩
      obtain ⟨i, hi⟩ := exists_commandOf hg hD hext
      exact nomatch hq.symm.trans hi

/-- A command of R81 is the `CMD` token of its glyph's symbol. -/
theorem exists_token_of_command {c : Config} (h : c.wf = true) {i : Instr}
    (hcmd : i ∈ Config.commandGlyphs.filterMap commandOf) : ∃ t : Token, t.Wf c ∧ t.instr c = i := by
  obtain ⟨g, hg, hi⟩ := List.mem_filterMap.mp hcmd
  obtain ⟨-, hdigit, -, hext⟩ := commandOf_mem hi
  have hmem := List.mem_append_left Config.digitGlyphs hg
  have hglyph := (Config.codePage_of_wf h).glyph_op hmem
  refine ⟨.cmd (c.op g), ⟨?_, fun he => ?_, by rwa [hglyph]⟩, by simp [Token.instr, hglyph, hi]⟩
  · rwa [Config.digitOf_eq_none_iff, hglyph]
  · exact (Config.specials_of_wf h).sesc (by rwa [← he, hglyph])

theorem exists_token_of_extCommandOf {c : Config} (h : c.wf = true) {g : Char} {i : Instr}
    (hi : extCommandOf g = some i) : ∃ t : Token, t.Wf c ∧ t.instr c = i := by
  have hglyph := (Config.codePage_of_wf h).glyph_op (List.mem_append_left _ (extCommandOf_mem hi))
  exact ⟨.ext (c.op g), trivial, by simp [Token.instr, hglyph, hi]⟩

/-- Every well-formed instruction that can stand in an Instruction section, but the byte taken by itself, is a token
(R76, R81 to R83). -/
theorem exists_token {c : Config} (h : c.wf = true) {i : Instr} (hi : i.wf c = true)
    (htok : Machine.isToken i = true) : ∃ t : Token, t.Wf c ∧ t.instr c = i := by
  cases i with
  | num ds => exact ⟨.num ds, (by rintro rfl; exact nomatch hi), rfl⟩
  | str q => exact ⟨.str q, trivial, rfl⟩
  | bad p => exact ⟨.bad p, trivial, rfl⟩
  | dump => exact exists_token_of_extCommandOf h (g := 'D') rfl
  | apaTitle => exact exists_token_of_extCommandOf h (g := 't') rfl
  | unimplExt e =>
    obtain ⟨ht, hD⟩ := Instr.wf_unimplExt_iff.mp hi
    exact ⟨.ext e, trivial, by simp [Token.instr, extCommandOf_eq_none ht hD]⟩
  | unimplCmd q =>
    obtain ⟨⟨hsesc, hdigit⟩, hnot⟩ := Instr.wf_unimplCmd_iff.mp hi
    have hext : c.glyph q ≠ '⌂' := fun hg => hnot (by rw [hg]; decide)
    refine ⟨.cmd q, ⟨Config.digitOf_eq_none_iff.mpr hdigit, hsesc, hext⟩, ?_⟩
    cases hq : commandOf (c.glyph q) with
    | none => simp [Token.instr, hq]
    | some i =>
      obtain ⟨hg, -, hD, -⟩ := commandOf_mem hq
      exact absurd ⟨hg, hD⟩ hnot
  | literal | instructionByte => exact nomatch htok
  | _ => exact exists_token_of_command h (by decide +kernel)

/-! ## The decoder on a run of one kind (R74, R84) -/

/-- Bytes are a run of one kind and bytes that do not go on with it. -/
theorem exists_run (k : Kind) (bytes : List Byte) : ∃ (text : List Sym) (later : List Byte),
    bytes = text.map (byteOf k) ++ later ∧ ∀ b ∈ later.head?, kindOf b ≠ k := by
  induction bytes with
  | nil => exact ⟨[], [], rfl, by simp⟩
  | cons b bs ih =>
    by_cases hb : kindOf b = k
    · obtain ⟨text, later, rfl, hl⟩ := ih
      refine ⟨symOf b :: text, later, ?_, hl⟩
      rw [List.map_cons, List.cons_append, ← hb, byteOf_kindOf_symOf]
    · exact ⟨[], b :: bs, rfl, by simpa using hb⟩

theorem afterRun_append {k : Kind} (text : List Sym) {later : List Byte} (h : ∀ b ∈ later.head?, kindOf b ≠ k) :
    afterRun k (text.map (byteOf k) ++ later) = later := by
  rw [afterRun, List.dropWhile_append_of_pos (by simp)]
  cases later with
  | nil => rfl
  | cons b bs => simp [h b rfl]

theorem decode_token_eq {c : Config} {text rest : List Sym} {t : Token} {later : List Byte}
    (h : nextToken c text = some (t, rest)) (hl : ∀ b ∈ later.head?, kindOf b ≠ .instruction) :
    decode c (text.map (byteOf .instruction) ++ later) =
      .ok (t.instr c, rest.map (byteOf .instruction) ++ later) := by
  cases text with
  | nil => exact nomatch h
  | cons q text =>
    have hrun := Machine.runOf_append (q :: text) hl
    have hafter := afterRun_append (q :: text) hl
    simp only [List.map_cons, List.cons_append] at hrun hafter ⊢
    simp only [decode, kindOf_byteOf, hrun, hafter, h]

theorem decode_literal_eq (c : Config) {text : List Sym} {later : List Byte} (h : text ≠ [])
    (hl : ∀ b ∈ later.head?, kindOf b ≠ .literal) :
    decode c (text.map (byteOf .literal) ++ later) = .ok (.literal text, later) := by
  obtain ⟨q, text, rfl⟩ := List.exists_cons_of_ne_nil h
  have hrun := Machine.runOf_append (q :: text) hl
  have hafter := afterRun_append (q :: text) hl
  simp only [List.map_cons, List.cons_append] at hrun hafter ⊢
  simp only [decode, kindOf_byteOf, hrun, hafter]

/-! ## What may follow an instruction (R74, R76, R83) -/

theorem ne_literal_iff {k : Kind} : k ≠ .literal ↔ k = .instruction := by cases k <;> simp

theorem ne_instruction_iff {k : Kind} : k ≠ .instruction ↔ k = .literal := by cases k <;> simp

theorem mayFollow_literal_iff {c : Config} {syms : List Sym} {rest : List Byte} :
    mayFollow c (.literal syms) rest = true ↔ ∀ b ∈ rest.head?, kindOf b ≠ .literal := by
  cases rest with
  | nil => simp [mayFollow]
  | cons b rest => simp [mayFollow, ne_literal_iff]

/-- A token is read the same way before bytes exactly when it ends before the symbols of its own section there. -/
theorem mayFollow_instr_iff {c : Config} (t : Token) {rest : List Sym} {later : List Byte}
    (hl : ∀ b ∈ later.head?, kindOf b ≠ .instruction) :
    mayFollow c (t.instr c) (rest.map (byteOf .instruction) ++ later) = true ↔ t.EndsBefore c rest := by
  cases t with
  | num | bad =>
    cases rest with
    | cons q rest => simp [Token.instr, mayFollow, Token.EndsBefore]
    | nil =>
      cases later with
      | nil => simp [mayFollow, Token.EndsBefore]
      | cons b later => simp [Token.instr, mayFollow, Token.EndsBefore, ne_instruction_iff.mp (hl b rfl)]
  | str q => cases rest <;> cases later <;> simp [Token.instr, mayFollow, Token.EndsBefore]
  | ext e =>
    cases he : extCommandOf (c.glyph e) with
    | some i =>
      obtain ⟨-, -, hfollow⟩ := extCommandOf_row he c
      simp [Token.instr, he, hfollow, Token.EndsBefore]
    | none => cases rest <;> cases later <;> simp [Token.instr, he, mayFollow, Token.EndsBefore]
  | cmd q =>
    cases hq : commandOf (c.glyph q) with
    | some i =>
      obtain ⟨-, -, hfollow⟩ := commandOf_row hq c
      simp [Token.instr, hq, hfollow, Token.EndsBefore]
    | none => cases rest <;> cases later <;> simp [Token.instr, hq, mayFollow, Token.EndsBefore]

/-- Settles O3: the instruction is a Literal section or a token, and the tokenizer's turn gives the token back. -/
theorem decodeOfEncode : Obligations.DecodeOfEncode := by
  unfold Obligations.DecodeOfEncode
  rintro ⟨c, h⟩ i rest hi hbyte hrest
  cases hkind : Machine.isToken i with
  | true =>
    obtain ⟨t, hwf, rfl⟩ := exists_token h hi hkind
    obtain ⟨text, later, rfl, hl⟩ := exists_run .instruction rest
    have hnext := nextToken_complete h hwf ((mayFollow_instr_iff t hl).mp hrest)
    have hbytes : encode c (t.instr c) = (t.syms c).map (byteOf .instruction) := encode_instr h t
    rw [hbytes, ← List.append_assoc, ← List.map_append]
    exact decode_token_eq hnext hl
  | false =>
    cases i with
    | literal syms =>
      exact decode_literal_eq c (fun he => by rw [he] at hi; exact nomatch hi) (mayFollow_literal_iff.mp hrest)
    | instructionByte q => exact absurd rfl (hbyte q)
    | _ => exact nomatch hkind

/-- The instruction at the front of a run, and the bytes it leaves (R76, R84). -/
theorem decode_run {c : Config} (h : c.wf = true) {k : Kind} {text : List Sym} {later : List Byte} (htext : text ≠ [])
    (hl : ∀ b ∈ later.head?, kindOf b ≠ k) :
    ∃ i rest, decode c (text.map (byteOf k) ++ later) = .ok (i, rest) ∧
      encode c i ++ rest = text.map (byteOf k) ++ later ∧ i.wf c = true ∧ mayFollow c i rest = true := by
  cases k with
  | literal =>
    obtain ⟨q, qs, rfl⟩ := List.exists_cons_of_ne_nil htext
    exact ⟨_, _, decode_literal_eq c htext hl, rfl, rfl, mayFollow_literal_iff.mpr hl⟩
  | instruction =>
    obtain ⟨t, rest, ht⟩ := exists_nextToken h htext
    obtain ⟨rfl, hwf, hend⟩ := nextToken_sound h ht
    refine ⟨_, _, decode_token_eq ht hl, ?_, hwf.instr_wf, (mayFollow_instr_iff t hl).mpr hend⟩
    rw [encode_instr h, List.map_append, List.append_assoc]
    rfl

/-- Settles O4: the bytes are a run of the first byte's kind, and what it decodes to encodes to what it took. -/
theorem encodeOfDecode : Obligations.EncodeOfDecode := by
  unfold Obligations.EncodeOfDecode
  rintro ⟨c, h⟩ bytes
  cases bytes with
  | nil => exact .inl ⟨rfl, rfl⟩
  | cons b bs =>
    obtain ⟨text, later, hbytes, hl⟩ := exists_run (kindOf b) (b :: bs)
    have htext : text ≠ [] := by
      rintro rfl
      obtain rfl : b :: bs = later := hbytes
      exact hl b rfl rfl
    rw [hbytes]
    exact .inr (decode_run h htext hl)

/-! ## A whole section (R77) -/

theorem tokensAux_bytes {c : Config} (h : c.wf = true) (fuel : Nat) : ∀ {text : List Sym}, text.length ≤ fuel →
    ((tokensAux c fuel text).map (Token.instr c)).flatMap (encode c) = text.map (byteOf .instruction) := by
  induction fuel with
  | zero =>
    intro text hlen
    obtain rfl := List.length_eq_zero_iff.mp (Nat.le_zero.mp hlen)
    rfl
  | succ fuel ih =>
    intro text hlen
    cases text with
    | nil => rfl
    | cons q text =>
      obtain ⟨t, rest, ht⟩ := exists_nextToken h (List.cons_ne_nil q text)
      obtain ⟨hsyms, hwf, -⟩ := nextToken_sound h ht
      have hrest : rest.length ≤ fuel := by
        have hpos := List.length_pos_iff.mpr hwf.syms_ne_nil
        rw [hsyms, List.length_append] at hlen
        omega
      rw [tokensAux, ht, hsyms]
      simp only [List.map_cons, List.flatMap_cons, ih hrest, encode_instr h, List.map_append]
      rfl

/-- Settles O6: each turn's token encodes to what it took. -/
theorem tokensCoverTheirSection : Obligations.TokensCoverTheirSection := by
  unfold Obligations.TokensCoverTheirSection
  exact fun c text => tokensAux_bytes c.property text.length le_rfl

/-! ## An Instruction byte by itself (R70, R76) -/

/-- Alone in its section a symbol is one token. -/
theorem nextToken_singleton {c : Config} (h : c.wf = true) (q : Sym) : ∃ t, nextToken c [q] = some (t, []) := by
  obtain ⟨t, rest, ht⟩ := exists_nextToken h (List.cons_ne_nil q [])
  obtain ⟨hsyms, hwf, -⟩ := nextToken_sound h ht
  have hrest : rest = [] :=
    ((List.append_eq_singleton_iff.mp hsyms.symm).resolve_left fun he => hwf.syms_ne_nil he.1).2
  exact ⟨t, hrest ▸ ht⟩

namespace Machine

theorem selected_of_ne {c : Config} {i : Instr} (h : ∀ q, i ≠ .instructionByte q) : selected c i = i := by
  cases i with
  | instructionByte q => exact absurd rfl (h q)
  | _ => rfl

/-- Settles O43: the byte decodes to the row `byteInstr` selects, which is what the byte runs. -/
theorem instructionByteRunsItsRow : Obligations.InstructionByteRunsItsRow := by
  unfold Obligations.InstructionByteRunsItsRow
  intro s q
  obtain ⟨t, ht⟩ := nextToken_singleton s.cfg.property q
  have hrow : selected s.cfg.val (.instructionByte q) = t.instr s.cfg.val := by
    rw [selected, byteInstr, ht]
  have hne : ∀ q', t.instr s.cfg.val ≠ .instructionByte q' := hrow ▸ selected_ne_instructionByte _ _
  obtain ⟨u, hu⟩ := exec_total (.instructionByte q) s
  refine ⟨t.instr s.cfg.val, u, decode_token_eq (later := []) ht (by simp), hne, hu, ?_⟩
  rw [exec_eq_execSelected, selected_of_ne hne, ← hrow, ← exec_eq_execSelected, hu]

end Machine
end Sys2Proof
end

section
/-! The sections of a program (R74, R75): the obligation `SplitIsLosslessAndAlternates`. -/

namespace Sys2Proof

/-- Kinds alternate from Instruction (R75). -/
theorem split_kind {bytes : List Byte} (k : Nat) : ∀ {sec : Section}, (split bytes)[k]? = some sec →
    sec.kind = if k % 2 = 0 then .instruction else .literal := by
  induction k with
  | zero => exact splitAux_head bytes _ _ _
  | succ k ih =>
    intro sec h
    obtain ⟨hlt, -⟩ := List.getElem?_eq_some_iff.mp h
    have hprev := List.getElem?_eq_getElem (Nat.lt_of_succ_lt hlt)
    have hne := (split_follows hprev h).1
    rw [ih hprev] at hne
    split at hne
    next hk => rw [if_neg (by omega), ← ne_instruction_iff]; exact hne
    next hk => rw [if_pos (by omega), ← ne_literal_iff]; exact hne

/-- Only the first section can be empty (R75). -/
theorem split_empty_index {bytes : List Byte} {k : Nat} {sec : Section} (h : (split bytes)[k]? = some sec)
    (he : sec.text = []) : k = 0 := by
  cases k with
  | zero => rfl
  | succ k =>
    obtain ⟨hlt, -⟩ := List.getElem?_eq_some_iff.mp h
    exact absurd he (split_follows (List.getElem?_eq_getElem (Nat.lt_of_succ_lt hlt)) h).2

/-- A section that has a symbol already is not empty when it closes (R74). -/
theorem splitAux_head_ne_nil {k : Kind} {text : List Sym} (ht : text ≠ []) {bs : List Byte} {sec : Section}
    (h : (splitAux k text bs)[0]? = some sec) : sec.text ≠ [] := by
  obtain ⟨k', hk'⟩ : ∃ k', k' ≠ k := ⟨if k = .literal then .instruction else .literal, by cases k <;> decide⟩
  have hchain := isChain_splitAux bs k text ⟨k', []⟩ hk' ht
  cases hs : splitAux k text bs with
  | nil => simp [hs] at h
  | cons a secs =>
    rw [hs] at h hchain
    obtain rfl : a = sec := by simpa using h
    exact (List.isChain_cons_cons.mp hchain).1.2

/-- The first section is empty exactly when the program begins with a Literal byte (R75). -/
theorem split_head_empty_iff (b : Byte) (bs : List Byte) :
    (∃ sec, (split (b :: bs))[0]? = some sec ∧ sec.text = []) ↔ kindOf b = .literal := by
  rw [split, splitAux]
  split
  next hb =>
    refine iff_of_false ?_ (by simp [hb])
    rintro ⟨sec, hsec, he⟩
    exact splitAux_head_ne_nil (by simp) hsec he
  next hb => exact iff_of_true ⟨_, rfl, rfl⟩ (ne_instruction_iff.mp hb)

/-- Settles O5: each clause from what follows a section in the splitter's answer. -/
theorem splitIsLosslessAndAlternates : Obligations.SplitIsLosslessAndAlternates := by
  unfold Obligations.SplitIsLosslessAndAlternates
  refine fun bytes => ⟨split_bytes bytes, fun k sec => split_kind k, fun k sec => split_empty_index, ?_⟩
  cases bytes with
  | nil => simp [split, splitAux]
  | cons b bs => simp [split_head_empty_iff]

end Sys2Proof
end

section
/-! The transcoder (R86 to R91): reading back what `TOLITERATE` writes: the obligation `TranscoderRoundTrip`. -/

namespace Sys2Proof.Machine

/-! ## Reading one byte's characters (R88) -/

theorem Config.textSymbol_glyph {c : Config} (h : c.CodePage) (q : Sym) :
    Config.textSymbol c (c.glyph q) = q := by
  rw [Config.textSymbol, h.symbolIndex_glyph, Option.getD_some]

theorem flipKind_of_ne {j k : Kind} (h : j ≠ k) : flipKind k = j := by
  revert h
  cases j <;> cases k <;> decide

/-- Outside a quoted span a character that does not begin an escape is read alone. -/
theorem toBytesAux_char {c : Config} {k : Kind} {ch : Char} {t : Text}
    (h : ¬(ch = c.glyph c.symLesc ∧ t.head? = some (c.glyph c.symSep))) :
    toBytesAux c ⟨k, false⟩ (ch :: t) =
      (readChar c ⟨k, false⟩ ch).1 ++ toBytesAux c (readChar c ⟨k, false⟩ ch).2 t := by
  cases t with
  | nil => simp [toBytesAux]
  | cons nx t =>
    have hnot : ¬(ch = c.glyph c.symLesc ∧ nx = c.glyph c.symSep) := by simpa using h
    simp [toBytesAux, hnot]

theorem toBytesAux_escape (c : Config) (r : ReadState) (t : Text) :
    toBytesAux c r (c.glyph c.symLesc :: c.glyph c.symSep :: t) = byteOf r.kind c.symSep :: toBytesAux c r t := by
  simp [toBytesAux]

/-- A separator changes the kind. -/
theorem toBytesAux_sep {c : Config} (h : c.wf = true) (k : Kind) (t : Text) :
    toBytesAux c ⟨k, false⟩ (c.glyph c.symSep :: t) = toBytesAux c ⟨flipKind k, false⟩ t := by
  have hne : c.glyph c.symSep ≠ c.glyph c.symLesc :=
    mt (Config.codePage_of_wf h).glyph_inj.mp (Config.specials_of_wf h).sep_ne_lesc
  rw [toBytesAux_char fun he => hne he.1]
  simp [readChar]

/-- A glyph that is no separator, starts no escape and opens no quoted span is its symbol. -/
theorem toBytesAux_glyph {c : Config} (h : c.wf = true) {k : Kind} {q : Sym} {t : Text} (hsep : q ≠ c.symSep)
    (hquote : ¬(k = .instruction ∧ q = c.symQuote))
    (hesc : q = c.symLesc → t.head? ≠ some (c.glyph c.symSep)) :
    toBytesAux c ⟨k, false⟩ (c.glyph q :: t) = byteOf k q :: toBytesAux c ⟨k, false⟩ t := by
  have hcp := Config.codePage_of_wf h
  have hread : readChar c ⟨k, false⟩ (c.glyph q) = ([byteOf k q], ⟨k, false⟩) := by
    simp only [readChar, hcp.glyph_inj, Config.textSymbol_glyph hcp]
    rw [if_neg (by simp), if_neg (fun he => hsep he.1), if_neg (fun he => hquote ⟨he.2, he.1⟩)]
  rw [toBytesAux_char fun he => hesc (hcp.glyph_inj.mp he.1) he.2, hread]
  rfl

/-! ## Writing and reading back (R87, R91) -/

/-- R91's conditions as propositions: of the first byte, of its successor, of the rest. -/
theorem roundTrips_cons_iff {c : Config} {b : Byte} {bs : List Byte} : roundTrips c (b :: bs) = true ↔
    ¬(kindOf b = .instruction ∧ symOf b = c.symQuote) ∧
    (symOf b = c.symLesc → ∀ b' ∈ bs.head?, kindOf b' = kindOf b) ∧ roundTrips c bs = true := by
  rw [roundTrips.eq_def]
  cases bs with
  | nil => simp [← imp_iff_not_or]
  | cons b' bs => simp [and_assoc, ← imp_iff_not_or, eq_comm (a := kindOf b) (b := kindOf b')]

/-- After a byte, text of its kind does not begin with a separator: the separator symbol is escaped. -/
theorem head_toLiterateAux {c : Config} (h : c.wf = true) {k : Kind} {bytes : List Byte}
    (hk : ∀ b ∈ bytes.head?, kindOf b = k) :
    (toLiterateAux c k bytes).head? ≠ some (c.glyph c.symSep) := by
  have hcp := Config.codePage_of_wf h
  cases bytes with
  | nil => simp [toLiterateAux]
  | cons b bs =>
    rw [toLiterateAux, if_pos (hk b rfl)]
    by_cases hsep : symOf b = c.symSep
    · simpa [hsep, hcp.glyph_inj] using (Config.specials_of_wf h).sep_ne_lesc.symm
    · simp [hsep, hcp.glyph_inj]

/-- The characters of a byte, once the kind is its own, read back as the byte. -/
theorem toBytesAux_byte {c : Config} (h : c.wf = true) {b : Byte} {t : Text}
    (hquote : ¬(kindOf b = .instruction ∧ symOf b = c.symQuote))
    (hesc : symOf b = c.symLesc → t.head? ≠ some (c.glyph c.symSep)) :
    toBytesAux c ⟨kindOf b, false⟩
        ((if symOf b = c.symSep then [c.glyph c.symLesc] else []) ++ c.glyph (symOf b) :: t) =
      b :: toBytesAux c ⟨kindOf b, false⟩ t := by
  have hb := byteOf_kindOf_symOf b
  by_cases hsep : symOf b = c.symSep
  · rw [if_pos hsep, hsep, List.singleton_append, toBytesAux_escape, ← hsep, hb]
  · rw [if_neg hsep, List.nil_append, toBytesAux_glyph h hsep hquote hesc, hb]

theorem toBytesAux_toLiterateAux {c : Config} (h : c.wf = true) (bytes : List Byte) : ∀ k : Kind,
    roundTrips c bytes = true → toBytesAux c ⟨k, false⟩ (toLiterateAux c k bytes) = bytes := by
  induction bytes with
  | nil => exact fun _ _ => rfl
  | cons b bs ih =>
    intro k hb
    obtain ⟨hquote, hnext, hbs⟩ := roundTrips_cons_iff.mp hb
    have hbyte := toBytesAux_byte h (t := toLiterateAux c (kindOf b) bs) hquote fun he =>
      head_toLiterateAux h (hnext he)
    rw [ih _ hbs] at hbyte
    by_cases hk : kindOf b = k
    · subst hk
      rwa [toLiterateAux, if_pos rfl, List.nil_append]
    · rwa [toLiterateAux, if_neg hk, List.append_assoc, List.singleton_append, toBytesAux_sep h, flipKind_of_ne hk]

/-! ## `PACK` (R121) -/

theorem roundTrips_literal (c : Config) (syms : List Sym) : roundTrips c (syms.map (byteOf .literal)) = true := by
  induction syms with
  | nil => rfl
  | cons q syms ih =>
    rw [List.map_cons, roundTrips_cons_iff]
    refine ⟨by simp, fun _ b' hb' => ?_, ih⟩
    cases syms with
    | nil => exact nomatch hb'
    | cons p syms =>
      obtain rfl : byteOf .literal p = b' := by simpa using hb'
      simp

/-- The one Instruction byte of a packed program is `d`, which is neither the quote nor the escape. -/
theorem roundTrips_pack {c : Config} (h : c.wf = true) (n : Nat) : roundTrips c (pack c n) = true := by
  have hcp := Config.codePage_of_wf h
  have hd : c.glyph (c.op 'd') = 'd' := hcp.glyph_op (by decide)
  have hq : c.glyph c.symQuote = '"' := hcp.glyph_op (by decide)
  rw [pack, instrByte, roundTrips_cons_iff, symOf_byteOf]
  refine ⟨fun he => ?_, fun he => ?_, roundTrips_literal c _⟩
  · rw [he.2, hq] at hd
    exact absurd hd (by decide)
  · refine absurd ?_ (Config.specials_of_wf h).lesc
    rw [← he, hd]
    decide

/-- Settles O60: by induction on the bytes, outside any quoted span; the two failures are R91's own. -/
theorem transcoderRoundTrip : Obligations.TranscoderRoundTrip := by
  unfold Obligations.TranscoderRoundTrip
  exact ⟨fun c bytes => toBytesAux_toLiterateAux c.property bytes .instruction, fun c => roundTrips_pack c.property,
    by decide +kernel, by decide +kernel⟩

end Sys2Proof.Machine
end

section
/-! Digits in a radix, `UNPACK` and `PACK` (R78, R85, R121, R144): the obligation
`UnpackReadsBaseHundredTwentyEight`. -/

namespace Sys2Proof.Machine

/-! ## Digits, most significant first (R78, R144) -/

theorem foldl_radix_eq_ofDigits (b : Nat) (ds : List Nat) :
    ds.foldl (fun n d => n * b + d) 0 = Nat.ofDigits b ds.reverse := by
  rw [Nat.ofDigits_eq_foldr, List.foldr_reverse]
  simp only [Nat.cast_id, Nat.mul_comm, Nat.add_comm]

theorem unpack_eq_ofDigits (syms : List Sym) : unpack syms = Nat.ofDigits 128 (syms.reverse.map BitVec.toNat) := by
  rw [List.map_reverse, ← foldl_radix_eq_ofDigits, List.foldl_map, unpack]

/-- Leading zero digits do not count. -/
theorem unpack_replicate_zero (k : Nat) (syms : List Sym) : unpack (List.replicate k 0 ++ syms) = unpack syms := by
  rw [unpack_eq_ofDigits, unpack_eq_ofDigits, List.reverse_append, List.reverse_replicate, List.map_append,
    List.map_replicate]
  exact Nat.ofDigits_append_replicate_zero _

/-! ## `PACK`'s chunks (R121) -/

theorem binaryAux_value (fuel : Nat) : ∀ (n : Nat) (acc : List Bool), n ≤ fuel →
    bitsValue (binaryAux fuel n acc) = acc.foldl (fun v b => v * 2 + b.toNat) n := by
  induction fuel with
  | zero =>
    intro n acc hn
    obtain rfl := Nat.le_zero.mp hn
    rfl
  | succ fuel ih =>
    intro n acc hn
    rw [binaryAux]
    split
    next h0 => rw [h0]; rfl
    next h0 =>
      have hbit : n / 2 * 2 + (decide (n % 2 = 1)).toNat = n := by
        rcases Nat.mod_two_eq_zero_or_one n with h | h <;> simp [h] <;> omega
      rw [ih _ _ (by omega), List.foldl_cons, hbit]

theorem bitsValue_binaryDigits (n : Nat) : bitsValue (binaryDigits n) = n := by
  rw [binaryDigits]
  split
  next h0 => rw [h0]; rfl
  next => exact binaryAux_value n n [] le_rfl

theorem bitsValue_replicate_false (k : Nat) (bits : List Bool) :
    bitsValue (List.replicate k false ++ bits) = bitsValue bits := by
  induction k with
  | zero => rfl
  | succ k ih => exact ih

theorem bitsValue_lt (bits : List Bool) : bitsValue bits < 2 ^ bits.length := by
  induction bits using List.reverseRecOn with
  | nil => decide
  | append_singleton bits b ih =>
    have hb := b.toNat_lt
    rw [bitsValue, List.foldl_append, ← bitsValue, List.length_append, List.length_singleton, Nat.pow_succ]
    simp only [List.foldl_cons, List.foldl_nil]
    omega

/-- Seven binary digits are one digit in base 128. -/
theorem foldl_sevens (m : Nat) : ∀ (bits : List Bool) (v : Nat), bits.length = 7 * m →
    (sevens bits).foldl (fun n q => n * 128 + q.toNat) v = bits.foldl (fun n b => n * 2 + b.toNat) v := by
  induction m with
  | zero =>
    intro bits v hlen
    obtain rfl := List.length_eq_zero_iff.mp hlen
    rfl
  | succ m ih =>
    intro bits v hlen
    match bits, hlen with
    | a :: b :: c :: d :: e :: f :: g :: rest, hlen =>
      have hrest : rest.length = 7 * m := by
        simp only [List.length_cons] at hlen
        omega
      have hlt : bitsValue [a, b, c, d, e, f, g] < 2 ^ 7 := bitsValue_lt _
      rw [sevens, List.foldl_cons, ih rest _ hrest, BitVec.toNat_ofNat, Nat.mod_eq_of_lt hlt]
      simp only [bitsValue, List.foldl_cons, List.foldl_nil]
      congr 1
      omega

theorem unpack_packChunks (n : Nat) : unpack (packChunks n) = n := by
  have hlen : ∀ l : Nat, ∃ m, (7 - l % 7) % 7 + l = 7 * m := fun l => ⟨((7 - l % 7) % 7 + l) / 7, by omega⟩
  obtain ⟨m, hm⟩ := hlen (binaryDigits n).length
  rw [unpack, packChunks, foldl_sevens m _ _ (by rw [List.length_append, List.length_replicate, hm])]
  exact (bitsValue_replicate_false _ _).trans (bitsValue_binaryDigits n)

/-- Settles O57: the fold is Mathlib's digit sum, and `PACK` regroups binary digits by sevens. -/
theorem unpackReadsBaseHundredTwentyEight : Obligations.UnpackReadsBaseHundredTwentyEight := by
  unfold Obligations.UnpackReadsBaseHundredTwentyEight
  exact ⟨unpack_eq_ofDigits, rfl, unpack_replicate_zero, unpack_packChunks, by decide, by decide, by decide, by decide⟩

end Sys2Proof.Machine
end

section
/-! Literal sections, literal tokens and unknown tokens (R162, R164, R210 to R212): the obligations
`PlainLiteralSubstitutesAndRoutes`, `LiteralTokensPush` and `UnknownTokensOnlyLog`. -/

namespace Sys2Proof.Machine

theorem regOf_eq_none {g : Char} (hnot : g ≠ '¬') (heq : g ≠ '⁼') (hn : g ≠ 'ⁿ') : regOf g = none := by
  unfold regOf
  split
  · exact absurd rfl hnot
  · exact absurd rfl heq
  · exact absurd rfl hn
  · rfl

/-- The text that a symbol gives, by the register symbols' indices (R21, R73, R162). -/
theorem State.litSymbol_eq (s : State) (q : Sym) : s.litSymbol q =
    if q = s.cfg.val.op '¬' then toText s.rNot else if q = s.cfg.val.op '⁼' then toText s.rEq
    else if q = s.cfg.val.op 'ⁿ' then toText s.rN
    else if q ∈ s.cfg.val.ws then [Char.ofNat q.toNat] else [s.cfg.val.glyph q] := by
  have hcp := Config.codePage_of_wf s.cfg.property
  have hop : ∀ g ∈ Config.commandGlyphs, (q = s.cfg.val.op g ↔ s.cfg.val.glyph q = g) := fun g hg =>
    hcp.op_eq_iff (hcp.present g (List.mem_append_left _ hg)) q
  simp only [hop '¬' (by decide), hop '⁼' (by decide), hop 'ⁿ' (by decide), State.litSymbol]
  by_cases hnot : s.cfg.val.glyph q = '¬'
  · simp [hnot, regOf, State.readReg]
  by_cases heq : s.cfg.val.glyph q = '⁼'
  · simp [heq, regOf, State.readReg]
  by_cases hn : s.cfg.val.glyph q = 'ⁿ'
  · simp [hn, regOf, State.readReg]
  simp only [regOf_eq_none hnot heq hn, if_neg hnot, if_neg heq, if_neg hn, Config.litChar, nativeChar]
  split <;> rfl

/-- Settles O24: symbol by symbol, then the routing. -/
theorem plainLiteralSubstitutesAndRoutes : Obligations.PlainLiteralSubstitutesAndRoutes := by
  unfold Obligations.PlainLiteralSubstitutesAndRoutes
  rintro s syms r hcmp rfl
  have htext : s.literalText syms = syms.flatMap s.litSymbol := by
    rw [State.literalText, hcmp, if_neg Bool.false_ne_true]
  show Host.Outcome.next (s.runLiteral syms) = _
  rw [State.runLiteral, s.afterLiteral_of_not_cmp hcmp, htext, funext s.litSymbol_eq]
  by_cases hpnl : s.pnl = true
  · rw [if_pos hpnl, s.routeLiteral_of_pnl _ hpnl]
  · rw [if_neg hpnl, s.routeLiteral_of_not_pnl _ (Bool.eq_false_iff.mpr hpnl)]

theorem numLiteral_eq (ds : List Digit) :
    numLiteral ds = F64.round false (Nat.ofDigits 10 (ds.map Fin.val).reverse * 2 ^ 1074) 1 := by
  rw [numLiteral, digitsValue, foldl_radix_eq_ofDigits, F64.ofNat, F64.one64]

/-- Settles O26: both tokens push one Value. -/
theorem literalTokensPush : Obligations.LiteralTokensPush := by
  unfold Obligations.LiteralTokensPush
  refine fun s => ⟨fun ds => ?_, fun q => rfl⟩
  rw [← numLiteral_eq]
  rfl

/-- Settles O42: each token's meaning is one record with its symbols. -/
theorem unknownTokensOnlyLog : Obligations.UnknownTokensOnlyLog := by
  unfold Obligations.UnknownTokensOnlyLog
  exact fun s q => ⟨rfl, rfl, rfl, rfl⟩

end Sys2Proof.Machine
end

section
/-! The codec round trip (R110 to R119, R140, R141): a parse cuts the text into parts, and `DECODE` gives the parts of a
number back one by one: the obligations `CodecRoundTrip`, `CodecSubstitutesOnlyUnencodables` and
`EncodeLogsItsSubstitutions`. -/

namespace Sys2Proof

/-! ## Case swap (R16) -/

@[simp] theorem swapChar_swapChar (ch : Char) : swapChar (swapChar ch) = ch := by
  by_cases hsmall : 97 ≤ ch.toNat ∧ ch.toNat ≤ 122
  · have hval : (swapChar ch).toNat = ch.toNat - 32 := by
      rw [swapChar, if_pos hsmall, upperChar_of_small hsmall, toNat_ofNat_of_lt (by omega)]
    rw [swapChar, if_neg (by omega), if_pos (by omega), lowerChar_of_capital (by omega), hval,
      Nat.sub_add_cancel (by omega), Char.ofNat_toNat]
  by_cases hcapital : 65 ≤ ch.toNat ∧ ch.toNat ≤ 90
  · have hval : (swapChar ch).toNat = ch.toNat + 32 := by
      rw [swapChar, if_neg hsmall, if_pos hcapital, lowerChar_of_capital hcapital, toNat_ofNat_of_lt (by omega)]
    rw [swapChar, if_pos (by omega), upperChar_of_small (by omega), hval, Nat.add_sub_cancel, Char.ofNat_toNat]
  · have hfix : swapChar ch = ch := by rw [swapChar, if_neg hsmall, if_neg hcapital]
    rw [hfix, hfix]

@[simp] theorem swapText_swapText (t : Text) : swapText (swapText t) = t := by
  rw [swapText, swapText, List.map_map]
  exact List.map_id'' swapChar_swapChar t

namespace Machine

/-! ## A parse cuts the text into parts (R113, R114) -/

/-- `ps` cuts `t` into parts: a `Chr` part is the character that stands there, a `Word` part is a word of its dictionary
that stands there in its case, after one space if it skipped one; and only the first part of a text, where `first` is
true, says that none precedes it. -/
inductive Parsed (c : Config) : Bool → Text → List Part → Prop
  | nil (first : Bool) : Parsed c first [] []
  | chr (first : Bool) (ch : Char) {rest : Text} {ps : List Part} (h : Parsed c false rest ps) :
      Parsed c first (ch :: rest) (.chr ch :: ps)
  | word (first : Bool) {idx : Nat} {sel : Dict} (sw sp : Bool) {rest : Text} {ps : List Part}
      (hidx : idx < c.dictLen sel) (hword : c.word sel idx ≠ []) (h : Parsed c false rest ps) :
      Parsed c first (partText c (.word idx sel sw first sp) ++ rest) (.word idx sel sw first sp :: ps)

theorem partText_word_ne_nil {c : Config} {idx : Nat} {sel : Dict} (hword : c.word sel idx ≠ [])
    (sw first sp : Bool) : partText c (.word idx sel sw first sp) ≠ [] := by
  cases sw <;> simp [partText, swapText, hword]

/-- The word of a candidate, in the candidate's case, is what the text begins with. -/
theorem candidate_some {c : Config} {t : Text} {sw : Bool} {sel : Dict} {len idx : Nat}
    (h : candidate c t sw sel = (len, some idx)) : idx < c.dictLen sel ∧ c.word sel idx ≠ [] ∧
      (if sw then swapText (c.word sel idx) else c.word sel idx) = t.take len := by
  obtain ⟨hpos, hle, hidx, -⟩ := longestMatch_some h
  obtain ⟨hlt, -⟩ := List.getElem?_eq_some_iff.mp hidx
  have hword : c.word sel idx = (if sw then swapText t else t).take len := by
    rw [Config.word, List.getD_eq_getElem?_getD, hidx, Option.getD_some]
  refine ⟨hlt, fun hnil => ?_, ?_⟩
  · have hlen := congrArg List.length (hword.symm.trans hnil)
    rw [List.length_take_of_le hle, List.length_nil] at hlen
    omega
  · cases sw with
    | false => exact hword
    | true =>
      have hswap : swapText ((swapText t).take len) = (swapText (swapText t)).take len := List.map_take
      rw [hword, if_pos rfl, if_pos rfl, hswap, swapText_swapText]

/-- The space that a turn may skip, and what it looks at, are the text. -/
theorem space_append_parseBody (ch : Char) (rest : Text) :
    (if decide (ch = ' ') then [' '] else []) ++ parseBody ch rest = ch :: rest := by
  by_cases h : ch = ' ' <;> simp [parseBody, h]

/-- `PARSE` cuts its text into parts (R113). -/
theorem parsed_parseFrom (c : Config) (first : Bool) (t : Text) : Parsed c first t (parseFrom c first t) := by
  induction hn : t.length using Nat.strong_induction_on generalizing first t with
  | _ n ih =>
    subst hn
    cases t with
    | nil => exact .nil first
    | cons ch rest =>
      cases hb : bestMatch c (parseBody ch rest) with
      | none =>
        rw [parseFrom_chr hb]
        exact .chr first ch (ih _ (Nat.lt_succ_self _) false rest rfl)
      | some m =>
        obtain ⟨hidx, hword, htake⟩ := candidate_some (bestMatch_eq_some_iff.mp hb).1
        have hlt := Nat.lt_succ_of_le (length_drop_parseBody_le hb)
        have htext : partText c (.word m.idx m.sel m.sw first (decide (ch = ' '))) ++ (parseBody ch rest).drop m.len =
            ch :: rest := by
          rw [partText, htake, List.append_assoc, List.take_append_drop, space_append_parseBody]
        have hp := Parsed.word first m.sw (decide (ch = ' ')) hidx hword (ih _ hlt false _ rfl)
        rwa [htext, ← parseFrom_word hb] at hp

/-! ## One part decoded (R116 to R119, R141) -/

theorem encodable_iff {ch : Char} : encodable ch = true ↔ 32 ≤ ch.toNat ∧ ch.toNat ≤ 126 := by simp [encodable]

theorem substituted_cases (ch : Char) : (encodable ch = true ∧ substituted ch = ch) ∨
    (encodable ch = false ∧ substituted ch = ' ' ∧ substituted ch ≠ ch) := by
  cases he : encodable ch with
  | true => exact .inl ⟨rfl, by rw [substituted, he, if_pos rfl]⟩
  | false =>
    have hspace : substituted ch = ' ' := by rw [substituted, he, if_neg Bool.false_ne_true]
    exact .inr ⟨rfl, hspace, fun h => by rw [← h, hspace] at he; exact nomatch he⟩

theorem encodable_substituted (ch : Char) : encodable (substituted ch) = true := by
  rcases substituted_cases ch with ⟨he, h⟩ | ⟨-, h, -⟩ <;> rw [h]
  · exact he
  · rfl

theorem decodeAux_chr (c : Config) (fuel : Nat) (ch : Char) (ps : List Part) (out : Text) :
    decodeAux c (fuel + 1) (build c (.chr ch :: ps)) out = decodeAux c fuel (build c ps) (out ++ [substituted ch]) := by
  obtain ⟨hlo, hhi⟩ := encodable_iff.mp (encodable_substituted ch)
  have hdigit : chrDigit ch = (substituted ch).toNat - 31 := by rw [chrDigit]; omega
  have hbuild : build c (.chr ch :: ps) = (build c ps * 96 + chrDigit ch) * 3 := rfl
  have hpos : build c (.chr ch :: ps) ≠ 0 := by omega
  have hmode : build c (.chr ch :: ps) % 3 = 0 := by omega
  have hdiv : build c (.chr ch :: ps) / 3 = build c ps * 96 + chrDigit ch := by omega
  have hchar : (build c ps * 96 + chrDigit ch) % 96 + 32 - 1 = (substituted ch).toNat := by omega
  have hrest : (build c ps * 96 + chrDigit ch) / 96 = build c ps := by omega
  simp only [decodeAux, if_neg hpos, hmode, if_true, hdiv, hchar, hrest, Char.ofNat_toNat]

/-- The word-index digit and the select digit below it (R117, R141). -/
theorem word_digits {len idx : Nat} (hidx : idx < len) (n : Nat) (sel : Dict) :
    (if ((n * len + idx) * 2 + selDigit sel) % 2 = 0 then Dict.short else .long) = sel ∧
    ((n * len + idx) * 2 + selDigit sel) / 2 % len = idx ∧ ((n * len + idx) * 2 + selDigit sel) / 2 / len = n := by
  have hdiv : ((n * len + idx) * 2 + selDigit sel) / 2 = n * len + idx := by
    cases sel <;> simp only [selDigit] <;> omega
  rw [hdiv, Nat.mul_comm n, Nat.mul_add_mod, Nat.mod_eq_of_lt hidx, Nat.mul_add_div (by omega), Nat.div_eq_of_lt hidx]
  exact ⟨by cases sel <;> simp [selDigit, Nat.add_mod], rfl, rfl⟩

/-- A turn of `DECODE` on a word, its mode and flag read: `k` holds the select and index digits and the parts after. -/
def decodeWord (c : Config) (fuel k : Nat) (sw pre : Bool) (out : Text) : Text :=
  let sel : Dict := if k % 2 = 0 then .short else .long
  let w := c.word sel (k / 2 % c.dictLen sel)
  decodeAux c fuel (k / 2 / c.dictLen sel) (out ++ ((if pre then [' '] else []) ++ (if sw then swapText w else w)))

/-- Mode 1: the word as it is, after a space unless it is the first (R141). -/
theorem decodeAux_default (c : Config) (fuel k : Nat) (out : Text) :
    decodeAux c (fuel + 1) (k * 3 + 1) out = decodeWord c fuel k false (!out.isEmpty) out := by
  have hmode : (k * 3 + 1) % 3 = 1 := by omega
  have hdiv : (k * 3 + 1) / 3 = k := by omega
  simp [decodeAux, hmode, hdiv, decodeWord]

/-- Mode 2: the flag says whether the case is swapped and whether the space is as in mode 1 (R141). -/
theorem decodeAux_flagged (c : Config) (fuel k : Nat) {f : Nat} (hf : f < 3) (out : Text) :
    decodeAux c (fuel + 1) ((k * 3 + f) * 3 + 2) out =
      decodeWord c fuel k (decide (f ≠ 1)) ((!out.isEmpty) ^^ decide (f ≠ 0)) out := by
  have hmode : ((k * 3 + f) * 3 + 2) % 3 = 2 := by omega
  have hdiv : ((k * 3 + f) * 3 + 2) / 3 = k * 3 + f := by omega
  have hflag : (k * 3 + f) % 3 = f := by omega
  have hrest : (k * 3 + f) / 3 = k := by omega
  simp [decodeAux, hmode, hdiv, hflag, hrest, decodeWord]

/-- The flag turns the default space around where the part has none or has one in the other place (R117, R118). -/
theorem decodeAux_word {c : Config} {idx : Nat} {sel : Dict} (hidx : idx < c.dictLen sel) (fuel : Nat) (ps : List Part)
    (sw sp : Bool) (out : Text) :
    decodeAux c (fuel + 1) (build c (.word idx sel sw out.isEmpty sp :: ps)) out =
      decodeAux c fuel (build c ps) (out ++ partText c (.word idx sel sw out.isEmpty sp)) := by
  obtain ⟨hsel, hword, hrest⟩ := word_digits hidx (build c ps) sel
  have hdecode : ∀ pre, pre = sp →
      decodeWord c fuel ((build c ps * c.dictLen sel + idx) * 2 + selDigit sel) sw pre out =
        decodeAux c fuel (build c ps) (out ++ partText c (.word idx sel sw out.isEmpty sp)) := by
    rintro pre rfl
    simp only [decodeWord, hsel, hword, hrest, partText]
  rw [build_word c idx sel sw out.isEmpty sp ps _ rfl]
  split
  next hdefault =>
    cases sw with
    | false => exact (decodeAux_default c fuel _ out).trans (hdecode _ hdefault.symm)
    | true => exact (decodeAux_flagged c fuel _ (by decide) out).trans (hdecode _ (by simp [hdefault]))
  next hother =>
    have hsp : sp = out.isEmpty := by simpa using hother
    cases sw <;> exact (decodeAux_flagged c fuel _ (by decide) out).trans (hdecode _ (by simp [hsp]))

/-! ## The number of a parse decoded (R119, R123, R141, R145) -/

/-- A part's digits make the number greater, so each turn of `DECODE` takes at least one of its turns' bound. -/
theorem lt_build_chr (c : Config) (ch : Char) (ps : List Part) : build c ps < build c (.chr ch :: ps) := by
  rw [build_chr]
  split <;> omega

theorem lt_build_word {c : Config} {idx : Nat} {sel : Dict} (hidx : idx < c.dictLen sel) (sw first sp : Bool)
    (ps : List Part) : build c ps < build c (.word idx sel sw first sp :: ps) := by
  have hle : build c ps ≤ build c ps * c.dictLen sel := Nat.le_mul_of_pos_right _ (by omega)
  rw [build_word c idx sel sw first sp ps _ rfl]
  split <;> split <;> omega

/-- Decoding the number of a parse appends the texts of its parts (R141). -/
theorem decodeAux_build {c : Config} {first : Bool} {t : Text} {ps : List Part} (h : Parsed c first t ps) :
    ∀ (fuel : Nat) (out : Text), build c ps ≤ fuel → first = out.isEmpty →
      decodeAux c fuel (build c ps) out = out ++ ps.flatMap (partText c) := by
  induction h with
  | nil first =>
    intro fuel out _ _
    cases fuel <;> simp [build, decodeAux]
  | @chr first ch rest ps h ih =>
    intro fuel out hfuel _
    have hlt := lt_build_chr c ch ps
    obtain ⟨fuel, rfl⟩ := Nat.exists_eq_add_one_of_ne_zero (n := fuel) (by omega)
    rw [decodeAux_chr, ih _ _ (by omega) (by simp), List.append_assoc]
    rfl
  | @word first idx sel sw sp rest ps hidx hword h ih =>
    rintro fuel out hfuel rfl
    have hlt := lt_build_word hidx sw out.isEmpty sp ps
    obtain ⟨fuel, rfl⟩ := Nat.exists_eq_add_one_of_ne_zero (n := fuel) (by omega)
    rw [decodeAux_word hidx, ih _ _ (by omega) (by simp [partText_word_ne_nil hword]), List.append_assoc]
    rfl

/-- `DECODE(ENCODE(t))` is the texts of the parts of `t`. -/
theorem decodeNat_encodeText (c : Config) (t : Text) :
    decodeNat c (encodeText c t) = (parse c t).flatMap (partText c) :=
  decodeAux_build (parsed_parseFrom c true t) _ _ le_rfl rfl

/-! ## What the encoder substitutes (R115) -/

/-- The texts of the parts: every character of the text, or a space for one that cannot be encoded. -/
theorem Parsed.forall₂_substituted {c : Config} {first : Bool} {t : Text} {ps : List Part} (h : Parsed c first t ps) :
    List.Forall₂ (fun ch ch' => ch' = ch ∨ (ch' = ' ' ∧ encodable ch = false)) t (ps.flatMap (partText c)) := by
  induction h with
  | nil => exact .nil
  | chr first ch h ih =>
    refine .cons ?_ ih
    rcases substituted_cases ch with ⟨-, heq⟩ | ⟨he, hspace, -⟩
    · exact .inl heq
    · exact .inr ⟨hspace, he⟩
  | word first sw sp hidx hword h ih => exact List.rel_append (List.forall₂_same.mpr fun _ _ => .inl rfl) ih

/-- The characters at which the texts of the parts differ from the text, in order. -/
def differences (t t' : Text) : List Char := ((t.zip t').filter fun p => p.1 != p.2).map Prod.fst

theorem differences_append_same (u t t' : Text) : differences (u ++ t) (u ++ t') = differences t t' := by
  induction u with
  | nil => rfl
  | cons ch u ih => simpa [differences] using ih

theorem differences_cons_self (ch : Char) (t t' : Text) : differences (ch :: t) (ch :: t') = differences t t' :=
  differences_append_same [ch] t t'

theorem differences_cons_of_ne {ch ch' : Char} (h : ch' ≠ ch) (t t' : Text) :
    differences (ch :: t) (ch' :: t') = ch :: differences t t' := by
  simp [differences, Ne.symm h]

/-- The characters that `ENCODE` logs are those it substitutes (R115, R287, R289). -/
theorem Parsed.unencodables_eq {c : Config} {first : Bool} {t : Text} {ps : List Part} (h : Parsed c first t ps) :
    unencodables ps = differences t (ps.flatMap (partText c)) := by
  induction h with
  | nil => rfl
  | @chr first ch rest ps h ih =>
    rw [List.flatMap_cons, partText, List.singleton_append]
    rcases substituted_cases ch with ⟨he, heq⟩ | ⟨he, -, hne⟩
    · rw [heq, differences_cons_self, ← ih]
      simp [unencodables, he]
    · rw [differences_cons_of_ne hne, ← ih]
      simp [unencodables, he]
  | word first sw sp hidx hword h ih =>
    rw [List.flatMap_cons, differences_append_same]
    exact ih

theorem encodable_of_mem_unencodables {ps : List Part} {ch : Char} (h : ch ∈ unencodables ps) :
    encodable ch = false := by
  obtain ⟨p, -, hp⟩ := List.mem_filterMap.mp h
  cases p with
  | chr ch' =>
    cases he : encodable ch' with
    | true => simp [he] at hp
    | false =>
      obtain rfl : ch' = ch := by simpa [he] using hp
      exact he
  | word => exact nomatch hp

theorem encodable_eq_false_iff {ch : Char} : encodable ch = false ↔ ¬(32 ≤ ch.toNat ∧ ch.toNat ≤ 126) := by
  rw [← encodable_iff, Bool.not_eq_true]

/-- The number of a parse is 0 only if there is no part. -/
theorem Parsed.build_eq_zero_iff {c : Config} {first : Bool} {t : Text} {ps : List Part} (h : Parsed c first t ps) :
    build c ps = 0 ↔ t = [] := by
  cases h with
  | nil => exact iff_of_true rfl rfl
  | @chr _ ch _ ps => exact iff_of_false (lt_build_chr c ch ps).ne_bot (List.cons_ne_nil _ _)
  | @word _ _ _ sw sp _ ps hidx hword =>
    exact iff_of_false (lt_build_word hidx sw first sp ps).ne_bot
      (List.append_ne_nil_of_left_ne_nil (partText_word_ne_nil hword sw first sp) _)

/-! ## The obligations -/

/-- Settles O52: a text without a character that cannot be encoded has none that is substituted. -/
theorem codecRoundTrip : Obligations.CodecRoundTrip := by
  unfold Obligations.CodecRoundTrip
  intro c t ht
  have hsub := (List.forall₂_and_left _ _).mpr ⟨ht, (parsed_parseFrom c.val true t).forall₂_substituted⟩
  have hsame : List.Forall₂ (· = ·) t ((parse c.val t).flatMap (partText c.val)) :=
    hsub.imp fun ch ch' ⟨hch, h⟩ => (h.resolve_right fun hs => encodable_eq_false_iff.mp hs.2 hch).symm
  rw [List.forall₂_eq_eq_eq] at hsame
  rw [decodeNat_encodeText, ← hsame]

/-- Settles O53: part by part, a word as it is, a character as its substitute. -/
theorem codecSubstitutesOnlyUnencodables : Obligations.CodecSubstitutesOnlyUnencodables := by
  unfold Obligations.CodecSubstitutesOnlyUnencodables
  intro c t
  have hparsed := parsed_parseFrom c.val true t
  refine ⟨hparsed.build_eq_zero_iff, ?_⟩
  rw [decodeNat_encodeText]
  exact hparsed.forall₂_substituted.imp fun _ _ => Or.imp_right (And.imp_right encodable_eq_false_iff.mp)

/-- Settles O54: the records are those of the parse, whose substitutes are where the decoded text differs. -/
theorem encodeLogsItsSubstitutions : Obligations.EncodeLogsItsSubstitutions := by
  unfold Obligations.EncodeLogsItsSubstitutions
  intro s t hu
  refine ⟨_, if_pos (by rw [s.textFits_of_unlimited t hu, s.codecFits_of_unlimited _ hu]; rfl),
    ⟨unencodables (parse s.cfg.val t), rfl, ?_, rfl, ?_⟩,
    rfl, rfl, rfl, rfl, rfl, rfl, rfl, rfl, rfl, rfl, rfl, rfl, rfl⟩
  · rw [decodeNat_encodeText]
    exact (parsed_parseFrom s.cfg.val true t).unencodables_eq
  · exact fun ch hch => encodable_eq_false_iff.mp (encodable_of_mem_unencodables hch)

end Machine
end Sys2Proof
end

section
/-! `PACK`'s program and its run (R121, R122, R160): the obligations `PackShape` and `PackedTextRunsToItself`. -/

namespace Sys2Proof

/-! ## The splitter on bytes of one kind (R74) -/

theorem splitAux_map_byteOf (k : Kind) (syms : List Sym) : ∀ {text : List Sym}, text ≠ [] →
    splitAux k text (syms.map (byteOf k)) = [⟨k, text ++ syms⟩] := by
  induction syms with
  | nil => exact fun htext => by simp [splitAux, htext]
  | cons q syms ih =>
    intro text htext
    rw [List.map_cons, splitAux, kindOf_byteOf, symOf_byteOf, if_pos rfl, ih (by simp), List.append_assoc,
      List.singleton_append]

namespace Machine

/-! ## How many chunks (R121) -/

/-- The binary digits are Mathlib's, the most significant first. -/
theorem binaryAux_eq_bits (fuel : Nat) : ∀ (n : Nat) (acc : List Bool), n ≤ fuel →
    binaryAux fuel n acc = n.bits.reverse ++ acc := by
  induction fuel with
  | zero =>
    intro n acc hn
    obtain rfl := Nat.le_zero.mp hn
    simp [binaryAux]
  | succ fuel ih =>
    intro n acc hn
    rw [binaryAux]
    split
    next h0 => simp [h0]
    next h0 =>
      have hbits : n.bits = decide (n % 2 = 1) :: (n / 2).bits := by
        have hn2 : Nat.bit (decide (n % 2 = 1)) (n / 2) = n := Nat.bit_decide_mod_two_eq_one_shiftRight_one n
        conv_lhs => rw [← hn2]
        exact Nat.bits_append_bit _ _ fun h => decide_eq_true (by omega)
      rw [ih _ _ (by omega), hbits, List.reverse_cons, List.append_assoc, List.singleton_append]

theorem length_binaryDigits (n : Nat) : (binaryDigits n).length = max 1 n.size := by
  rw [binaryDigits]
  split
  next h0 => rw [h0]; rfl
  next h0 =>
    have hpos : 0 < n.size := Nat.size_pos.mpr (Nat.pos_of_ne_zero h0)
    rw [binaryAux_eq_bits n n [] le_rfl, List.append_nil, List.length_reverse, Nat.size_eq_bits_len]
    omega

theorem length_sevens (m : Nat) : ∀ {bits : List Bool}, bits.length = 7 * m → (sevens bits).length = m := by
  induction m with
  | zero =>
    intro bits hlen
    obtain rfl := List.length_eq_zero_iff.mp hlen
    rfl
  | succ m ih =>
    intro bits hlen
    match bits, hlen with
    | a :: b :: c :: d :: e :: f :: g :: rest, hlen =>
      rw [sevens, List.length_cons, ih]
      simp only [List.length_cons] at hlen
      omega

theorem length_packChunks (n : Nat) : (packChunks n).length = max 1 ((n.size + 6) / 7) := by
  refine length_sevens _ ?_
  rw [List.length_append, List.length_replicate, length_binaryDigits]
  omega

theorem packChunks_ne_nil (n : Nat) : packChunks n ≠ [] := by
  have hlen := length_packChunks n
  intro hnil
  rw [hnil, List.length_nil] at hlen
  omega

/-! ## The program (R74, R121) -/

theorem split_pack (c : Config) (n : Nat) :
    split (pack c n) = [⟨.instruction, [c.op 'd']⟩, ⟨.literal, packChunks n⟩] := by
  obtain ⟨q, syms, hchunks⟩ := List.exists_cons_of_ne_nil (packChunks_ne_nil n)
  rw [pack, instrByte, hchunks, split, splitAux, kindOf_byteOf, symOf_byteOf, if_pos rfl, List.map_cons, splitAux,
    kindOf_byteOf, symOf_byteOf, if_neg (by decide), splitAux_map_byteOf _ _ (by simp)]
  rfl

/-- Settles O58: the digits' count, padded to sevens; then the splitter on the two kinds of bytes. -/
theorem packShape : Obligations.PackShape := by
  unfold Obligations.PackShape
  exact fun c n => ⟨rfl, length_packChunks n, split_pack c.val n⟩

/-! ## What a section holds for `pc` (R161) -/

theorem State.fetch_eq_token {s : State} {text : List Sym} {i : Instr}
    (hs : s.sections[s.pc.si]? = some ⟨.instruction, text⟩) (hi : (sectionInstrs s.cfg.val text)[s.pc.ti]? = some i) :
    s.fetch = .token i := by
  simp only [State.fetch, hs, hi]

theorem State.fetch_eq_boundary {s : State} {text : List Sym}
    (hs : s.sections[s.pc.si]? = some ⟨.instruction, text⟩)
    (hi : (sectionInstrs s.cfg.val text)[s.pc.ti]? = none) : s.fetch = .boundary := by
  simp only [State.fetch, hs, hi]

theorem State.fetch_eq_literal {s : State} {syms : List Sym} (hs : s.sections[s.pc.si]? = some ⟨.literal, syms⟩) :
    s.fetch = .literal syms := by
  simp only [State.fetch, hs]

theorem State.fetch_eq_ended {s : State} (hs : s.sections[s.pc.si]? = none) : s.fetch = .ended := by
  simp only [State.fetch, hs]

/-- `d` alone in its section is one command (R81). -/
theorem sectionInstrs_op_d {c : Config} (h : c.wf = true) : sectionInstrs c [c.op 'd'] = [.armCompress] := by
  have hglyph : c.glyph (c.op 'd') = 'd' := (Config.codePage_of_wf h).glyph_op (by decide)
  have hcmd : (Token.cmd (c.op 'd')).Wf c := by
    refine ⟨Config.digitOf_eq_none_iff.mpr (by rw [hglyph]; decide), fun hsesc => ?_, by rw [hglyph]; decide⟩
    exact (Config.specials_of_wf h).sesc (by rw [← hsesc, hglyph]; decide)
  have htokens : tokens c [c.op 'd'] = [.cmd (c.op 'd')] := by
    rw [tokens, List.length_singleton, tokensAux, nextToken_of_cmd hcmd]
    rfl
  rw [sectionInstrs, htokens, List.map_singleton, Token.instr, hglyph]
  rfl

/-! ## The run (R122, R160) -/

/-- `d` run and its section ended, from an empty stack: the state in which the Literal section is met. -/
def State.armedAtNextSection (s : State) : State := (s.setCmp true).nextToken.boundaryReset.nextSection

/-- The first two steps: the command `d`, and the end of its section (R161, R168, R218). -/
theorem run_armCompress {s : State} (hu : s.unlimited = true) (hpnl : s.pnl = false) (hstk : s.stk = [])
    (hsec : s.sections[s.pc.si]? = some ⟨.instruction, [s.cfg.val.op 'd']⟩) (hti : s.pc.ti = 0) :
    core.run 2 s = .next s.armedAtNextSection := by
  have hinstrs := sectionInstrs_op_d s.cfg.property
  have htoken : step s = .next (s.setCmp true).nextToken :=
    step_token hu (State.fetch_eq_token hsec (by rw [hinstrs, hti]; rfl)) rfl
  have hf : (s.setCmp true).nextToken.fetch = .boundary :=
    State.fetch_eq_boundary (text := [s.cfg.val.op 'd']) hsec (by simp [hinstrs, hti])
  have hboundary : step (s.setCmp true).nextToken = .next s.armedAtNextSection := by
    rw [step_boundary (s := (s.setCmp true).nextToken) hu hf,
      State.endOfSection_of_empty (s.setCmp true).nextToken hpnl hstk, State.armedAtNextSection]
  exact (run_succ_next core 1 s _).mpr ⟨_, htoken, (run_succ_next core 0 _ _).mpr ⟨_, hboundary, rfl⟩⟩

/-- The last two steps: a compressed Literal section with nothing to push, and the end of the run, which prints what the
section decodes to (R163, R164, R171). -/
theorem run_compressed_literal {s : State} {syms : List Sym} (hu : s.unlimited = true) (hcmp : s.cmp = true)
    (hpnl : s.pnl = false) (hres : s.result = none) (hsec : s.sections[s.pc.si]? = some ⟨.literal, syms⟩)
    (hlast : s.sections[s.pc.si + 1]? = none) :
    ∃ u, core.run 2 s = .next u ∧ u.result = some (s.acc ++ decodeNat s.cfg.val (unpack syms)) := by
  have hliteral : step s = .next (s.runLiteral syms).nextSection := step_literal hu (State.fetch_eq_literal hsec) rfl
  have hkeeps := runLiteral_keeps s syms
  have hend : (s.runLiteral syms).nextSection.fetch = .ended := by
    refine State.fetch_eq_ended ?_
    rw [State.sections_eq (t := (s.runLiteral syms).nextSection) hkeeps.prog, State.nextSection_pc, hkeeps.pc, hlast]
  have hended := step_ended (State.unlimited_of_cfg (t := (s.runLiteral syms).nextSection) hkeeps.cfg hu) hend
    (hkeeps.result.trans hres)
  refine ⟨_, (run_succ_next core 1 s _).mpr ⟨_, hliteral, (run_succ_next core 0 _ _).mpr ⟨_, hended, rfl⟩⟩, ?_⟩
  simp [s.runLiteral_eq, hpnl, State.literalText, hcmp]

theorem run_add (M : Host.Core) (j k : Nat) {s t u : M.State} (hj : M.run j s = .next t) (hk : M.run k t = .next u) :
    M.run (j + k) s = .next u := by
  induction j generalizing s with
  | zero =>
    obtain rfl := Host.Outcome.next.inj hj
    rwa [Nat.zero_add]
  | succ j ih =>
    obtain ⟨v, hstep, hrun⟩ := (run_succ_next M j s t).mp hj
    rw [Nat.succ_add]
    exact (run_succ_next M (j + k) s u).mpr ⟨v, hstep, ih hrun⟩

/-- A program of `PACK` takes four steps. -/
theorem runLength_pack {c : Config} (h : c.wf = true) (n : Nat) : runLength c (pack c n) = 2 + 2 := by
  simp [runLength, split_pack, sectionInstrs_op_d h]

/-- A program of `PACK`, whatever its input, prints what its number decodes to (R122, R144). -/
theorem hostRun_pack {s : State} (n : Nat) (input : List Text) (hu : s.unlimited = true) :
    ∃ u, hostRun (pack s.cfg.val n) input s = .next u ∧ u.result = some (decodeNat s.cfg.val n) := by
  have hsec : (s.startRun (pack s.cfg.val n) input).sections =
      [⟨.instruction, [s.cfg.val.op 'd']⟩, ⟨.literal, packChunks n⟩] :=
    (congrArg split (Memory.bytes_load _)).trans (split_pack s.cfg.val n)
  have harm := run_armCompress (s := s.startRun (pack s.cfg.val n) input) hu rfl rfl (congrArg (·[0]?) hsec) rfl
  obtain ⟨u, hprint, hres⟩ := run_compressed_literal
    (s := (s.startRun (pack s.cfg.val n) input).armedAtNextSection) hu rfl rfl rfl
    (congrArg (·[1]?) hsec) (congrArg (·[2]?) hsec)
  refine ⟨u, ?_, ?_⟩
  · rw [hostRun, runLength_pack s.cfg.property]
    exact run_add core 2 2 harm hprint
  · rw [hres, unpack_packChunks]
    rfl

/-- Settles O59: the program prints what its number decodes to, which is the text. -/
theorem packedTextRunsToItself : Obligations.PackedTextRunsToItself := by
  unfold Obligations.PackedTextRunsToItself
  intro s t input hu ht
  obtain ⟨u, hrun, hres⟩ := hostRun_pack (encodeText s.cfg.val t) input hu
  exact ⟨u, hrun, by rw [hres, codecRoundTrip s.cfg t ht]⟩

end Machine
end Sys2Proof
end

section
/-! `DECODE` on every natural number, canonical or not (R140, R141, R145), and a compressed Literal section (R163,
R164): the obligation `CompressedLiteralDecodesAndRoutes`. -/

namespace Sys2Proof.Machine

/-! ## `DECODE`'s loop without its turn bound (R145) -/

/-- Each turn divides the accumulator by at least 3, so any two bounds that the accumulator meets agree. -/
theorem decodeAux_congr_fuel (c : Config) {fuel fuel' n : Nat} (out : Text) (h : n ≤ fuel) (h' : n ≤ fuel') :
    decodeAux c fuel n out = decodeAux c fuel' n out := by
  induction fuel generalizing fuel' n out with
  | zero =>
    obtain rfl := Nat.le_zero.mp h
    cases fuel' <;> simp [decodeAux]
  | succ fuel ih =>
    by_cases hn : n = 0
    · subst hn
      cases fuel' <;> simp [decodeAux]
    · obtain ⟨fuel', rfl⟩ := Nat.exists_eq_add_one_of_ne_zero (n := fuel') (by omega)
      simp only [decodeAux, if_neg hn]
      by_cases hmode : n % 3 = 0
      · simp only [if_pos hmode]
        exact ih _ (by omega) (by omega)
      · simp only [if_neg hmode]
        have hdigits : (if n % 3 = 2 then n / 3 / 3 else n / 3) < n := by split <;> omega
        generalize (if n % 3 = 2 then n / 3 / 3 else n / 3) = m at hdigits ⊢
        have hrest : ∀ len, m / 2 / len < n := fun len =>
          ((Nat.div_le_self _ _).trans (Nat.div_le_self _ _)).trans_lt hdigits
        have hlt := hrest (c.dictLen (if m % 2 = 0 then .short else .long))
        exact ih _ (by omega) (by omega)

/-- The loop of `DECODE` from any accumulator and output, run until the accumulator is 0 (R141). -/
def decodeFrom (c : Config) (n : Nat) (out : Text) : Text := decodeAux c n n out

theorem decodeAux_eq_decodeFrom (c : Config) {fuel n : Nat} (out : Text) (h : n ≤ fuel) :
    decodeAux c fuel n out = decodeFrom c n out := decodeAux_congr_fuel c out h le_rfl

/-! ## One turn on any number (R141 to R143) -/

/-- Mode 0: one character, whatever its digit. -/
theorem decodeFrom_chr (c : Config) {k d : Nat} (out : Text) (hd : d < 96) (hpos : 0 < 96 * k + d) :
    decodeFrom c (3 * (96 * k + d)) out = decodeFrom c k (out ++ [Char.ofNat (d + 31)]) := by
  have hne : 3 * (96 * k + d) ≠ 0 := by omega
  have hmode : 3 * (96 * k + d) % 3 = 0 := by omega
  have hdigit : 3 * (96 * k + d) / 3 % 96 + 32 - 1 = d + 31 := by omega
  have hrest : 3 * (96 * k + d) / 3 / 96 = k := by omega
  obtain ⟨fuel, hfuel⟩ := Nat.exists_eq_add_one_of_ne_zero hne
  rw [← decodeAux_eq_decodeFrom c out hfuel.le]
  simp only [decodeAux, if_neg hne, hmode, if_true, hdigit, hrest]
  exact decodeAux_eq_decodeFrom c _ (by omega)

section
variable {c : Config} {sel : Dict} {idx : Nat} {w : Text}

theorem lt_dictLen_of_getElem? (hw : (c.dict sel)[idx]? = some w) : idx < c.dictLen sel := by
  obtain ⟨hidx, -⟩ := List.getElem?_eq_some_iff.mp hw
  exact hidx

/-- The select digit, the index digit of the word and the parts after, read as one part (R142, R143). -/
theorem decodeWord_eq_decodeFrom (hw : (c.dict sel)[idx]? = some w) {fuel k : Nat} (hk : k ≤ fuel) (sw pre : Bool)
    (out : Text) : decodeWord c fuel ((k * c.dictLen sel + idx) * 2 + selDigit sel) sw pre out =
      decodeFrom c k (out ++ (if pre then [' '] else []) ++ (if sw then swapText w else w)) := by
  obtain ⟨hsel, hword, hrest⟩ := word_digits (lt_dictLen_of_getElem? hw) k sel
  have hget : c.word sel idx = w := by rw [Config.word, List.getD_eq_getElem?_getD, hw, Option.getD_some]
  simp only [decodeWord, hsel, hword, hrest, hget, List.append_assoc]
  exact decodeAux_eq_decodeFrom c _ hk

/-- The number that a word's digits make is at least the parts after it. -/
theorem le_word_digits (hw : (c.dict sel)[idx]? = some w) (k q : Nat) : k ≤ (k * c.dictLen sel + idx) * 2 + q := by
  have hle : k ≤ k * c.dictLen sel := Nat.le_mul_of_pos_right _ (Nat.zero_lt_of_lt (lt_dictLen_of_getElem? hw))
  omega

/-- Mode 1: the word as it is, after a space unless it is the first. -/
theorem decodeFrom_default (hw : (c.dict sel)[idx]? = some w) (k : Nat) (out : Text) :
    decodeFrom c (3 * (2 * ((c.dict sel).length * k + idx) + selDigit sel) + 1) out =
      decodeFrom c k (out ++ (if out = [] then [] else [' ']) ++ w) := by
  have hdigits : 3 * (2 * ((c.dict sel).length * k + idx) + selDigit sel) + 1 =
      ((k * c.dictLen sel + idx) * 2 + selDigit sel) * 3 + 1 := by rw [Config.dictLen]; ring
  have hle := le_word_digits hw k (selDigit sel)
  rw [hdigits, decodeFrom, decodeAux_default, decodeWord_eq_decodeFrom hw (by omega)]
  by_cases hout : out = [] <;> simp [hout]

/-- Mode 2: flag 1 keeps the word's case, and flag 0 the space of mode 1. -/
theorem decodeFrom_flagged (hw : (c.dict sel)[idx]? = some w) (k : Nat) {flag : Nat} (hflag : flag < 3) (out : Text) :
    decodeFrom c (3 * (3 * (2 * ((c.dict sel).length * k + idx) + selDigit sel) + flag) + 2) out =
      decodeFrom c k (out ++ (if (out = [] ↔ flag = 0) then [] else [' ']) ++
        (if flag = 1 then w else swapText w)) := by
  have hdigits : 3 * (3 * (2 * ((c.dict sel).length * k + idx) + selDigit sel) + flag) + 2 =
      (((k * c.dictLen sel + idx) * 2 + selDigit sel) * 3 + flag) * 3 + 2 := by rw [Config.dictLen]; ring
  have hle := le_word_digits hw k (selDigit sel)
  rw [hdigits, decodeFrom, decodeAux_flagged c _ _ hflag, decodeWord_eq_decodeFrom hw (by omega)]
  by_cases hout : out = [] <;> by_cases hzero : flag = 0 <;> simp [hout, hzero]

end

/-- Settles O25: the routing by `PNL`; then `decodeFrom` is the loop, one equation per kind of part. -/
theorem compressedLiteralDecodesAndRoutes : Obligations.CompressedLiteralDecodesAndRoutes := by
  unfold Obligations.CompressedLiteralDecodesAndRoutes
  refine ⟨?_, fun c => ⟨decodeFrom c.val, fun _ => rfl, fun _ => rfl, fun _ _ out hd hpos =>
    decodeFrom_chr c.val out hd hpos, fun sel q hq k idx w out hw => ?_⟩⟩
  · rintro s syms r hcmp rfl
    show Host.Outcome.next (s.runLiteral syms) = _
    rw [s.runLiteral_eq, State.literalText, if_pos hcmp, if_pos hcmp]
    cases s.pnl <;> rfl
  · obtain rfl : q = selDigit sel := hq.trans (by cases sel <;> rfl)
    exact ⟨decodeFrom_default hw k out, fun _ hflag => decodeFrom_flagged hw k hflag out⟩

end Sys2Proof.Machine
end

section
/-! Commands that pop their operands (R166, R169): `State.pop` gives the pop protocol and nothing else does, and what
`DISPATCH` and the arithmetic commands are on popped operands; the exact sums, products and quotients of finite data
(R192): the obligations `PopAlwaysYieldsOneValue`, `StackCommands`, `OneOperandArithmetic` and
`TwoOperandArithmetic`. -/

namespace Sys2Proof

/-! ## Finite data (R192, R201) -/

/-- The units of a finite datum are its magnitude with its sign. -/
theorem F64.units_fin {s : Bool} {e : Fin 2047} {f : BitVec 52} {a : Int} (h : (F64.fin s e f).units = some a) :
    (if s then -(F64.magnitude e f : Int) else F64.magnitude e f) = a := Option.some.inj h

theorem F64.natAbs_units {s : Bool} {e : Fin 2047} {f : BitVec 52} {a : Int} (h : (F64.fin s e f).units = some a) :
    a.natAbs = F64.magnitude e f := by
  rw [← F64.units_fin h]
  cases s <;> simp

theorem F64.units_neg {x : F64} {a : Int} (h : x.units = some a) : x.neg.units = some (-a) := by
  cases x with
  | nan => exact nomatch h
  | inf s => exact nomatch h
  | fin s e f =>
    rw [← F64.units_fin h]
    cases s <;> simp [F64.neg, F64.units]

section
variable {s t : Bool} {e e' : Fin 2047} {f f' : BitVec 52} {a b : Int}
  (ha : (F64.fin s e f).units = some a) (hb : (F64.fin t e' f').units = some b)
include ha hb

theorem F64.add_fin : (F64.fin s e f).add (.fin t e' f') = F64.ofSum s t (a + b) := by
  rw [F64.add, F64.units_fin ha, F64.units_fin hb]

/-- A difference is the sum with the negated datum, whose sign is the other one. -/
theorem F64.sub_fin : (F64.fin s e f).sub (.fin t e' f') = F64.ofSum s (!t) (a - b) :=
  F64.add_fin ha (F64.units_neg hb)

theorem F64.mul_fin : (F64.fin s e f).mul (.fin t e' f') = F64.round (s ^^ t) (a * b).natAbs F64.one64 := by
  rw [F64.mul, Int.natAbs_mul, F64.natAbs_units ha, F64.natAbs_units hb]

theorem F64.div_fin (hne : b ≠ 0) :
    (F64.fin s e f).div (.fin t e' f') = F64.round (s ^^ t) (a.natAbs * F64.one64) b.natAbs := by
  have hmag : F64.magnitude e' f' ≠ 0 := by rwa [← F64.natAbs_units hb, Int.natAbs_ne_zero]
  rw [F64.div, if_neg hmag, F64.natAbs_units ha, F64.natAbs_units hb]

end

namespace Machine

/-! ## The pop protocol (R169) -/

theorem State.popsTo_pop (s : State) : PopsTo s s.pop.1 s.pop.2 := by
  rcases List.eq_nil_or_concat s.stk with he | ⟨xs, v, hs⟩
  · cases hl : s.input[s.icur]? with
    | some line =>
      rw [s.pop_of_input line he hl]
      exact .inr (.inl ⟨he, line, hl, rfl, rfl⟩)
    | none =>
      have hle := List.getElem?_eq_none_iff.mp hl
      rw [s.pop_of_acc he hle]
      exact .inr (.inr ⟨he, hle, rfl, rfl⟩)
  · rw [List.concat_eq_append] at hs
    rw [s.pop_of_stack xs v hs]
    exact .inl ⟨xs, hs, rfl⟩

/-! ## Dispatch on popped operands (R166) -/

section
variable {s t u : State} {p1 p2 : Value}

theorem PopsTo.dispatch1_eq (h : PopsTo s p1 t) (cmd : Value → State → State × Option Value) :
    dispatch1 s cmd = (cmd p1 t).1.pushResult (cmd p1 t).2 := by
  simp only [dispatch1, h.pop_eq]

theorem PopsTo.dispatch2_eq (h1 : PopsTo s p1 t) (h2 : PopsTo t p2 u)
    (cmd : Value → Value → State → State × Option Value) :
    dispatch2 s cmd = (cmd p1 p2 u).1.pushResult (cmd p1 p2 u).2 := by
  simp only [dispatch2, h1.pop_eq, h2.pop_eq]

theorem PopsTo.arith1_eq (h : PopsTo s p1 t) (f : F64 → F64) :
    arith1 s f = .next { t with stk := t.stk ++ [.num (f (toNum p1))] } :=
  congrArg Host.Outcome.next (h.dispatch1_eq _)

theorem PopsTo.arith2_eq (h1 : PopsTo s p1 t) (h2 : PopsTo t p2 u) (f : F64 → F64 → F64) :
    arith2 s f = .next { u with stk := u.stk ++ [.num (f (toNum p1) (toNum p2))] } :=
  congrArg Host.Outcome.next (h1.dispatch2_eq h2 _)

end

/-! ## The obligations -/

/-- Settles O22: `State.pop` follows the protocol, and whatever follows it is what `State.pop` computes. -/
theorem popAlwaysYieldsOneValue : Obligations.PopAlwaysYieldsOneValue := by
  unfold Obligations.PopAlwaysYieldsOneValue
  intro s
  refine ⟨s.popsTo_pop, fun v t h => ?_⟩
  rw [h.pop_eq]
  exact ⟨rfl, rfl⟩

/-- Settles O27: each command is `arith1` of one operation. -/
theorem oneOperandArithmetic : Obligations.OneOperandArithmetic := by
  unfold Obligations.OneOperandArithmetic
  exact fun _ _ _ h => ⟨h.arith1_eq fun x => x.add (F64.ofNat 1), h.arith1_eq fun x => x.sub (F64.ofNat 1),
    h.arith1_eq fun x => x.add (F64.ofNat 2), h.arith1_eq fun x => x.sub (F64.ofNat 2)⟩

/-- Settles O29: `:` peeks what a pop would give; `~` pushes both operands itself, `$` none. -/
theorem stackCommands : Obligations.StackCommands := by
  unfold Obligations.StackCommands
  intro s t p1 h1
  refine ⟨?_, congrArg Host.Outcome.next (h1.dispatch1_eq _), fun u p2 h2 => ?_⟩
  · have hpeek : s.peek = p1 := by rw [s.peek_eq_pop, h1.pop_eq]
    exact congrArg (fun v => Host.Outcome.next (s.push v)) hpeek
  · have hpush : (u.push p1).push p2 = { u with stk := u.stk ++ [p1, p2] } := State.foldl_push [p1, p2] u
    exact congrArg Host.Outcome.next ((h1.dispatch2_eq h2 _).trans hpush)

/-- Settles O28: each command is `arith2` of one operation, and each operation rounds its exact result once. -/
theorem twoOperandArithmetic : Obligations.TwoOperandArithmetic := by
  unfold Obligations.TwoOperandArithmetic
  refine ⟨fun s t u p1 p2 h1 h2 =>
    ⟨h1.arith2_eq h2 F64.add, h1.arith2_eq h2 F64.sub, h1.arith2_eq h2 F64.mul, h1.arith2_eq h2 F64.div⟩, ?_⟩
  rintro _ _ sx ex fx sy ey fy a b rfl rfl ha hb
  exact ⟨F64.add_fin ha hb, F64.sub_fin ha hb, F64.mul_fin ha hb, F64.div_fin ha hb⟩

end Machine
end Sys2Proof
end

section
/-! Every run ends, from every state (R160, R161): no step but the last reads `RESULT`, so a state that already holds
one comes nearer to the end of its program like any other: the obligation `EveryRunEnds`. -/

namespace Sys2Proof.Machine

/-! ## The steps left go down, whatever `RESULT` holds -/

/-- The state with `RESULT` not written: what the lemmas on the steps left speak about. -/
def State.withoutResult (s : State) : State := { s with result := none }

theorem State.Keeps.withoutResult {s u : State} (h : s.Keeps u) : s.withoutResult.Keeps u.withoutResult :=
  ⟨h.cfg, h.input, congrArg State.withoutResult h.backdrop⟩

theorem State.Advanced.stepsLeft_eq {s t : State} (h : s.Advanced t) (hr : t.result = none) :
    s.stepsLeft = t.stepsLeft + 1 := by
  obtain ⟨-, hres, -⟩ | ⟨-, hleft⟩ := h.progress
  · exact nomatch hr.symm.trans hres
  · exact hleft

theorem State.stepsLeft_nextToken {s u : State} {i : Instr} (hf : s.fetch = .token i) (h : s.Keeps u) :
    s.stepsLeft = u.nextToken.stepsLeft + 1 :=
  (State.advanced_nextToken (s := s.withoutResult) rfl hf h.withoutResult).stepsLeft_eq rfl

theorem State.stepsLeft_nextSection {s u : State} {sec : Section} (hs : s.sections[s.pc.si]? = some sec)
    (hone : sectionSteps s.cfg.val s.pc.ti sec = 1) (h : s.Keeps u) :
    s.stepsLeft = u.nextSection.stepsLeft + 1 :=
  (State.advanced_nextSection (s := s.withoutResult) rfl hs hone h.withoutResult).stepsLeft_eq rfl

/-- A step brings the end of the program one step nearer, or it is the one at the end that writes `RESULT`. -/
theorem step_stepsLeft {s t : State} (h : step s = .next t) :
    s.stepsLeft = t.stepsLeft + 1 ∨ (s.stepsLeft = 1 ∧ t.fetch = .ended ∧ t.result = some s.acc) := by
  rcases step_next_cases s t h with ⟨i, u, hf, hu, rfl, -⟩ | ⟨syms, hf, rfl, -⟩ | ⟨hf, rfl, -⟩ | ⟨hf, -, rfl, -⟩
  · exact .inl (State.stepsLeft_nextToken hf (exec_keeps hu))
  · obtain ⟨sec, hs, hk, -⟩ := State.fetch_literal hf
    exact .inl (State.stepsLeft_nextSection hs (by rw [sectionSteps, hk]) (runLiteral_keeps s syms))
  · obtain ⟨sec, hs, hk, hle⟩ := State.fetch_boundary hf
    have hone : sectionSteps s.cfg.val s.pc.ti sec = 1 := by
      simp only [sectionSteps, hk]
      omega
    exact .inl (State.stepsLeft_nextSection hs hone (endOfSection_keeps s))
  · exact .inr ⟨by rw [State.stepsLeft, State.fetch_ended hf], hf, rfl⟩

/-! ## Runs to the end -/

theorem run_succ_of_next {M : Host.Core} {s t : M.State} (h : M.step s = .next t) (k : Nat) :
    M.run (k + 1) s = M.run k t := by
  rw [Host.Core.run, h]

theorem run_succ_of_fault {M : Host.Core} {s : M.State} {r : M.Fault} (h : M.step s = .fault r) (k : Nat) :
    M.run (k + 1) s = .fault r := by
  rw [Host.Core.run, h]

/-- One step past the steps left the run is over; a run that finds `RESULT` written is over one step earlier. -/
theorem run_past_stepsLeft (k : Nat) : ∀ s : State, s.unlimited = true → s.stepsLeft = k →
    core.run (k + 1) s = .fault .runEnded := by
  induction k with
  | zero =>
    intro s hu hk
    rcases step_safe hu with ⟨t, hstep⟩ | ⟨hstop, -⟩
    · rcases step_stepsLeft hstep with hleft | ⟨hone, -⟩ <;> omega
    · exact run_succ_of_fault hstop 0
  | succ k ih =>
    intro s hu hk
    rcases step_safe hu with ⟨t, hstep⟩ | ⟨hstop, -⟩
    · have hrest : core.run (k + 1) t = .fault .runEnded := by
        rcases step_stepsLeft hstep with hleft | ⟨-, hend, hres⟩
        · obtain ⟨hcfg, -⟩ := stepKeepsRunParameters s t hstep
          exact ih t (State.unlimited_of_cfg hcfg hu) (by omega)
        · exact run_succ_of_fault (step_of_result hend hres) k
      exact (run_succ_of_next (M := core) hstep (k + 1)).trans hrest
    · exact run_succ_of_fault hstop (k + 1)

/-- Settles O16: one step more than are left. -/
theorem everyRunEnds : Obligations.EveryRunEnds := by
  unfold Obligations.EveryRunEnds
  exact fun s hu => ⟨s.stepsLeft + 1, run_past_stepsLeft _ s hu rfl⟩

end Sys2Proof.Machine
end

section
/-! Rounding to binary64 (R192): what rounding to a whole number of steps gives, what datum a step and a count of steps
are, and from them that `F64.round` is to the nearest datum, ties to even, and exact on whole numbers up to 2^53: the
obligation `RoundingIsNearestTiesToEven`. -/

namespace Sys2Proof

/-! ## The nearest multiple -/

/-- How far `r` steps of `u` are from `a`. -/
def stepError (a u r : Nat) : Nat := ((r * u : Nat) - (a : Int)).natAbs

/-- `r` steps of `u` are at most half a step from `a`, and exactly half a step only if `r` is even. -/
structure NearestSteps (a u r : Nat) : Prop where
  half : 2 * stepError a u r ≤ u
  even : 2 * stepError a u r = u → r % 2 = 0

theorem divHalfEven_nearest (a : Nat) {u : Nat} (hu : 0 < u) : NearestSteps a u (divHalfEven a u) := by
  have hdiv := Nat.div_add_mod' a u
  have hmod := Nat.mod_lt a hu
  have hsucc := Nat.add_one_mul (a / u) u
  unfold divHalfEven
  rcases lt_trichotomy (2 * (a % u)) u with hlt | heq | hgt
  · simp only [if_pos hlt]
    constructor <;> unfold stepError <;> omega
  · simp only [heq, lt_irrefl, if_false]
    rcases Nat.mod_two_eq_zero_or_one (a / u) with hq | hq <;> simp only [hq, Nat.add_zero] <;> constructor <;>
      unfold stepError <;> omega
  · simp only [if_neg hgt.not_gt, if_pos hgt]
    constructor <;> unfold stepError <;> omega

namespace NearestSteps

variable {a u r : Nat} (h : NearestSteps a u r)
include h

theorem bounds : r * u ≤ a + u / 2 ∧ a ≤ r * u + u / 2 := by
  have hhalf := h.half
  unfold stepError at hhalf
  omega

/-- No count of steps is nearer, and another one is as near only if `r` is even. -/
theorem error_le (m : Nat) :
    stepError a u r ≤ stepError a u m ∧ (stepError a u r = stepError a u m → r ≠ m → r % 2 = 0) := by
  obtain ⟨hhalf, heven⟩ := h
  rcases lt_trichotomy m r with hlt | rfl | hgt
  · have hstep : (m + 1) * u ≤ r * u := Nat.mul_le_mul_right u hlt
    rw [Nat.succ_mul] at hstep
    unfold stepError at *
    constructor <;> omega
  · exact ⟨le_rfl, fun _ hne => absurd rfl hne⟩
  · have hstep : (r + 1) * u ≤ m * u := Nat.mul_le_mul_right u hgt
    rw [Nat.succ_mul] at hstep
    unfold stepError at *
    constructor <;> omega

theorem le_of_lt_mul {c : Nat} (hlt : a < c * u) : r ≤ c := by
  have hbounds := h.bounds
  by_contra hcr
  have hstep : (c + 1) * u ≤ r * u := Nat.mul_le_mul_right u (by omega)
  rw [Nat.succ_mul] at hstep
  omega

theorem le_of_mul_le {c : Nat} (hu : 0 < u) (hle : c * u ≤ a) : c ≤ r := by
  have hbounds := h.bounds
  by_contra hcr
  have hstep : (r + 1) * u ≤ c * u := Nat.mul_le_mul_right u (by omega)
  rw [Nat.succ_mul] at hstep
  omega

/-- A multiple of the step is reached exactly. -/
theorem eq_of_dvd (hdvd : u ∣ a) : r * u = a := by
  obtain ⟨m, rfl⟩ := hdvd
  obtain ⟨hle, -⟩ := h.error_le m
  have hcomm := Nat.mul_comm u m
  unfold stepError at hle
  omega

end NearestSteps

namespace F64

/-! ## The magnitude of a datum -/

/-- A magnitude is a whole number of steps of `2^k`, or it is below the smallest normal one of that step. -/
theorem magnitude_steps_or_lt (e : Fin 2047) (f : BitVec 52) (k : Nat) :
    (∃ m, magnitude e f = m * 2 ^ k) ∨ (0 < k ∧ magnitude e f < 2 ^ 52 * 2 ^ k) := by
  have hf := f.isLt
  unfold magnitude
  rcases Nat.eq_zero_or_pos k with rfl | hk
  · exact .inl ⟨_, (Nat.mul_one _).symm⟩
  split
  · exact .inr ⟨hk, hf.trans_le (Nat.le_mul_of_pos_right _ (Nat.two_pow_pos k))⟩
  by_cases hle : k ≤ e.val - 1
  · refine .inl ⟨(2 ^ 52 + f.toNat) * 2 ^ (e.val - 1 - k), ?_⟩
    rw [Nat.mul_assoc, ← Nat.pow_add, Nat.sub_add_cancel hle]
  · refine .inr ⟨hk, ?_⟩
    calc (2 ^ 52 + f.toNat) * 2 ^ (e.val - 1)
        < 2 ^ 53 * 2 ^ (e.val - 1) := Nat.mul_lt_mul_of_pos_right (by omega) (Nat.two_pow_pos _)
      _ = 2 ^ 52 * 2 ^ (e.val - 1 + 1) := by rw [Nat.pow_succ]; ring
      _ ≤ 2 ^ 52 * 2 ^ k := Nat.mul_le_mul_left _ (Nat.pow_le_pow_right two_pos (by omega))

/-- `r` steps of `2^k`, in normal form, are an infinity or the datum of that magnitude, whose last bit is that of
`r`. -/
theorem assemble_cases (neg : Bool) {k r : Nat} (hr : r ≤ 2 ^ 53) (hk : k = 0 ∨ 2 ^ 52 ≤ r) :
    (assemble neg k r = .inf neg ∧ 2047 * 2 ^ 52 ≤ k * 2 ^ 52 + r) ∨
    ∃ e f, assemble neg k r = .fin neg e f ∧ k * 2 ^ 52 + r < 2047 * 2 ^ 52 ∧ magnitude e f = r * 2 ^ k ∧
      f.toNat % 2 = r % 2 := by
  by_cases hlt : (k * 2 ^ 52 + r) / 2 ^ 52 < 2047
  · refine .inr ⟨⟨_, hlt⟩, BitVec.ofNat 52 (k * 2 ^ 52 + r), dif_pos hlt, by omega, ?_, ?_⟩
    · rw [magnitude, BitVec.toNat_ofNat]
      rcases lt_or_ge r (2 ^ 52) with hsub | hnorm
      · obtain rfl : k = 0 := by omega
        rw [if_pos (show (0 * 2 ^ 52 + r) / 2 ^ 52 = 0 by omega)]
        omega
      rcases Nat.lt_or_eq_of_le hr with hlt53 | rfl
      · have he : (k * 2 ^ 52 + r) / 2 ^ 52 = k + 1 := by omega
        have hf : 2 ^ 52 + (k * 2 ^ 52 + r) % 2 ^ 52 = r := by omega
        simp only [he, hf, Nat.succ_ne_zero, if_false, Nat.add_sub_cancel]
      · have he : (k * 2 ^ 52 + 2 ^ 53) / 2 ^ 52 = k + 2 := by omega
        have hf : 2 ^ 52 + (k * 2 ^ 52 + 2 ^ 53) % 2 ^ 52 = 2 ^ 52 := by omega
        simp only [he, hf, Nat.succ_ne_zero, if_false, show k + 2 - 1 = k + 1 from rfl]
        rw [Nat.pow_succ 2 k]
        ring
    · rw [BitVec.toNat_ofNat]
      omega
  · exact .inl ⟨dif_neg hlt, by omega⟩

/-! ## The step of a rounding -/

/-- The exponent of the step that `F64.round` takes for `a / b`. -/
def scale (a b : Nat) : Nat := (a / b).log2 - 52

theorem round_eq (neg : Bool) (a b : Nat) :
    round neg a b = assemble neg (scale a b) (divHalfEven a (b * 2 ^ scale a b)) := rfl

theorem lt_scale (a : Nat) {b : Nat} (hb : 0 < b) : a < 2 ^ 53 * (b * 2 ^ scale a b) := by
  have hlog : a / b < 2 ^ (53 + scale a b) :=
    Nat.lt_log2_self.trans_le (Nat.pow_le_pow_right two_pos (by unfold scale; omega))
  rw [Nat.div_lt_iff_lt_mul hb, Nat.pow_add] at hlog
  calc a < 2 ^ 53 * 2 ^ scale a b * b := hlog
    _ = 2 ^ 53 * (b * 2 ^ scale a b) := by ring

theorem scale_le (a : Nat) {b : Nat} (hb : 0 < b) : scale a b = 0 ∨ 2 ^ 52 * (b * 2 ^ scale a b) ≤ a := by
  rcases Nat.eq_zero_or_pos (scale a b) with h0 | hpos
  · exact .inl h0
  · have hexp : (a / b).log2 = 52 + scale a b := by unfold scale at *; omega
    have hne : a / b ≠ 0 := by
      intro h0
      rw [h0, Nat.log2_zero] at hexp
      omega
    have hlog := Nat.log2_self_le hne
    rw [hexp, Nat.le_div_iff_mul_le hb, Nat.pow_add] at hlog
    refine .inr ?_
    calc 2 ^ 52 * (b * 2 ^ scale a b) = 2 ^ 52 * 2 ^ scale a b * b := by ring
      _ ≤ a := hlog

/-- `r` steps of `2^k` are what `a / b` rounds to: `F64.round` without the assembly of the datum. -/
structure Rounds (a b k r : Nat) : Prop where
  nearest : NearestSteps a (b * 2 ^ k) r
  lt : a < 2 ^ 53 * (b * 2 ^ k)
  normal : k = 0 ∨ 2 ^ 52 * (b * 2 ^ k) ≤ a

theorem round_rounds (a : Nat) {b : Nat} (hb : 0 < b) :
    Rounds a b (scale a b) (divHalfEven a (b * 2 ^ scale a b)) :=
  ⟨divHalfEven_nearest a (Nat.mul_pos hb (Nat.two_pow_pos _)), lt_scale a hb, scale_le a hb⟩

namespace Rounds

variable {a b k r : Nat} (h : Rounds a b k r)
include h

theorem count_le : r ≤ 2 ^ 53 := h.nearest.le_of_lt_mul h.lt

theorem count_normal (hb : 0 < b) : k = 0 ∨ 2 ^ 52 ≤ r :=
  h.normal.imp_right (h.nearest.le_of_mul_le (Nat.mul_pos hb (Nat.two_pow_pos k)))

/-- With `2^(n+1)` the largest step, the count of steps is too large exactly when the value is at least the midpoint
above the largest datum: at that step, when the count is rounded up to `2^53`. -/
theorem overflow_iff (hb : 0 < b) (n : Nat) :
    (n + 3) * 2 ^ 52 ≤ k * 2 ^ 52 + r ↔ (2 ^ 54 - 1) * 2 ^ n * b ≤ a := by
  have hcount := h.count_le
  have hcountNormal := h.count_normal hb
  obtain ⟨hnear, hlt, hnormal⟩ := h
  have hpos : 0 < b * 2 ^ n := by positivity
  have hdouble : b * 2 ^ (n + 1) = 2 * (b * 2 ^ n) := by ring
  rw [Nat.mul_assoc, Nat.mul_comm (2 ^ n) b]
  rcases lt_trichotomy k (n + 1) with hk | rfl | hk
  · have hstep : b * 2 ^ k ≤ b * 2 ^ n := Nat.mul_le_mul_left b (Nat.pow_le_pow_right two_pos (by omega))
    constructor <;> intro <;> omega
  · rw [hdouble] at hnear hlt
    have hbounds := hnear.bounds
    have hodd := hnear.even
    unfold stepError at hodd
    generalize b * 2 ^ n = p at *
    rcases Nat.lt_or_eq_of_le hcount with hsmall | rfl
    · have hmul : r * (2 * p) ≤ (2 ^ 53 - 1) * (2 * p) := Nat.mul_le_mul_right _ (by omega)
      refine iff_of_false (by omega) fun hle => ?_
      obtain rfl : r = 2 ^ 53 - 1 := by
        by_contra hne
        have hmul : r * (2 * p) ≤ (2 ^ 53 - 2) * (2 * p) := Nat.mul_le_mul_right _ (by omega)
        omega
      omega
    · exact iff_of_true (by omega) (by omega)
  · have hstep : b * 2 ^ (n + 1) * 2 ≤ b * 2 ^ k := by
      rw [Nat.mul_assoc, ← Nat.pow_succ]
      exact Nat.mul_le_mul_left b (Nat.pow_le_pow_right two_pos hk)
    exact iff_of_true (by omega) (by omega)

/-- No datum is nearer than `r` steps, and one of another magnitude is as near only if `r` is even: a datum is a count
of the same steps, or it lies below them all. -/
theorem error_le_magnitude (hb : 0 < b) (e : Fin 2047) (f : BitVec 52) :
    stepError a b (r * 2 ^ k) ≤ stepError a b (magnitude e f) ∧
    (stepError a b (r * 2 ^ k) = stepError a b (magnitude e f) → r * 2 ^ k ≠ magnitude e f → r % 2 = 0) := by
  have hsteps : ∀ m, stepError a b (m * 2 ^ k) = stepError a (b * 2 ^ k) m := fun m => by
    rw [stepError, stepError, Nat.mul_assoc, Nat.mul_comm (2 ^ k)]
  rcases magnitude_steps_or_lt e f k with ⟨m, hm⟩ | ⟨hk, hm⟩
  · obtain ⟨hle, hties⟩ := h.nearest.error_le m
    rw [hm, hsteps, hsteps]
    exact ⟨hle, fun heq hne => hties heq fun hrm => hne (congrArg (· * 2 ^ k) hrm)⟩
  · have hfirst := (h.nearest.error_le (2 ^ 52)).1
    have hnormal : 2 ^ 52 * (b * 2 ^ k) ≤ a := h.normal.resolve_left hk.ne'
    have hbelow : magnitude e f * b < 2 ^ 52 * (b * 2 ^ k) :=
      calc magnitude e f * b < 2 ^ 52 * 2 ^ k * b := Nat.mul_lt_mul_of_pos_right hm hb
        _ = 2 ^ 52 * (b * 2 ^ k) := by ring
    have hcloser : stepError a (b * 2 ^ k) r < stepError a b (magnitude e f) := by
      unfold stepError at *
      omega
    rw [hsteps]
    exact ⟨hcloser.le, fun heq => absurd heq hcloser.ne⟩

end Rounds

/-! ## What rounding gives -/

/-- A rounded value is an infinity, at the midpoint above the largest datum and beyond, or the datum of `r` steps of
`2^k`. -/
theorem round_cases (neg : Bool) (a : Nat) {b : Nat} (hb : 0 < b) :
    (round neg a b = .inf neg ∧ (2 ^ 54 - 1) * 2 ^ 2044 * b ≤ a) ∨
    ∃ e f r, round neg a b = .fin neg e f ∧ a < (2 ^ 54 - 1) * 2 ^ 2044 * b ∧ Rounds a b (scale a b) r ∧
      magnitude e f = r * 2 ^ scale a b ∧ f.toNat % 2 = r % 2 := by
  have hr := round_rounds a hb
  rw [round_eq]
  rcases assemble_cases neg hr.count_le (hr.count_normal hb) with ⟨hinf, hover⟩ | ⟨e, f, hfin, hfits, hmag, hpar⟩
  · exact .inl ⟨hinf, (hr.overflow_iff hb 2044).mp hover⟩
  · exact .inr ⟨e, f, _, hfin, not_le.mp (mt (hr.overflow_iff hb 2044).mpr (not_le.mpr hfits)), hr, hmag, hpar⟩

/-- A value that is a whole number of its own steps, and not too large, is its rounding's magnitude. -/
theorem round_exact (neg : Bool) {a b : Nat} (hb : 0 < b) (hlt : a < (2 ^ 54 - 1) * 2 ^ 2044 * b)
    (hdvd : b * 2 ^ scale a b ∣ a) : ∃ e f, round neg a b = .fin neg e f ∧ magnitude e f * b = a := by
  rcases round_cases neg a hb with ⟨-, hle⟩ | ⟨e, f, r, hfin, -, hr, hmag, -⟩
  · exact absurd hlt (not_lt.mpr hle)
  · refine ⟨e, f, hfin, ?_⟩
    calc magnitude e f * b = r * (b * 2 ^ scale a b) := by rw [hmag]; ring
      _ = a := hr.nearest.eq_of_dvd hdvd

theorem neg_round (neg : Bool) (a b : Nat) : (round neg a b).neg = round (!neg) a b := by
  rw [round_eq, round_eq, assemble, assemble]
  split <;> rfl

/-! ## Whole numbers (R191, R253) -/

theorem one64_eq : one64 = 2 ^ 1074 := by rw [one64]

theorem one64_pos : 0 < one64 := by rw [one64_eq]; positivity

/-- The step of `k` ones is one, or two if `k` is `2^53`. -/
theorem scale_mul_two_pow_dvd {k : Nat} (hk : k ≤ 2 ^ 53) (n : Nat) : 2 ^ scale (k * 2 ^ n) 1 ∣ k * 2 ^ n := by
  rcases Nat.lt_or_eq_of_le hk with hlt | rfl
  · rcases Nat.eq_zero_or_pos k with rfl | hpos
    · rw [Nat.zero_mul]
      exact Nat.dvd_zero _
    have hlog : (k * 2 ^ n).log2 < 53 + n := by
      rw [Nat.log2_lt (by positivity), Nat.pow_add]
      exact Nat.mul_lt_mul_of_pos_right hlt (Nat.two_pow_pos n)
    have hscale : scale (k * 2 ^ n) 1 ≤ n := by
      rw [scale, Nat.div_one]
      omega
    exact (Nat.pow_dvd_pow 2 hscale).mul_left k
  · rw [← Nat.pow_add]
    have hscale : scale (2 ^ (53 + n)) 1 ≤ 53 + n := by
      rw [scale, Nat.div_one, Nat.log2_two_pow]
      omega
    exact Nat.pow_dvd_pow 2 hscale

theorem whole_lt_overflow {k : Nat} (hk : k ≤ 2 ^ 53) : k * one64 < (2 ^ 54 - 1) * 2 ^ 2044 := by
  have hone : one64 ≤ 2 ^ 2044 := by
    rw [one64_eq]
    gcongr <;> omega
  have hlt : k < 2 ^ 54 - 1 := by omega
  exact (Nat.mul_lt_mul_of_pos_right hlt one64_pos).trans_le (Nat.mul_le_mul_left _ hone)

/-- Whole numbers up to 2^53 are exact. -/
theorem round_whole (neg : Bool) {k : Nat} (hk : k ≤ 2 ^ 53) :
    ∃ e f, round neg (k * one64) 1 = .fin neg e f ∧ magnitude e f = k * one64 := by
  obtain ⟨e, f, hfin, hmag⟩ := round_exact neg one_pos (by rw [Nat.mul_one]; exact whole_lt_overflow hk)
    (by rw [Nat.one_mul]; exact scale_mul_two_pow_dvd hk 1074)
  exact ⟨e, f, hfin, by rwa [Nat.mul_one] at hmag⟩

end F64

/-! ## The obligation -/

/-- Settles O48: the datum is the nearest count of steps, and its last bit is the count's. -/
theorem roundingIsNearestTiesToEven : Obligations.RoundingIsNearestTiesToEven := by
  unfold Obligations.RoundingIsNearestTiesToEven
  intro neg a b hb
  rcases F64.round_cases neg a hb with hinf | ⟨e, f, r, hfin, hlt, hr, hmag, hpar⟩
  · exact .inl hinf
  · refine .inr ⟨e, f, hfin, hlt, fun e' f' => ?_⟩
    rw [hmag, hpar]
    exact hr.error_le_magnitude hb e' f'

end Sys2Proof
end

section
/-! Numerals (R190, R191): what text `ToNum` reads and what it reads it as, and how a whole number prints: the
obligations `ToNumFollowsTheGrammar` and `WholeNumbersPrintAndReadBack`. -/

namespace Sys2Proof.Machine

/-! ## Digit characters -/

theorem isDigitChar_digitGlyph (d : Digit) : isDigitChar (digitGlyph d) = true := by revert d; decide

theorem digitGlyph_toNat_sub (d : Digit) : (digitGlyph d).toNat - 48 = d.val := by revert d; decide

theorem digitGlyph_ne_minus (d : Digit) : digitGlyph d ≠ '-' := by revert d; decide

theorem isDigitChar_iff {ch : Char} : isDigitChar ch = true ↔ ∃ d : Digit, digitGlyph d = ch := by
  refine ⟨fun h => ?_, fun ⟨d, hd⟩ => hd ▸ isDigitChar_digitGlyph d⟩
  simp only [isDigitChar, Bool.and_eq_true, decide_eq_true_eq] at h
  refine ⟨⟨ch.toNat - 48, by omega⟩, ?_⟩
  rw [digitGlyph, Nat.add_sub_cancel' h.1, Char.ofNat_toNat]

/-- A run of digit characters is spelled by digits. -/
theorem exists_digits {t : Text} (h : ∀ ch ∈ t, isDigitChar ch = true) : ∃ w : List Digit, w.map digitGlyph = t := by
  have hrange : t ∈ Set.range (List.map digitGlyph) := by
    rw [Set.range_list_map]
    exact fun ch hch => isDigitChar_iff.mp (h ch hch)
  exact hrange

theorem isDigitChar_of_mem_map {w : List Digit} : ∀ ch ∈ w.map digitGlyph, isDigitChar ch = true := by
  intro ch hch
  obtain ⟨d, -, rfl⟩ := List.mem_map.mp hch
  exact isDigitChar_digitGlyph d

theorem textDigits_map (w : List Digit) : textDigits (w.map digitGlyph) = Nat.ofDigits 10 (w.map Fin.val).reverse := by
  rw [textDigits, List.map_map, ← foldl_radix_eq_ofDigits]
  exact congrArg digitsValue (List.map_congr_left fun d _ => digitGlyph_toNat_sub d)

/-! ## Unsigned numerals (R190) -/

/-- `D+ ( . D+ )?`, the grammar of R190 without the sign. -/
def UnsignedNumeral (t : Text) : Prop :=
  ∃ w f : List Digit, w ≠ [] ∧ (t = w.map digitGlyph ∨ f ≠ [] ∧ t = w.map digitGlyph ++ '.' :: f.map digitGlyph)

theorem parseMagnitude_whole (neg : Bool) {w : List Digit} (hw : w ≠ []) :
    parseMagnitude neg (w.map digitGlyph) = F64.round neg (Nat.ofDigits 10 (w.map Fin.val).reverse * F64.one64) 1 := by
  have htake : (w.map digitGlyph).takeWhile isDigitChar = w.map digitGlyph :=
    List.takeWhile_eq_self_iff.mpr isDigitChar_of_mem_map
  have hdrop : (w.map digitGlyph).dropWhile isDigitChar = [] :=
    List.dropWhile_eq_nil_iff.mpr isDigitChar_of_mem_map
  have hne : (w.map digitGlyph).isEmpty = false := by simpa using hw
  simp only [parseMagnitude, htake, hdrop, hne, textDigits_map, Bool.false_eq_true, if_false]

theorem parseMagnitude_fraction (neg : Bool) {w f : List Digit} (hw : w ≠ []) (hf : f ≠ []) :
    parseMagnitude neg (w.map digitGlyph ++ '.' :: f.map digitGlyph) =
      F64.round neg (Nat.ofDigits 10 ((w ++ f).map Fin.val).reverse * F64.one64) (10 ^ f.length) := by
  have htake : (w.map digitGlyph ++ '.' :: f.map digitGlyph).takeWhile isDigitChar = w.map digitGlyph := by
    rw [List.takeWhile_append_of_pos isDigitChar_of_mem_map, List.takeWhile_cons_of_neg (by decide), List.append_nil]
  have hdrop : (w.map digitGlyph ++ '.' :: f.map digitGlyph).dropWhile isDigitChar = '.' :: f.map digitGlyph := by
    rw [List.dropWhile_append_of_pos isDigitChar_of_mem_map, List.dropWhile_cons_of_neg (by decide)]
  have hne : (w.map digitGlyph).isEmpty = false := by simpa using hw
  have hfrac : f.map digitGlyph ≠ [] := by simpa using hf
  have hall : (f.map digitGlyph).all isDigitChar = true := List.all_eq_true.mpr isDigitChar_of_mem_map
  unfold parseMagnitude
  simp only [htake, hdrop, hne, Bool.false_eq_true, if_false]
  rw [if_pos ⟨trivial, hfrac, hall⟩, ← List.map_append, textDigits_map, List.length_map]

/-- Where `parseMagnitude` does not answer NaN, the text is its leading digits, or they, a point and digits. -/
theorem parseMagnitude_eq_nan (neg : Bool) {t : Text} (h : ¬ UnsignedNumeral t) : parseMagnitude neg t = .nan := by
  obtain ⟨w, hw⟩ := exists_digits (t := t.takeWhile isDigitChar) fun ch hch => List.mem_takeWhile_imp hch
  have hsplit := t.takeWhile_append_dropWhile (p := isDigitChar)
  rw [← hw] at hsplit
  unfold parseMagnitude
  rw [← hw]
  by_cases hne : w = []
  · simp only [hne, List.map_nil, List.isEmpty_nil, if_true]
  have hfull : (w.map digitGlyph).isEmpty = false := by simpa using hne
  simp only [hfull, Bool.false_eq_true, if_false]
  cases hrest : t.dropWhile isDigitChar with
  | nil =>
    rw [hrest, List.append_nil] at hsplit
    exact absurd ⟨w, [], hne, .inl hsplit.symm⟩ h
  | cons ch frac =>
    refine if_neg fun ⟨hpoint, hfrac, hdigits⟩ => ?_
    obtain ⟨f, rfl⟩ := exists_digits (List.all_eq_true.mp hdigits)
    rw [hrest, hpoint] at hsplit
    exact h ⟨w, f, hne, .inr ⟨by simpa using hfrac, hsplit.symm⟩⟩

/-! ## The sign (R190) -/

/-- A minus sign before digits is read as the sign. -/
theorem parseNum_signed (neg : Bool) {w : List Digit} (hw : w ≠ []) (rest : Text) :
    parseNum ((if neg then ['-'] else []) ++ (w.map digitGlyph ++ rest)) =
      parseMagnitude neg (w.map digitGlyph ++ rest) := by
  cases neg with
  | true => rfl
  | false =>
    obtain ⟨d, ds, rfl⟩ := List.exists_cons_of_ne_nil hw
    show parseNum (digitGlyph d :: (ds.map digitGlyph ++ rest)) = _
    unfold parseNum
    split
    · next heq => exact absurd (List.cons.inj heq).1 (digitGlyph_ne_minus d)
    · rfl

theorem parseNum_eq_nan {t : Text} (h : ¬ ∃ (neg : Bool) (w f : List Digit), w ≠ [] ∧
      (t = (if neg then ['-'] else []) ++ w.map digitGlyph ∨
       f ≠ [] ∧ t = (if neg then ['-'] else []) ++ w.map digitGlyph ++ '.' :: f.map digitGlyph)) :
    parseNum t = .nan := by
  unfold parseNum
  split
  · next rest =>
    refine parseMagnitude_eq_nan true fun ⟨w, f, hw, hrest⟩ => h ⟨true, w, f, hw, ?_⟩
    exact hrest.imp (congrArg ('-' :: ·)) (And.imp_right (congrArg ('-' :: ·)))
  · exact parseMagnitude_eq_nan false fun ⟨w, f, hw, ht⟩ => h ⟨false, w, f, hw, ht⟩

theorem numeral_chars {neg : Bool} {w f : List Digit} {ch : Char}
    (h : ch ∈ (if neg then ['-'] else []) ++ w.map digitGlyph ∨
      ch ∈ (if neg then ['-'] else []) ++ w.map digitGlyph ++ '.' :: f.map digitGlyph) :
    ch = '-' ∨ ch = '.' ∨ ∃ d : Digit, ch = digitGlyph d := by
  have hsign : ch ∈ (if neg then ['-'] else []) → ch = '-' := by cases neg <;> simp
  have hdigit : ∀ ds : List Digit, ch ∈ ds.map digitGlyph → ∃ d : Digit, ch = digitGlyph d := fun ds hmem => by
    obtain ⟨d, -, rfl⟩ := List.mem_map.mp hmem
    exact ⟨d, rfl⟩
  simp only [List.mem_append, List.mem_cons] at h
  have hw := hdigit w
  have hf := hdigit f
  tauto

/-- Settles O51: a numeral is read digit by digit; whatever else is read as one would have its shape. -/
theorem toNumFollowsTheGrammar : Obligations.ToNumFollowsTheGrammar := by
  unfold Obligations.ToNumFollowsTheGrammar
  refine ⟨fun neg w f hw => ⟨?_, fun hf => ?_⟩, fun t => parseNum_eq_nan, ?_, rfl, fun _ => rfl, fun _ => rfl⟩
  · have hsign := parseNum_signed neg hw []
    rw [List.append_nil] at hsign
    exact hsign.trans (parseMagnitude_whole neg hw)
  · rw [List.append_assoc]
    exact (parseNum_signed neg hw _).trans (parseMagnitude_fraction neg hw hf)
  · rintro t ⟨ch, hch, hminus, hpoint, hdigit⟩
    refine parseNum_eq_nan ?_
    rintro ⟨neg, w, f, -, ht⟩
    have hmem := ht.imp (fun e => e ▸ hch) fun ⟨_, e⟩ => e ▸ hch
    rcases numeral_chars hmem with h | h | ⟨d, h⟩
    · exact hminus h
    · exact hpoint h
    · exact hdigit d h

/-! ## Decimal digits (R191) -/

theorem digitChar_eq {d : Nat} (h : d < 10) : digitChar d = Nat.digitChar d := by
  revert h; revert d; decide

theorem decimalAux_eq (fuel : Nat) : ∀ (n : Nat) (acc : Text), n < fuel →
    decimalAux fuel n acc = Nat.toDigits 10 n ++ acc := by
  induction fuel with
  | zero => exact fun n _ h => absurd h n.not_lt_zero
  | succ fuel ih =>
    intro n acc h
    rw [decimalAux]
    split
    · next hlt => rw [digitChar_eq hlt, Nat.toDigits_of_lt_base hlt, List.singleton_append]
    · next hge =>
      rw [ih _ _ (by omega), digitChar_eq (Nat.mod_lt n (by decide)),
        Nat.toDigits_of_base_le (by decide) (not_lt.mp hge), List.append_assoc, List.singleton_append]

theorem decimal_eq (n : Nat) : decimal n = Nat.toDigits 10 n := by
  rw [decimal, decimalAux_eq _ n [] n.lt_succ_self, List.append_nil]

/-- The digits that a number prints as spell it. -/
theorem toDigits_eq_map (k : Nat) : ∃ w : List Digit, w ≠ [] ∧ w.map digitGlyph = Nat.toDigits 10 k ∧
    Nat.ofDigits 10 (w.map Fin.val).reverse = k := by
  obtain ⟨w, hw⟩ := exists_digits (t := Nat.toDigits 10 k) fun ch hch => by
    simpa [isDigitChar, Char.isDigit, UInt32.le_iff_toNat_le] using
      Nat.isDigit_of_mem_toDigits (by decide) (le_refl 10) hch
  refine ⟨w, fun hnil => ?_, hw, ?_⟩
  · rw [hnil] at hw
    exact Nat.toDigits_ne_nil hw.symm
  · have hvalue : textDigits (Nat.toDigits 10 k) = Nat.ofDigitChars 10 (Nat.toDigits 10 k) 0 := by
      simp [textDigits, digitsValue, Nat.ofDigitChars_eq_foldl, List.foldl_map, Nat.mul_comm]
    rw [← textDigits_map, hw, hvalue, Nat.ofDigitChars_ten_toDigits]

theorem toNum_toDigits (neg : Bool) (k : Nat) :
    toNum (.text ((if neg then ['-'] else []) ++ Nat.toDigits 10 k)) = F64.round neg (k * F64.one64) 1 := by
  obtain ⟨w, hne, hw, hk⟩ := toDigits_eq_map k
  have hsign := parseNum_signed neg hne []
  rw [List.append_nil, parseMagnitude_whole neg hne, hw, hk] at hsign
  exact hsign

/-- A whole number up to 2^53 is exact, so it prints its own digits. -/
theorem numText_whole (neg : Bool) {k : Nat} (hk : k ≤ 2 ^ 53) :
    numText (F64.round neg (k * F64.one64) 1) =
      (if neg = true ∧ k ≠ 0 then ['-'] else []) ++ Nat.toDigits 10 k := by
  obtain ⟨e, f, hfin, hmag⟩ := F64.round_whole neg hk
  have hpos := F64.one64_pos
  have hwhole : k * F64.one64 % F64.one64 = 0 ∧ k ≤ 2 ^ 53 := ⟨Nat.mul_mod_left k _, hk⟩
  rw [hfin, numText]
  simp only [hmag, Nat.mul_div_cancel k hpos, if_pos hwhole, decimal_eq, Nat.mul_ne_zero_iff, hpos.ne', ne_eq,
    not_false_eq_true, and_true]

/-- Settles O50: a whole number is exact, so its text is its digits, and digits are read as what they spell. -/
theorem wholeNumbersPrintAndReadBack : Obligations.WholeNumbersPrintAndReadBack := by
  unfold Obligations.WholeNumbersPrintAndReadBack
  intro k hk
  have hplus : numText (F64.ofNat k) = Nat.toDigits 10 k := numText_whole false hk
  have hminus (hpos : 0 < k) : numText (F64.ofNat k).neg = '-' :: Nat.toDigits 10 k := by
    rw [F64.ofNat, F64.neg_round]
    exact (numText_whole true hk).trans (by rw [if_pos ⟨rfl, hpos.ne'⟩, List.singleton_append])
  refine ⟨hplus, hminus, ?_, fun hpos => ?_⟩
  · rw [hplus]
    exact toNum_toDigits false k
  · rw [hminus hpos, F64.ofNat, F64.neg_round]
    exact toNum_toDigits true k

end Sys2Proof.Machine
end

section
/-! The table of special values (R201): the obligation `SpecialValues`. -/

namespace Sys2Proof

namespace F64

theorem nan_arithmetic (x : F64) :
    nan.add x = .nan ∧ x.add .nan = .nan ∧ nan.sub x = .nan ∧ x.sub .nan = .nan ∧
    nan.mul x = .nan ∧ x.mul .nan = .nan ∧ nan.div x = .nan ∧ x.div .nan = .nan := by
  cases x <;> exact ⟨rfl, rfl, rfl, rfl, rfl, rfl, rfl, rfl⟩

theorem magnitude_zero : magnitude 0 0 = 0 := rfl

theorem round_zero (neg : Bool) {b : Nat} (hb : 0 < b) : round neg 0 b = zero neg := by
  have hstep : divHalfEven 0 (b * 2 ^ 0) = 0 := by simp [divHalfEven, hb]
  have hscale : scale 0 b = 0 := by simp [scale]
  rw [round_eq, hscale, hstep]
  rfl

theorem add_neg (s : Bool) (e : Fin 2047) (f : BitVec 52) : (fin s e f).add (fin s e f).neg = zero false := by
  obtain ⟨a, ha⟩ : ∃ a, (fin s e f).units = some a := ⟨_, rfl⟩
  rw [neg, add_fin ha (units_neg ha), ofSum, if_pos (Int.add_right_neg a), Bool.and_not_self]

/-- A finite datum other than zero against the zeros and the infinities. -/
theorem nonzero_arithmetic (s : Bool) {e : Fin 2047} {f : BitVec 52} (h : magnitude e f ≠ 0) (t : Bool) :
    (fin s e f).div (zero false) = .inf s ∧ (fin s e f).div (zero true) = .inf (!s) ∧
    (zero t).div (fin s e f) = zero (t ^^ s) ∧ (fin s e f).div (.inf t) = zero (s ^^ t) ∧
    (inf t).div (fin s e f) = .inf (t ^^ s) ∧ (inf t).mul (fin s e f) = .inf (t ^^ s) ∧
    (fin s e f).mul (.inf t) = .inf (s ^^ t) ∧ (fin s e f).add (fin s e f).neg = zero false := by
  have hdiv (t : Bool) : (fin s e f).div (zero t) = .inf (s ^^ t) := by
    rw [zero, div, if_pos magnitude_zero, if_neg h]
  refine ⟨?_, ?_, ?_, rfl, rfl, if_neg h, if_neg h, add_neg s e f⟩
  · rw [hdiv, Bool.xor_false]
  · rw [hdiv, Bool.xor_true]
  · rw [zero, div, if_neg h, magnitude_zero, Nat.zero_mul, round_zero _ (Nat.pos_of_ne_zero h)]

/-- Zeros and infinities against each other. -/
theorem zero_inf_arithmetic (s t : Bool) :
    (zero s).div (zero t) = .nan ∧ (inf s).div (.inf t) = .nan ∧
    (inf s).mul (zero t) = .nan ∧ (zero t).mul (.inf s) = .nan ∧
    (inf s).mul (.inf t) = .inf (s ^^ t) ∧ (zero s).add (zero t) = zero (s && t) := by
  have hsum : (zero s).units = some 0 ∧ (zero t).units = some 0 := by cases s <;> cases t <;> decide
  refine ⟨?_, rfl, ?_, ?_, rfl, add_fin hsum.1 hsum.2⟩
  · rw [zero, zero, div, if_pos magnitude_zero, if_pos magnitude_zero]
  · rw [zero, mul, if_pos magnitude_zero]
  · rw [zero, mul, if_pos magnitude_zero]

end F64

namespace Machine

theorem numText_zero (s : Bool) : numText (F64.zero s) = ['0'] := by
  have hzero : F64.zero s = F64.round s (0 * F64.one64) 1 := by rw [Nat.zero_mul, F64.round_zero s one_pos]
  rw [hzero, numText_whole s (Nat.zero_le _), Nat.toDigits_zero]
  simp

/-- Settles O49: the table by the kind of the operands; 7 ÷ 2 is evaluated. -/
theorem specialValues : Obligations.SpecialValues := by
  unfold Obligations.SpecialValues
  exact ⟨F64.nan_arithmetic, fun s e f h t => F64.nonzero_arithmetic s h t, F64.zero_inf_arithmetic, rfl, rfl,
    by decide +kernel, numText_zero⟩

end Machine
end Sys2Proof
end

section
/-! The concatenations (R242, R243), what text a Value has (R191), and the inclusive range (R252): the obligations
`ConcatenationCommands` and `RangeCommand`. -/

namespace Sys2Proof

/-! ## Units and elements of a range (R252) -/

namespace F64

theorem one64_cast : (one64 : Int) = 2 ^ 1074 := by rw [one64_eq, Nat.cast_pow, Nat.cast_ofNat]

/-- An element of a numeric range is the exact sum or difference, rounded once. -/
theorem step_fin {s : Bool} {e : Fin 2047} {f : BitVec 52} {a : Int} (ha : (fin s e f).units = some a)
    (down : Bool) (k : Nat) :
    (fin s e f).step down k = ofSum s down (if down then a - (k * one64 : Nat) else a + (k * one64 : Nat)) := by
  rw [step, units_fin ha]
  cases down <;> simp only [Bool.false_eq_true, if_false, if_true, Int.sub_eq_add_neg]

end F64

theorem floorUnits_eq (z : Int) : floorUnits z = z / 2 ^ 1074 := by
  rw [floorUnits, Int.fdiv_eq_ediv_of_nonneg _ (Int.natCast_nonneg _), F64.one64_cast]

namespace Machine

/-! ## The text of a Value (R191) -/

theorem toTextAll_ofList (xs : List Value) : toTextAll (Values.ofList xs) = xs.flatMap toText := by
  induction xs with
  | nil => rw [Values.ofList, toTextAll, List.flatMap_nil]
  | cons v vs ih => rw [Values.ofList, toTextAll, ih, List.flatMap_cons]

/-- The text of a number that is no whole number up to 2^53 is the open one. -/
theorem numText_other {x : F64} {z : Int} (hx : x.units = some z)
    (hz : ¬ ((F64.one64 : Int) ∣ z) ∨ 2 ^ 53 * F64.one64 < z.natAbs) : numText x = Config.numTextOther x := by
  cases x with
  | nan => exact nomatch hx
  | inf s => exact nomatch hx
  | fin s e f =>
    rw [Int.natCast_dvd, F64.natAbs_units hx] at hz
    refine if_neg fun ⟨hmod, hle⟩ => ?_
    have hdvd := Nat.dvd_of_mod_eq_zero hmod
    have hmul := Nat.mul_le_mul_right F64.one64 hle
    rw [Nat.div_mul_cancel hdvd] at hmul
    exact hz.elim (absurd hdvd) (absurd hmul ∘ not_le.mpr)

/-- A pure two-operand command pushes its Value on what the pops leave. -/
theorem PopsTo.pure2_eq {s t u : State} {p1 p2 : Value} (h1 : PopsTo s p1 t) (h2 : PopsTo t p2 u)
    (f : Value → Value → Value) :
    Host.Outcome.next (φ := Fault) (ρ := Refusal) (dispatch2 s (pure2 f)) =
      .next { u with stk := u.stk ++ [f p1 p2] } :=
  congrArg Host.Outcome.next (h1.dispatch2_eq h2 _)

/-- Settles O33: both commands join the two texts, and `ToText` goes by the kind of the Value. -/
theorem concatenationCommands : Obligations.ConcatenationCommands := by
  unfold Obligations.ConcatenationCommands
  refine ⟨fun s t u p1 p2 h1 h2 => ⟨h1.pure2_eq h2 fun p1 p2 => .text (toText p1 ++ toText p2),
    h1.pure2_eq h2 fun p1 p2 => .text (toText p2 ++ toText p1)⟩, fun t => ?_, fun xs => ?_, ?_, ?_, ?_,
    fun x z hx hz => ?_⟩
  · rw [toText]
  · rw [Value.ofList, toText, toTextAll_ofList]
  · rw [toText, numText]
  · rw [toText, numText]
  · rw [toText, numText]
  · rw [← F64.one64_cast, ← F64.one64_eq] at hz
    rw [toText, numText_other hx hz]

/-! ## Ranges (R252) -/

/-- The codes from `a` to `b` count up, or they count down to `b`. -/
theorem codeRange_eq (a b : Nat) :
    codeRange a b = if a ≤ b then List.range' a (b + 1 - a) else (List.range' b (a + 1 - b)).reverse := by
  unfold codeRange
  split
  · next hle => rw [Nat.sub_add_comm hle, List.range'_eq_map_range]
  · next hgt =>
    rw [List.reverse_range', Nat.sub_add_comm (not_le.mp hgt).le]
    exact List.map_congr_left fun i hi => by
      have hlt := List.mem_range.mp hi
      omega

theorem isScalar_eq (k : Nat) : isScalar k = decide (k < 0xD800 ∨ 0xDFFF < k) := by
  rw [isScalar, Bool.eq_iff_iff]
  simp only [Bool.not_and, Bool.or_eq_true, Bool.not_eq_true', decide_eq_false_iff_not, decide_eq_true_eq, not_le]

theorem rangeValue_numbers {p1 p2 : Value} (h : ∀ a as b bs, ¬ (p1 = .text (a :: as) ∧ p2 = .text (b :: bs))) :
    rangeValue p1 p2 = numRange (toNum p1) (toNum p2) := by
  unfold rangeValue
  split
  · next a as b bs => exact absurd ⟨rfl, rfl⟩ (h a as b bs)
  · rfl

theorem numRange_of_none {x y : F64} (h : x.units = none ∨ y.units = none) : numRange x y = Value.ofList [] := by
  unfold numRange
  rcases h with h | h
  · rw [h]
  · rw [h]
    cases x.units <;> rfl

theorem numRange_of_units {x y : F64} {za zb : Int} (hx : x.units = some za) (hy : y.units = some zb) :
    numRange x y = Value.ofList
      (if za ≤ zb then (List.range (((zb - za) / 2 ^ 1074).toNat + 1)).map fun k => .num (x.step false k)
       else (List.range (((za - zb) / 2 ^ 1074).toNat + 1)).map fun k => .num (x.step true k)) := by
  unfold numRange
  rw [hx, hy, ← floorUnits_eq, ← floorUnits_eq, apply_ite Value.ofList]

/-- Settles O39: the two kinds of range, and the elements of the numeric one. -/
theorem rangeCommand : Obligations.RangeCommand := by
  unfold Obligations.RangeCommand
  refine ⟨fun s t u p1 p2 h1 h2 => ⟨?_, fun hno => ⟨fun hnone => ?_, fun za zb ha hb => ?_⟩⟩,
    fun sx ex fx a k ha => ⟨?_, ?_⟩⟩
  · rintro a as b bs rfl rfl
    refine (h1.pure2_eq h2 rangeValue).trans ?_
    rw [rangeValue, charRange, codeRange_eq, funext isScalar_eq]
  · refine (h1.pure2_eq h2 rangeValue).trans ?_
    rw [rangeValue_numbers hno, numRange_of_none hnone]
  · refine (h1.pure2_eq h2 rangeValue).trans ?_
    rw [rangeValue_numbers hno, numRange_of_units ha hb]
  · rw [F64.step_fin ha, ← F64.one64_eq, F64.ofSum, Bool.and_false]
    rfl
  · rw [F64.step_fin ha, ← F64.one64_eq, F64.ofSum, Bool.and_true]
    rfl

end Machine
end Sys2Proof
end

section
/-! The flag and accumulator commands, the dump (R216 to R218, R222, R223, R295) and the constants (R224 to R227): the
obligations `FlagAccumulatorAndDumpCommands` and `ConstantCommandsPush`. -/

namespace Sys2Proof.Machine

/-- Below the surrogates a run of characters has the consecutive codes it is made of. -/
theorem map_toNat_charRun {lo n : Nat} (h : lo + n ≤ 0xD800) :
    (charRun lo n).map Char.toNat = List.range' lo n := by
  rw [charRun, List.map_map, List.range'_eq_map_range]
  refine List.map_congr_left fun i hi => toNat_ofNat_of_lt ?_
  have hlt := List.mem_range.mp hi
  omega

/-- Settles O30: four commands are one update of one field each, and the pushes of `…` put the characters on the stack
in their order. -/
theorem flagAccumulatorAndDumpCommands : Obligations.FlagAccumulatorAndDumpCommands := by
  unfold Obligations.FlagAccumulatorAndDumpCommands
  exact fun s => ⟨rfl, rfl, rfl, rfl, congrArg Host.Outcome.next (explode_eq s)⟩

/-- Settles O32: the letters and the printable set are runs of characters, and each constant is pushed as one Text. -/
theorem constantCommandsPush : Obligations.ConstantCommandsPush := by
  unfold Obligations.ConstantCommandsPush
  exact fun s => ⟨charRun 65 26, charRun 97 26, charRun 32 95, map_toNat_charRun (by decide),
    map_toNat_charRun (by decide), map_toNat_charRun (by decide), rfl, rfl, rfl, rfl⟩

end Sys2Proof.Machine
end

section
/-! Counts, indices and slices (R240, R244 to R247): the obligations `IndexAndSliceCommands` and
`TextSlicesByWholeNumbers`. -/

namespace Sys2Proof

/-! ## Whole numbers in units (R78, R253) -/

/-- A whole number up to 2^53 is a finite datum of sign 0, `k` ones in magnitude. -/
theorem F64.ofNat_fin {k : Nat} (hk : k ≤ 2 ^ 53) :
    ∃ e f, F64.ofNat k = .fin false e f ∧ (F64.fin false e f).units = some ((k * F64.one64 : Nat) : Int) := by
  obtain ⟨e, f, hfin, hmag⟩ := F64.round_whole false hk
  exact ⟨e, f, hfin, by rw [← hmag]; rfl⟩

theorem F64.units_ofNat {k : Nat} (hk : k ≤ 2 ^ 53) :
    (F64.ofNat k).units = some ((k * F64.one64 : Nat) : Int) := by
  obtain ⟨e, f, hfin, hunits⟩ := F64.ofNat_fin hk
  rw [hfin, hunits]

theorem floorUnits_natCast (z : Nat) : floorUnits z = (z / F64.one64 : Nat) := by
  rw [floorUnits_eq, ← F64.one64_cast, Int.natCast_ediv]

theorem floorUnits_neg {z : Int} (h : z < 0) : floorUnits z < 0 := by
  rw [floorUnits_eq, ← F64.one64_cast]
  exact Int.ediv_neg_of_neg_of_pos h (Int.natCast_pos.mpr F64.one64_pos)

namespace Machine

/-! ## The count and the container (R240) -/

theorem pickNum_eq {p1 p2 x : Value} {n : F64}
    (h : (∃ y, p1 = .num y ∧ n = y ∧ x = p2) ∨ ((∀ y, p1 ≠ .num y) ∧ n = toNum p2 ∧ x = p1)) :
    pickNum p1 p2 = (n, x) := by
  rcases h with ⟨y, rfl, rfl, rfl⟩ | ⟨hno, rfl, rfl⟩
  · rfl
  · cases x with
    | num y => exact absurd rfl (hno y)
    | text t => rfl
    | seq vs => rfl

/-- A finite count is floored and held between 0 and the length. -/
theorem count_of_units {x : F64} {z : Int} (hx : x.units = some z) (len : Nat) :
    count x len = if z < 0 then 0 else min len (z.toNat / F64.one64) := by
  cases x with
  | nan => exact nomatch hx
  | inf s => exact nomatch hx
  | fin s e f =>
    simp only [count, F64.units_fin hx]
    split
    · next hneg =>
      have hfloor := floorUnits_neg hneg
      omega
    · next hpos =>
      obtain ⟨m, rfl⟩ := Int.eq_ofNat_of_zero_le (not_lt.mp hpos)
      rw [floorUnits_natCast, Int.toNat_natCast]
      generalize m / F64.one64 = q
      omega

theorem count_ofNat {k : Nat} (hk : k ≤ 2 ^ 53) (len : Nat) : count (F64.ofNat k) len = min len k := by
  rw [count_of_units (F64.units_ofNat hk), if_neg (Int.natCast_nonneg _).not_gt, Int.toNat_natCast,
    Nat.mul_div_cancel k F64.one64_pos]

/-! ## Index (R244) -/

/-- The datum of sign `neg` and magnitude `m` units is the index `k` just if it is `k` ones. -/
theorem index_iff_units (neg : Bool) (m k : Nat) :
    ((m % F64.one64 = 0 ∧ (neg = false ∨ m = 0)) ∧ m / F64.one64 = k) ↔
      (if neg then -(m : Int) else m) = ((k * F64.one64 : Nat) : Int) := by
  have hpos := F64.one64_pos
  have hdiv : m % F64.one64 = 0 ∧ m / F64.one64 = k ↔ m = k * F64.one64 := by
    refine ⟨fun ⟨hmod, hquot⟩ => ?_, fun h => ?_⟩
    · rw [← hquot, Nat.div_mul_cancel (Nat.dvd_of_mod_eq_zero hmod)]
    · rw [h]
      exact ⟨Nat.mul_mod_left k _, Nat.mul_div_cancel k hpos⟩
  rw [and_right_comm, hdiv]
  generalize k * F64.one64 = u
  cases neg with
  | false => simp
  | true =>
    simp only [Bool.true_eq_false, false_or, if_true]
    omega

theorem asIndex_eq_some_iff {n : F64} {k : Nat} :
    asIndex n = some k ↔ n.units = some ((k * F64.one64 : Nat) : Int) := by
  cases n with
  | nan => exact iff_of_false nofun nofun
  | inf s => exact iff_of_false nofun nofun
  | fin s e f => simp only [asIndex, F64.units, Option.ite_none_right_eq_some, Option.some.injEq, index_iff_units]

section
variable {p1 p2 x : Value} {n : F64} (hpick : pickNum p1 p2 = (n, x))
include hpick

theorem indexValue_of_units {k : Nat} (hk : n.units = some ((k * F64.one64 : Nat) : Int)) :
    indexValue p1 p2 = (asList x).getD k (.text []) := by
  simp only [indexValue, hpick, asIndex_eq_some_iff.mpr hk]

/-- A count that is no index of the container selects nothing. -/
theorem indexValue_of_forall_ne
    (hno : ∀ k < (asList x).length, n.units ≠ some ((k * F64.one64 : Nat) : Int)) :
    indexValue p1 p2 = .text [] := by
  cases hn : asIndex n with
  | none => simp only [indexValue, hpick, hn]
  | some k =>
    have hunits := asIndex_eq_some_iff.mp hn
    rw [indexValue_of_units hpick hunits]
    exact List.getD_eq_default _ _ (not_lt.mp fun hlt => hno k hlt hunits)

/-! ## Slices (R245 to R247) -/

theorem sliceValue_eq (start : Nat → Nat → Nat) :
    sliceValue start p1 p2 =
      rebuild x (((asList x).drop (start (asList x).length (count n (asList x).length))).take
        (count n (asList x).length)) := by
  simp only [sliceValue, hpick]

end

/-- What lies after all but the last `k` elements is at most `k` long, so `T` takes all of it. -/
theorem take_drop_length_sub {α : Type} (l : List α) (k : Nat) :
    (l.drop (l.length - k)).take k = l.drop (l.length - k) :=
  List.take_of_length_le (by rw [List.length_drop]; omega)

/-- Settles O34: the container and the count by the kind of the top, then the element or the slice they select. -/
theorem indexAndSliceCommands : Obligations.IndexAndSliceCommands := by
  unfold Obligations.IndexAndSliceCommands
  simp only [← F64.one64_eq]
  refine ⟨fun s t u p1 p2 x n h1 h2 hsel => ?_, fun vs => rfl, fun t => rfl, fun x => ?_, fun vs xs => rfl,
    fun t xs => rfl, fun x xs => rfl, fun len => ⟨rfl, rfl, rfl, fun x z hx => count_of_units hx len⟩⟩
  · have hpick := pickNum_eq hsel
    refine ⟨fun k hk _ => ?_, fun hno => ?_, ?_, ?_, ?_⟩
    · exact (h1.pure2_eq h2 indexValue).trans (by rw [indexValue_of_units hpick hk])
    · exact (h1.pure2_eq h2 indexValue).trans (by rw [indexValue_of_forall_ne hpick hno])
    · exact (h1.pure2_eq h2 (sliceValue fun _ _ => 0)).trans (by rw [sliceValue_eq hpick, List.drop_zero])
    · exact (h1.pure2_eq h2 (sliceValue fun len k => len - k)).trans (by
        rw [sliceValue_eq hpick, take_drop_length_sub])
    · exact (h1.pure2_eq h2 (sliceValue fun len k => (len - k) / 2)).trans (by rw [sliceValue_eq hpick])
  · rw [asList, toText]

/-! ## A Text and a whole number -/

/-- Popping two Values that lie on the stack (R169). -/
theorem popsTo_of_two {s : State} {xs : List Value} {p2 p1 : Value} (h : s.stk = xs ++ [p2, p1]) :
    PopsTo s p1 { s with stk := xs ++ [p2] } ∧ PopsTo { s with stk := xs ++ [p2] } p2 { s with stk := xs } :=
  ⟨.inl ⟨xs ++ [p2], by rw [h, List.append_assoc, List.singleton_append], rfl⟩, .inl ⟨xs, rfl, rfl⟩⟩

/-- The number is the count and the Text the container, whichever lies on top. -/
theorem exists_popsTo_pickNum {s : State} {xs : List Value} {t : Text} {n : F64}
    (h : s.stk = xs ++ [.text t, .num n] ∨ s.stk = xs ++ [.num n, .text t]) :
    ∃ s' p1 p2, PopsTo s p1 s' ∧ PopsTo s' p2 { s with stk := xs } ∧ pickNum p1 p2 = (n, .text t) := by
  rcases h with h | h
  · obtain ⟨h1, h2⟩ := popsTo_of_two h
    exact ⟨_, _, _, h1, h2, rfl⟩
  · obtain ⟨h1, h2⟩ := popsTo_of_two h
    exact ⟨_, _, _, h1, h2, rfl⟩

@[simp] theorem flatMap_toText_singletons (t : Text) : (t.map fun ch => Value.text [ch]).flatMap toText = t := by
  induction t with
  | nil => rfl
  | cons ch t ih => rw [List.map_cons, List.flatMap_cons, ih, toText, List.singleton_append]

/-- A slice of a Text's characters is the Text of the sliced characters. -/
theorem rebuild_slice (t : Text) (i k : Nat) :
    rebuild (.text t) (((asList (.text t)).drop i).take k) = .text ((t.drop i).take k) := by
  rw [rebuild, asList, ← List.map_drop, ← List.map_take, flatMap_toText_singletons]

theorem getD_asList_text (t : Text) (k : Nat) :
    (asList (.text t)).getD k (.text []) = .text (t[k]?.toList) := by
  rw [asList, List.getD_eq_getElem?_getD, List.getElem?_map]
  cases t[k]? <;> rfl

/-- `H`, `T` and `C` of a Text by a whole number. -/
theorem sliceValue_text {p1 p2 : Value} {t : Text} {k m : Nat} (hpick : pickNum p1 p2 = (F64.ofNat k, .text t))
    (hk : k ≤ 2 ^ 53) (hm : m = min k t.length) (start : Nat → Nat → Nat) :
    sliceValue start p1 p2 = .text ((t.drop (start t.length m)).take m) := by
  have hlen : (asList (.text t)).length = t.length := List.length_map _
  rw [sliceValue_eq hpick, hlen, count_ofNat hk, Nat.min_comm, ← hm, rebuild_slice]

/-- Settles O35: both orders give the same count and container, and the Text's elements are its characters. -/
theorem textSlicesByWholeNumbers : Obligations.TextSlicesByWholeNumbers := by
  unfold Obligations.TextSlicesByWholeNumbers
  intro s xs txt k m hk hm hstk
  obtain ⟨s', p1, p2, h1, h2, hpick⟩ := exists_popsTo_pickNum hstk
  have hslice := sliceValue_text hpick hk hm
  refine ⟨?_, ?_, ?_, ?_⟩
  · exact (h1.pure2_eq h2 (sliceValue fun _ _ => 0)).trans (by rw [hslice, List.drop_zero])
  · exact (h1.pure2_eq h2 (sliceValue fun len k => len - k)).trans (by rw [hslice, take_drop_length_sub])
  · exact (h1.pure2_eq h2 (sliceValue fun len k => (len - k) / 2)).trans (by rw [hslice])
  · refine (h1.pure2_eq h2 indexValue).trans ?_
    rw [indexValue_of_units hpick (F64.units_ofNat hk), getD_asList_text]

end Machine
end Sys2Proof
end

section
/-! The case commands (R248 to R250) and join (R251): the obligations `CaseCommands` and `JoinCommand`. -/

namespace Sys2Proof.Machine

/-- A pure one-operand command pushes its Value on what the pop leaves. -/
theorem PopsTo.pure1_eq {s t : State} {v : Value} (h : PopsTo s v t) (f : Value → Value) :
    Host.Outcome.next (φ := Fault) (ρ := Refusal) (dispatch1 s (pure1 f)) = .next { t with stk := t.stk ++ [f v] } :=
  congrArg Host.Outcome.next (h.dispatch1_eq _)

theorem joinValue_seq (vs : Values) (sep : Value) :
    joinValue (.seq vs) sep = .text (List.intercalate (toText sep) (vs.toList.map toText)) := rfl

theorem joinValue_of_not_seq {sep : Value} (h : ∀ vs, sep ≠ .seq vs) (v : Value) :
    joinValue sep v = .text (List.intercalate (toText sep) ((asList v).map toText)) := by
  cases sep with
  | num x => rfl
  | text t => rfl
  | seq vs => exact absurd rfl (h vs)

/-- Settles O38: a sequence on top is joined by the operand below it; else the top is the separator. -/
theorem joinCommand : Obligations.JoinCommand := by
  unfold Obligations.JoinCommand
  refine fun s t u p1 p2 h1 h2 => ⟨?_, fun hno => ?_⟩
  · rintro vs rfl
    exact (h1.pure2_eq h2 joinValue).trans (by rw [joinValue_seq])
  · exact (h1.pure2_eq h2 joinValue).trans (by rw [joinValue_of_not_seq hno])

/-- Settles O36: each command pushes one Text, which its operand's text alone gives. -/
theorem caseCommands : Obligations.CaseCommands := by
  unfold Obligations.CaseCommands
  exact fun s t v h => ⟨h.pure1_eq fun p1 => .text (unwords ((words (toText p1)).map cap)),
    h.pure1_eq fun p1 => .text (unwords (apaWords none (words (toText p1)))),
    h.pure1_eq fun p1 => .text (cap (toText p1))⟩

end Sys2Proof.Machine
end

section
/-! The zero-based range (R253), and both ranges over whole numbers (R252, R253): the obligations `ZeroRangeCommand`
and `WholeNumberRanges`. -/

namespace Sys2Proof

/-! ## Ceilings (R253) and whole sums (R252) -/

theorem ceilUnits_nonpos {z : Int} (h : z ≤ 0) : ceilUnits z ≤ 0 := by
  obtain ⟨m, hm⟩ := Int.eq_ofNat_of_zero_le (Int.neg_nonneg.mpr h)
  rw [ceilUnits, hm, floorUnits_natCast]
  exact Int.neg_nonpos_of_nonneg (Int.natCast_nonneg _)

theorem ceilUnits_natCast (z : Nat) : ceilUnits z = ((z + F64.one64 - 1) / F64.one64 : Nat) := by
  have hpos := F64.one64_pos
  have hdigits := Nat.div_add_mod (z + F64.one64 - 1) F64.one64
  have hlt := Nat.mod_lt (z + F64.one64 - 1) hpos
  rw [ceilUnits, floorUnits_eq, ← F64.one64_cast]
  generalize (z + F64.one64 - 1) / F64.one64 = q at hdigits ⊢
  generalize (z + F64.one64 - 1) % F64.one64 = r at hdigits hlt
  have hneg : -(z : Int) = ((F64.one64 - 1 - r : Nat) : Int) + F64.one64 * -(q : Int) := by
    rw [Int.mul_neg, ← Int.natCast_mul]
    omega
  rw [hneg, Int.add_mul_ediv_left _ _ (Int.natCast_ne_zero.mpr hpos.ne'), ← Int.natCast_ediv,
    Nat.div_eq_of_lt (by omega), Int.natCast_zero, Int.zero_add, Int.neg_neg]

/-- A whole sum of data that are not both negative is the datum nearest to it. -/
theorem F64.ofSum_whole {s t : Bool} (hst : (s && t) = false) (k : Nat) :
    F64.ofSum s t ((k * F64.one64 : Nat) : Int) = F64.ofNat k := by
  rw [F64.ofSum, F64.ofNat]
  split
  · next hzero => rw [Int.natCast_eq_zero.mp hzero, F64.round_zero false one_pos, hst]
  · rw [decide_eq_false (Int.natCast_nonneg _).not_gt, Int.natAbs_natCast]

/-- An element of a range from a whole number is the whole sum or difference. -/
theorem F64.step_ofNat {a k b : Nat} {down : Bool} (ha : a ≤ 2 ^ 53)
    (hb : (if down then (a : Int) - k else a + k) = b) : (F64.ofNat a).step down k = F64.ofNat b := by
  obtain ⟨e, f, hfin, hunits⟩ := F64.ofNat_fin ha
  have hsum : (if down then ((a * F64.one64 : Nat) : Int) - (k * F64.one64 : Nat)
      else (a * F64.one64 : Nat) + (k * F64.one64 : Nat)) = ((b * F64.one64 : Nat) : Int) := by
    rw [Nat.cast_mul a, Nat.cast_mul k, Nat.cast_mul b, ← hb, ite_mul, sub_mul, add_mul]
  rw [hfin, F64.step_fin hunits, hsum, F64.ofSum_whole (Bool.false_and down)]

theorem floorUnits_whole (k : Nat) : floorUnits ((k * F64.one64 : Nat) : Int) = k := by
  rw [floorUnits_natCast, Nat.mul_div_cancel k F64.one64_pos]

theorem ceilUnits_whole (k : Nat) : ceilUnits ((k * F64.one64 : Nat) : Int) = k := by
  rw [ceilUnits, floorUnits_eq, ← F64.one64_cast, Nat.cast_mul, ← Int.neg_mul,
    Int.mul_ediv_cancel _ (Int.natCast_ne_zero.mpr F64.one64_pos.ne'), Int.neg_neg]

/-- The units between two whole numbers. -/
theorem units_sub_whole {a b : Nat} (h : a ≤ b) :
    ((b * F64.one64 : Nat) : Int) - (a * F64.one64 : Nat) = ((b - a) * F64.one64 : Nat) := by
  rw [Nat.sub_mul, Nat.cast_sub (Nat.mul_le_mul_right _ h)]

namespace Machine

/-! ## The zero-based range (R253) -/

theorem zeroRangeValue_of_none {v : Value} (h : (toNum v).units = none) : zeroRangeValue v = Value.ofList [] := by
  simp only [zeroRangeValue, h]

theorem zeroRangeValue_of_units {v : Value} {z : Int} (h : (toNum v).units = some z) :
    zeroRangeValue v = Value.ofList ((List.range (ceilUnits z).toNat).map fun k => .num (F64.ofNat k)) := by
  simp only [zeroRangeValue, h]

/-- Settles O40: the range has as many elements as the ceiling of its end, none if that is not positive. -/
theorem zeroRangeCommand : Obligations.ZeroRangeCommand := by
  unfold Obligations.ZeroRangeCommand
  refine fun s t v h => ⟨?_, fun z _ hz => ?_⟩
  · rintro (hnone | ⟨z, hz, hle⟩)
    · exact (h.pure1_eq zeroRangeValue).trans (by rw [zeroRangeValue_of_none hnone])
    · refine (h.pure1_eq zeroRangeValue).trans ?_
      rw [zeroRangeValue_of_units hz, Int.toNat_of_nonpos (ceilUnits_nonpos hle)]
      rfl
  · refine (h.pure1_eq zeroRangeValue).trans ?_
    rw [zeroRangeValue_of_units hz, ceilUnits_natCast, Int.toNat_natCast, F64.one64_eq]

/-! ## Whole numbers (R252, R253) -/

theorem rangeValue_num (x y : F64) : rangeValue (.num x) (.num y) = numRange x y := rfl

/-- Between whole numbers a range counts as character codes do, upward or downward. -/
theorem numRange_ofNat {a b : Nat} (ha : a ≤ 2 ^ 53) (hb : b ≤ 2 ^ 53) :
    numRange (F64.ofNat a) (F64.ofNat b) = Value.ofList ((codeRange a b).map fun k => .num (F64.ofNat k)) := by
  have hle : ((a * F64.one64 : Nat) : Int) ≤ (b * F64.one64 : Nat) ↔ a ≤ b := by
    rw [Nat.cast_le, Nat.mul_le_mul_right_iff F64.one64_pos]
  rw [numRange_of_units (F64.units_ofNat ha) (F64.units_ofNat hb), ← floorUnits_eq, ← floorUnits_eq, codeRange]
  simp only [hle]
  split
  · next hup =>
    rw [units_sub_whole hup, floorUnits_whole, Int.toNat_natCast, List.map_map]
    refine congrArg Value.ofList (List.map_congr_left fun k _ => congrArg Value.num (F64.step_ofNat ha ?_))
    exact (Nat.cast_add a k).symm
  · next hdown =>
    rw [units_sub_whole (not_le.mp hdown).le, floorUnits_whole, Int.toNat_natCast, List.map_map]
    refine congrArg Value.ofList (List.map_congr_left fun k hk => congrArg Value.num (F64.step_ofNat ha ?_))
    have hlt := List.mem_range.mp hk
    exact (Nat.cast_sub (by omega)).symm

/-- Settles O41: every element of both ranges is a whole number, and the ceiling of a whole number is itself. -/
theorem wholeNumberRanges : Obligations.WholeNumberRanges := by
  unfold Obligations.WholeNumberRanges
  refine fun s xs a b ha hb => ⟨fun hstk => ?_, fun hstk => ?_⟩
  · obtain ⟨h1, h2⟩ := popsTo_of_two hstk
    refine (h1.pure2_eq h2 rangeValue).trans ?_
    rw [rangeValue_num, numRange_ofNat ha hb, codeRange_eq]
  · have h : PopsTo s (.num (F64.ofNat a)) { s with stk := xs } := .inl ⟨xs, hstk, rfl⟩
    refine (h.pure1_eq zeroRangeValue).trans ?_
    rw [zeroRangeValue_of_units (by rw [toNum, F64.units_ofNat ha]), ceilUnits_whole, Int.toNat_natCast]

end Machine
end Sys2Proof
end
